-- ==== Sys2Proof/Word.lean ====
section
/-! DEFINITION. The word types of the block: a byte, the 3-bit status, the 1-bit op code. -/

namespace Sys2Proof

/-- One buffer element or header: `BYTE_W` = 8 bits (R5). -/
abbrev Byte := BitVec 8

/-- The `status` field of the result record: `STATUS_W` = 3 bits (R18). -/
abbrev StatusBits := BitVec 3

/-- The `op` field of the command record: 1 bit (R11, R61). -/
abbrev OpBit := BitVec 1

end Sys2Proof
end

