-- ==== Sys2Proof/Config.lean ====
section
/-! DEFINITION. The parameters of R5, and the free values (R24, R161). `LEN_W` is open (D4): lengths are naturals
(log 1). -/

namespace Sys2Proof.Config

/-- Shortest run a RUN token encodes (R5). -/
def minRun : Nat := 2
/-- Longest run a RUN token encodes (R5). -/
def maxRun : Nat := 129
/-- Shortest copy a COPY token encodes (R5). -/
def minCopy : Nat := 1
/-- Longest copy a COPY token encodes (R5). -/
def maxCopy : Nat := 128

/-- `OP_ENCODE` (R5; the code is decision D2 of the spec, log 10). -/
def opEncode : OpBit := 0#1
/-- `OP_DECODE` (R5; the code is decision D2 of the spec, log 10). -/
def opDecode : OpBit := 1#1

/-- `ST_OK` (R5). -/
def stOk : StatusBits := 0#3
/-- `ST_INVALID_ARGUMENT`, bit 0 (R5, R18; decision D5 of the spec, log 10). -/
def stInvalidArgument : StatusBits := 1#3
/-- `ST_DST_WRITE_ERROR`, bit 1 (R5, R18; decision D5 of the spec, log 10). -/
def stDstWriteError : StatusBits := 2#3
/-- `ST_SRC_DECODE_ERROR`, bit 2 (R5, R18; decision D5 of the spec, log 10). -/
def stSrcDecodeError : StatusBits := 4#3

/-- What a byte of SRC or DST that no cell lists reads as. DESIGN CHOICE (log 3): the spec leaves the buffers' contents
to the host. Unsafe where a claim leans on the contents at reset. -/
def fillByte : Byte := 0#8

/-- FREE VALUE (log 4). Which of the two values R161 allows a DST byte holds after a reset during a call: the `k`-th
choice. It has no body, so no proof can learn it. -/
opaque freeChoice : Nat → Bool

/-- FREE VALUE (log 20). What the `k`-th read of the result record before any call has ended returns as `output_length`:
"reads no defined value (treat as a draw, or refuse the read)" (R24). -/
opaque freeLength : Nat → Nat

/-- FREE VALUE (log 20). What that read returns as `status`. -/
opaque freeStatus : Nat → StatusBits

end Sys2Proof.Config
end

