-- ==== Sys2Proof/Syntax.lean ====
section
/-! DEFINITION. Instructions (one constructor per row of spec/opcode_table.json), the command record, and the tokens of
the wire format with their payload. -/

namespace Sys2Proof

/-- The two kinds of token and of segment (R50, R51): bit 7 of the header is 0 for COPY, 1 for RUN. -/
inductive Kind where
  | copy
  | run
deriving DecidableEq, Repr

/-- The fields of the command record beside `op` (R11): the operands of both commands. -/
structure CallArgs where
  srcNull : Bool
  srcLen : Nat
  dstNull : Bool
  dstCap : Nat
deriving DecidableEq, Repr

/-- The command record (R11), with its one encoded field `op` (R61). -/
structure Command extends CallArgs where
  op : OpBit
deriving DecidableEq, Repr

/-- The instruction set: two wire tokens and two commands (R1, R63). As in the pseudocode of R123 and R124, a token is
what its header byte says: its kind and its length `n`; its payload is read from SRC when it executes. -/
inductive Instr where
  /-- `COPY` of `n` bytes (R124). -/
  | copy (n : Nat)
  /-- `RUN` of `n` bytes (R123). -/
  | run (n : Nat)
  /-- `ENCODE` (R85). -/
  | encode (args : CallArgs)
  /-- `DECODE` (R120). -/
  | decode (args : CallArgs)
deriving DecidableEq, Repr

/-- A whole token with its payload, as R62 writes it: `RUN n, s` or `COPY n, b0 b1 …` (`n` the number of bytes). -/
inductive Token where
  | run (n : Nat) (sym : Byte)
  | copy (data : List Byte)
deriving DecidableEq, Repr

/-- An encoded instruction. The block has two encodings (30_encoding.md): the bytes of the wire format, and the command
record. -/
inductive Words where
  | bytes (bs : List Byte)
  | record (c : Command)
deriving DecidableEq, Repr

end Sys2Proof
end

