-- ==== Sys2Proof/WellFormed.lean ====
section
/-! DEFINITION. Which instructions and tokens have an encoding: the length ranges of R52 and R53. -/

namespace Sys2Proof

/-- `n` is a length a header of this kind can carry: 2 to 129 for a run, 1 to 128 for a copy (R52, R53, R62). -/
def lengthOk : Kind → Nat → Bool
  | .run, n => decide (Config.minRun ≤ n) && decide (n ≤ Config.maxRun)
  | .copy, n => decide (Config.minCopy ≤ n) && decide (n ≤ Config.maxCopy)

/-- An instruction is well formed when it can be written: a token's length is in its range; every command record is well
formed ("No value of any field is reserved", R61). -/
def Instr.wf : Instr → Bool
  | .copy n => lengthOk .copy n
  | .run n => lengthOk .run n
  | .encode _ => true
  | .decode _ => true

/-- A token can be written when its length is in its range (R62). -/
def Token.wf : Token → Bool
  | .run n _ => lengthOk .run n
  | .copy data => lengthOk .copy data.length

end Sys2Proof
end

