-- ==== Sys2Proof/Decode.lean ====
section
/-! DEFINITION. The wire format's header byte and the command record: reading them, total, and after that writing them. -/

namespace Sys2Proof

/-! ## Bytes as numbers (R7) -/

/-- `uint8(b)`: the byte as an unsigned integer (R7). -/
def uint8 (b : Byte) : Nat := b.toNat

/-- `sint8(b)`: the byte as a two's-complement integer (R7, R38). -/
def sint8 (b : Byte) : Int := b.toInt

/-- `byte(v)`: the byte whose `uint8` is `v mod 256` (R7). -/
def byte (v : Int) : Byte := BitVec.ofInt 8 v

/-! ## Decoding -/

/-- The `kind` field of a header, its bit 7 (R51). -/
def headerKind (h : Byte) : Kind := if h.getLsbD 7 then .run else .copy

/-- The `mag` field of a header, its bits 6:0 (R51). -/
def headerMag (h : Byte) : Nat := (h.extractLsb' 0 7).toNat

/-- The length a header of the given kind carries: `1 - sint8(hdr)` for a run (R52), `sint8(hdr) + 1` for a copy (R53). -/
def headerLength (k : Kind) (h : Byte) : Nat :=
  match k with
  | .run => (1 - sint8 h).toNat
  | .copy => (sint8 h + 1).toNat

/-- The token instruction of a kind and a length. -/
def tokenInstr : Kind → Nat → Instr
  | .run, n => .run n
  | .copy, n => .copy n

/-- The instruction a header byte stands for (R122). Every byte is a valid header (R55, R56). -/
def decodeHeader (h : Byte) : Instr := tokenInstr (headerKind h) (headerLength (headerKind h) h)

/-- Why bytes are no token. -/
inductive DecodeError where
  /-- There is no header byte: the end of the stream (R57, R121). -/
  | noHeader
deriving DecidableEq, Repr

/-- What the decoder answers. -/
inductive Decoded where
  /-- An instruction, and the bytes after its header (none for a command record). -/
  | instr (i : Instr) (rest : List Byte)
  | rejected (why : DecodeError)
deriving DecidableEq, Repr

/-- The token at the front of a stream: its header decides (R54). Whether its payload is there is no question of
decoding; executing the token asks it (R123, R124). -/
def decodeToken : List Byte → Decoded
  | [] => .rejected .noHeader
  | h :: rest => .instr (decodeHeader h) rest

/-- The instruction a command record stands for: `op` selects it (R61). -/
def decodeCommand (c : Command) : Instr :=
  if c.op = Config.opEncode then .encode c.toCallArgs else .decode c.toCallArgs

/-- Decoding of either encoding. -/
def decode : Words → Decoded
  | .bytes bs => decodeToken bs
  | .record c => .instr (decodeCommand c) []

/-! ## Encoding -/

/-- The header byte of a token of kind `k` and length `n`: `byte(1 - n)` for a run, `byte(n - 1)` for a copy
(R52, R53, R98). -/
def headerByte : Kind → Nat → Byte
  | .run, n => byte (1 - (n : Int))
  | .copy, n => byte ((n : Int) - 1)

/-- The encoding of an instruction: a token's header byte (R50), or the command record (R61). -/
def encode : Instr → Words
  | .copy n => .bytes [headerByte .copy n]
  | .run n => .bytes [headerByte .run n]
  | .encode args => .record { toCallArgs := args, op := Config.opEncode }
  | .decode args => .record { toCallArgs := args, op := Config.opDecode }

/-- The bytes of a whole token, header and payload (R62). -/
def Token.bytes : Token → List Byte
  | .run n sym => [headerByte .run n, sym]
  | .copy data => headerByte .copy data.length :: data

/-! ## The opcode table's words -/

/-- The command record of a word: bit 0 is `op`; the table gives the other fields no bits, so they are 0. -/
def commandOfWord (w : Nat) : Command :=
  { srcNull := false, srcLen := 0, dstNull := false, dstCap := 0, op := BitVec.ofNat 1 w }

/-- What the decoder reads from a word of the opcode table (log 14). A word of a whole byte or more is the front of a
token stream, its first byte the header; a word of fewer bits is the `op` field of a command record. -/
def decodeTableWord (nbits w : Nat) : Option Instr :=
  let answer := if nbits < 8 then decode (.record (commandOfWord w)) else decode (.bytes [BitVec.ofNat 8 w])
  match answer with
  | .instr i _ => some i
  | .rejected _ => none

end Sys2Proof
end

