-- ==== Sys2Proof/Machine/State.lean ====
section
/-! DEFINITION. The state of one instance of the block (R10), the host moves still to come, the reasons a step can stop,
and the state after reset. Plain data throughout. -/

namespace Sys2Proof.Machine

/-- The classifier's mode (R12). -/
inductive Mode where
  | inCopy
  | inRun
deriving DecidableEq, Repr

/-- The contents of SRC or of DST: cells by index, in the canonical form `Memory.wf` (R30). A byte not listed reads
`Config.fillByte`. -/
abbrev Memory := List Host.Cell

/-- The temporaries of R17. None survives its step with a meaning; they are held because R10 lists them (log 9). -/
structure Temps where
  /-- The header byte just fetched (DEC). -/
  h : Byte
  /-- The length of the token being executed or emitted. -/
  n : Nat
  /-- A run's symbol byte (DEC). -/
  sym : Byte
  /-- The kind of the segment being emitted (ENC). -/
  kind : Kind
  /-- The start index of the segment being emitted (ENC). -/
  s : Nat
  /-- The header byte computed (ENC). -/
  hdr : Byte
  /-- The comparator output `SRC[i] == SRC[i-1]` (ENC). -/
  eq : Bool
deriving DecidableEq, Repr

/-- How a command is presented: the open parameter `HANDSHAKE` (D1, log 5). -/
inductive Handshake where
  /-- The host calls and waits: the whole call is one step. -/
  | blocking
  /-- The host presents the record and goes on: acceptance is one step, then the engine takes one step at a time. -/
  | start
deriving DecidableEq, Repr

/-- One move of the host (R6; log 6). -/
inductive HostMove where
  /-- Present a command record (R70). -/
  | issue (hs : Handshake) (c : Command)
  /-- Put a byte into SRC (R163). -/
  | writeSrc (a : Nat) (b : Byte)
  /-- Put a byte into DST (R163). -/
  | writeDst (a : Nat) (b : Byte)
  /-- Lay the two buffers apart (`false`) or over each other (`true`) (R32). -/
  | placeBuffers (overlapping : Bool)
  /-- Read the result record (R76, R166); before any call has ended the read is a draw (R24; log 20). -/
  | readResult
  /-- Read a byte of DST (R76, R166). -/
  | readDst (a : Nat)
  /-- Read a byte of SRC, also during a call (R45). -/
  | readSrc (a : Nat)
  /-- See whether a call is in progress (R163, R166). How the end of a call is signalled is open (D1): that the host sees
  it by reading `busy`, at any time, and by no other signal, is the model's choice (log 5). -/
  | readBusy
  /-- Reset the block (R160, R161). -/
  | reset
  /-- No move: the block runs. -/
  | pass
deriving DecidableEq, Repr

/-- What a read of the host returned. -/
inductive Reading where
  | result (outputLength : Nat) (status : StatusBits)
  | byte (b : Byte)
  | busy (b : Bool)
deriving DecidableEq, Repr

/-- The whole state: the block's registers and buffers (R10), and below them the model's own fields. -/
structure State where
  /-- The command record of the call in progress (R11). -/
  cmd : Command
  /-- The classifier's mode (R12). -/
  mode : Mode
  /-- The scan index (R13). -/
  i : Nat
  /-- `seg_start`, the first byte of the open segment (R14). -/
  segStart : Nat
  /-- `out_len`, the bytes written to DST so far (R15). -/
  outLen : Nat
  /-- `rd`, the source cursor (R16). -/
  rd : Nat
  /-- The temporaries (R17). -/
  tmp : Temps
  /-- `output_length` of the result record (R18). -/
  outputLength : Nat
  /-- `status` of the result record (R18). -/
  status : StatusBits
  /-- `busy` (R21). -/
  busy : Bool
  /-- The contents of SRC (R22). -/
  src : Memory
  /-- The contents of DST (R22). -/
  dst : Memory
  /-- The model's own: DST when the call in progress was accepted (R37, R161; log 4). -/
  dstBefore : Memory
  /-- The model's own: the host has laid SRC and DST over each other (R32; log 7). -/
  overlap : Bool
  /-- The model's own: the result record holds a call's result (R24, R159; log 8). -/
  resultDefined : Bool
  /-- The model's own: what the host's last read returned (log 6). -/
  lastRead : Option Reading
  /-- The model's own: the host moves still to come, next one first (log 6). -/
  host : List HostMove
  /-- The model's own: how many free values have been drawn (R24, R161; logs 4 and 20). -/
  freeIndex : Nat
deriving DecidableEq, Repr

/-- Why the machine stops with a fault. -/
inductive Fault where
  /-- A read of SRC at an index that is not below `src_len`: no such byte exists (R30, R35). Raised by `withSrc`. Safe;
  no state that meets the invariants reaches it (log 12). -/
  | srcOutOfRange (a : Nat)
  /-- A write of DST at an index that is not below `dst_cap`: no such byte exists (R30, R36). Raised by `writeDst`. Safe;
  no state that meets the invariants reaches it (log 12). -/
  | dstOutOfRange (a : Nat)
deriving DecidableEq, Repr

/-- Why the model gives no meaning. -/
inductive Refusal where
  /-- An instruction whose arm in `exec` has no meaning yet. Raised by `exec`. Safe. -/
  | notModelled (mnemonic : String)
  /-- A call whose valid buffers overlap "is refused (given no meaning)" (R32, R159). Raised by `startCall`. Safe. -/
  | buffersOverlap
  /-- The host writes SRC or DST, or moves the buffers, during a call (R45, R159, R165). Raised by `hostStep`. Safe. -/
  | hostWriteDuringCall
  /-- The host reads the result record or DST during a call (R159, R166). Raised by `hostStep`. Safe. -/
  | hostReadDuringCall
deriving DecidableEq, Repr

/-- What a step or a meaning answers. -/
abbrev Answer := Host.Outcome State Fault Refusal

/-- The block right after reset (R24, R160): `busy` is 0. Every other register is unspecified by the spec; the values
here are the model's own (log 2), as are the buffers' first contents (log 3). -/
def State.reset : State where
  cmd := { srcNull := false, srcLen := 0, dstNull := false, dstCap := 0, op := Config.opEncode }
  mode := .inCopy
  i := 0
  segStart := 0
  outLen := 0
  rd := 0
  tmp := { h := 0#8, n := 0, sym := 0#8, kind := .copy, s := 0, hdr := 0#8, eq := false }
  outputLength := 0
  status := 0#3
  busy := false
  src := []
  dst := []
  dstBefore := []
  overlap := false
  resultDefined := false
  lastRead := none
  host := []
  freeIndex := 0

end Sys2Proof.Machine
end

