-- ==== Sys2Proof/Machine/Ops.lean ====
section
/-! DEFINITION. Shared operations: sequencing, memory, register updates, how a call starts, how it ends, and raising an
error (the block's trap entry). -/

namespace Sys2Proof.Machine

/-! ## Sequencing -/

/-- Go on from a next state; a fault or a refusal stands. -/
def andThen (x : Answer) (f : State → Answer) : Answer :=
  match x with
  | .next t => f t
  | .fault r => .fault r
  | .refused r => .refused r

/-- Go on only while the call is in progress: `raise` and `done` end it by clearing `busy`, and "the call body stops"
(R144). -/
def thenIfBusy (x : Answer) (f : State → Answer) : Answer :=
  andThen x fun t => if t.busy then f t else .next t

/-! ## Memory (R30) -/

/-- One byte of a buffer. -/
def Memory.read : Memory → Nat → Byte
  | [], _ => Config.fillByte
  | (b, v) :: rest, a => if a = b then v else Memory.read rest a

/-- A cell before the others, unless its byte is what an unlisted index reads as. -/
def Memory.consCell (a : Nat) (v : Byte) (m : Memory) : Memory :=
  if v = Config.fillByte then m else (a, v) :: m

/-- Write one byte of a buffer, keeping the canonical form. -/
def Memory.write : Memory → Nat → Byte → Memory
  | [], a, v => Memory.consCell a v []
  | (b, w) :: rest, a, v =>
    if a < b then Memory.consCell a v ((b, w) :: rest)
    else if a = b then Memory.consCell a v rest
    else (b, w) :: Memory.write rest a v

/-- The canonical form: indices strictly rising, no cell that holds what an unlisted index reads as. -/
abbrev Memory.wf (m : Memory) : Prop :=
  List.Pairwise (fun x y : Host.Cell => x.1 < y.1) m ∧ ∀ c ∈ m, c.2 ≠ Config.fillByte

/-- The `n` bytes from index `a` on: `SRC[a, a+n)` or `DST[a, a+n)` (R7). -/
def Memory.slice (m : Memory) (a n : Nat) : List Byte :=
  (List.range' a n).map m.read

/-- Write a list of bytes from index `a` on. -/
def writeBytes : List Byte → Nat → Memory → Memory
  | [], _, m => m
  | b :: bs, a, m => writeBytes bs (a + 1) (m.write a b)

/-- DST with new contents, nothing else changed. -/
def setDst (m : Memory) (s : State) : State := { s with dst := m }

/-- `SRC[a]` (R8, R35): read one byte of SRC and go on with it. -/
def withSrc (s : State) (a : Nat) (f : Byte → Answer) : Answer :=
  if a < s.cmd.srcLen then f (s.src.read a) else .fault (.srcOutOfRange a)

/-- `DST[a] <- v` (R8, R36): write one byte of DST. -/
def writeDst (a : Nat) (v : Byte) (s : State) : Answer :=
  if a < s.cmd.dstCap then .next (setDst (s.dst.write a v) s) else .fault (.dstOutOfRange a)

/-- `for k = 0 to n - 1: DST[to + k] <- v` (R123). -/
def fillDst : Nat → Nat → Byte → State → Answer
  | 0, _, _, s => .next s
  | n + 1, dest, v, s => andThen (writeDst dest v s) (fillDst n (dest + 1) v)

/-- `for k = 0 to n - 1: DST[to + k] <- SRC[from + k]` (R101, R124). -/
def copyToDst : Nat → Nat → Nat → State → Answer
  | 0, _, _, s => .next s
  | n + 1, a, dest, s =>
    withSrc s a fun b => andThen (writeDst dest b s) (copyToDst n (a + 1) (dest + 1))

/-! ## Register updates -/

/-- `h <- v` (R122). -/
def setH (v : Byte) (s : State) : State := { s with tmp := { s.tmp with h := v } }

/-- `n <- v` (R123, R124). -/
def setN (v : Nat) (s : State) : State := { s with tmp := { s.tmp with n := v } }

/-- `sym <- v` (R123). -/
def setSym (v : Byte) (s : State) : State := { s with tmp := { s.tmp with sym := v } }

/-- `eq <- v` (R87). -/
def setEq (v : Bool) (s : State) : State := { s with tmp := { s.tmp with eq := v } }

/-- `hdr <- v` (R98). -/
def setHdr (v : Byte) (s : State) : State := { s with tmp := { s.tmp with hdr := v } }

/-- The arguments of `emit(kind, s, n)` (R17, R96). -/
def setEmit (k : Kind) (a n : Nat) (s : State) : State :=
  { s with tmp := { s.tmp with kind := k, s := a, n := n } }

/-- `seg_start <- a; mode <- m` (R90, R92, R93, R94). -/
def setSegment (a : Nat) (m : Mode) (s : State) : State := { s with segStart := a, mode := m }

/-- `i <- v` (R85). -/
def setI (v : Nat) (s : State) : State := { s with i := v }

/-- `out_len <- v` (R102, R123, R124). -/
def setOutLen (v : Nat) (s : State) : State := { s with outLen := v }

/-- `rd <- v` (R123, R124). -/
def setRd (v : Nat) (s : State) : State := { s with rd := v }

/-! ## The end of a call -/

/-- Call end (R76): write the result record, clear `busy`. Nothing else changes: that the command record, which "has meaning
only while a call is in progress" (R11), and the working registers keep their values is the model's choice (log 17). -/
def endCall (st : StatusBits) (len : Nat) (s : State) : State :=
  { s with outputLength := len, status := st, busy := false, resultDefined := true }

/-- `done` (R8, R76): the call ends with success. -/
def done (s : State) : State := endCall Config.stOk s.outLen s

/-- `raise E` (R144), the block's trap entry: `status <- ST_E`, `output_length <- out_len` (0 for `INVALID_ARGUMENT`),
`busy <- 0`, and the call body stops. There is no handler, no saved register and no return (R150). -/
def raise (e : StatusBits) (s : State) : State :=
  endCall e (if e = Config.stInvalidArgument then 0 else s.outLen) s

/-! ## The start of a call -/

/-- Accepting a command (R70): latch the record, set `busy`. The result record loses its meaning (R24, D23): it is
unspecified until the call ends. That `output_length` and `status`, and every register call start does not write, keep
their values meanwhile is the model's choice (log 19). -/
def accept (c : Command) (s : State) : State :=
  { s with cmd := c, busy := true, resultDefined := false, dstBefore := s.dst }

/-- The condition of argument validation (R72). -/
def argsInvalid (a : CallArgs) : Bool :=
  a.srcNull || a.srcLen == 0 || a.dstNull || a.dstCap == 0

/-- Call start (R73): every working register the body reads is written. -/
def initCall (s : State) : State :=
  if s.cmd.op = Config.opEncode then
    { s with outLen := 0, segStart := 0, mode := .inCopy, i := 1 }
  else
    { s with outLen := 0, rd := 0 }

/-- Taking a command: accept it (R70), validate its arguments (R72), refuse overlapping buffers (R32), set the working
registers (R73). After validation has failed, or on a fault, no body runs. -/
def startCall (c : Command) (s : State) : Answer :=
  let t := accept c s
  if argsInvalid c.toCallArgs then .next (raise Config.stInvalidArgument t)
  else if t.overlap then .refused .buffersOverlap
  else .next (initCall t)

/-- Presenting a command (R70, R71): while a call is in progress it is not accepted and has no effect; else the call
starts and `body` runs it. -/
def issueCommand (c : Command) (body : State → Answer) (s : State) : Answer :=
  if s.busy then .next s else thenIfBusy (startCall c s) body

/-- Let an engine take up to `fuel` steps of the call in progress, until it ends (R74: "A model needs no fuel beyond
`src_len`"). -/
def runCall (engine : State → Answer) : Nat → State → Answer
  | 0, s => .next s
  | fuel + 1, s => if s.busy then andThen (engine s) (runCall engine fuel) else .next s

end Sys2Proof.Machine
end

