-- ==== Sys2Proof/Machine/Operands.lean ====
section
/-! DEFINITION. The operands of tokens and emissions: sizes, room and source checks, the payload bytes. -/

namespace Sys2Proof.Machine

/-- `need`, the bytes a token of kind `k` and length `n` takes in a stream: 2 for a run, `n + 1` for a copy
(R54, R96). -/
def tokenSize : Kind → Nat → Nat
  | .run, _ => 2
  | .copy, n => n + 1

/-- The room left in DST, `dst_cap - out_len` (R19). -/
def room (s : State) : Nat := s.cmd.dstCap - s.outLen

/-- The source bytes from the cursor on, `src_len - rd` (R19). -/
def remaining (s : State) : Nat := s.cmd.srcLen - s.rd

/-- The source check of a token (R123, R124): the stream ends inside the token (R58). -/
def truncated (k : Kind) (n : Nat) (s : State) : Bool := remaining s < tokenSize k n

/-- A room check (R96, R123, R124): `needed` bytes do not fit. -/
def noRoom (needed : Nat) (s : State) : Bool := room s < needed

/-- The whole input of a call, `SRC[0, src_len)`. -/
def sourceBytes (a : CallArgs) (s : State) : List Byte := s.src.slice 0 a.srcLen

end Sys2Proof.Machine
end

