-- ==== Sys2Proof/Machine/Token.lean ====
section
/-! DEFINITION. The two wire tokens `RUN` and `COPY` as the decoder executes them at the cursor `rd` (R123 to R125). -/

namespace Sys2Proof.Machine

/-- `RUN` (R123): source check, room check, then the symbol `n` times; the cursors advance. -/
def execRun (n : Nat) (s : State) : Answer :=
  let s := setN n s
  if truncated .run n s then .next (raise Config.stSrcDecodeError s)
  else if noRoom n s then .next (raise Config.stDstWriteError s)
  else
    withSrc s (s.rd + 1) fun sym =>
      andThen (fillDst n s.outLen sym (setSym sym s)) fun t =>
        .next (setRd (t.rd + 2) (setOutLen (t.outLen + n) t))

/-- `COPY` (R124): source check, room check, then the `n` payload bytes; the cursors advance. -/
def execCopy (n : Nat) (s : State) : Answer :=
  let s := setN n s
  if truncated .copy n s then .next (raise Config.stSrcDecodeError s)
  else if noRoom n s then .next (raise Config.stDstWriteError s)
  else
    andThen (copyToDst n (s.rd + 1) s.outLen s) fun t =>
      .next (setRd (t.rd + n + 1) (setOutLen (t.outLen + n) t))

end Sys2Proof.Machine
end

