-- ==== Sys2Proof/Machine/DecodeCall.lean ====
section
/-! DEFINITION. The decoder engine DEC and the `DECODE` command (R120 to R122). -/

namespace Sys2Proof.Machine

/-- End test and token fetch (R121, R122): at the end of SRC the call ends with success; else the header at `rd` is
latched and `f` gets the instruction it stands for. -/
def fetchToken (f : Instr → State → Answer) (s : State) : Answer :=
  if s.rd = s.cmd.srcLen then .next (done s)
  else withSrc s s.rd fun h => f (decodeHeader h) (setH h s)

/-- The token a header names, executed (R120). A header is never a command; DEC does nothing with one. -/
def execToken : Instr → State → Answer
  | .run n, s => execRun n s
  | .copy n, s => execCopy n s
  | .encode _, s => .next s
  | .decode _, s => .next s

/-- One turn of DEC's loop (R120). -/
def decodeTick (s : State) : Answer := fetchToken execToken s

/-- The body of a `DECODE` call (R120). -/
def decodeBody (s : State) : Answer := runCall decodeTick s.cmd.srcLen s

/-- `DECODE` (R120): a whole call, from the command to the result (R79). -/
def execDecode (a : CallArgs) (s : State) : Answer :=
  issueCommand { toCallArgs := a, op := Config.opDecode } decodeBody s

end Sys2Proof.Machine
end

