-- ==== Sys2Proof/Machine/Flags.lean ====
section
/-! DEFINITION. What plays the part of flags (R20): the comparator output `eq` and the conditions on `mode` that the
classifier tests (R87). The third, `busy`, is in Ops. The error bits are result bits (R18, R149). -/

namespace Sys2Proof.Machine

/-- `eq <- (SRC[i] == SRC[i-1])` (R87), then go on. -/
def compare (s : State) (f : State → Answer) : Answer :=
  withSrc s s.i fun cur => withSrc s (s.i - 1) fun prev => f (setEq (cur == prev) s)

/-- A run starts at byte `i - 1`: the bytes are equal and byte `i - 1` still belongs to the open segment (R90; R91 is
the other case). -/
def runStarts (s : State) : Bool := s.tmp.eq && decide (s.segStart + 1 ≤ s.i)

/-- The copy cap (R94): exactly 128 confirmed bytes. -/
def copyAtCap (s : State) : Bool := s.mode = .inCopy && s.i - s.segStart == Config.maxCopy

/-- The run cap (R93): the open run has reached 129 bytes. -/
def runAtCap (s : State) : Bool := s.mode = .inRun && (s.i + 1) - s.segStart == Config.maxRun

/-- The four values `status` takes (R149). -/
def statusOk (st : StatusBits) : Bool :=
  st == Config.stOk || st == Config.stInvalidArgument || st == Config.stDstWriteError || st == Config.stSrcDecodeError

end Sys2Proof.Machine
end

