-- ==== Sys2Proof/Machine/EncodeCall.lean ====
section
/-! DEFINITION. The encoder engine ENC and the `ENCODE` command (R85 to R102): the token header emitter, the payload
serializer, the run-length classifier, the final flush. -/

namespace Sys2Proof.Machine

/-- Header write and payload of a run (R98, R99, R100): the symbol is the segment's first byte. -/
def emitRun (a n : Nat) (s : State) : Answer :=
  let s := setHdr (headerByte .run n) s
  andThen (writeDst s.outLen s.tmp.hdr s) fun t =>
    withSrc t a fun sym => writeDst (t.outLen + 1) sym t

/-- Header write and payload of a copy (R98, R99, R101): the segment's bytes in order. -/
def emitCopy (a n : Nat) (s : State) : Answer :=
  let s := setHdr (headerByte .copy n) s
  andThen (writeDst s.outLen s.tmp.hdr s) fun t => copyToDst n a (t.outLen + 1) t

/-- The header and payload of either kind. -/
def emitBytes : Kind → Nat → Nat → State → Answer
  | .run, a, n, s => emitRun a n s
  | .copy, a, n, s => emitCopy a n s

/-- `emit(kind, s, n)` (R96 to R102): the room check for the whole token, then its bytes, then `out_len` advances. -/
def emit (k : Kind) (a n : Nat) (s : State) : Answer :=
  let s := setEmit k a n s
  if noRoom (tokenSize k n) s then .next (raise Config.stDstWriteError s)
  else
    andThen (emitBytes k a n s) fun t => .next (setOutLen (t.outLen + tokenSize k n) t)

/-- `copy→run` (R90): the open copy segment, if not empty, goes out; a run begins at byte `i - 1`. -/
def copyToRun (s : State) : Answer :=
  thenIfBusy (if s.segStart < s.i - 1 then emit .copy s.segStart (s.i - 1 - s.segStart) s else .next s) fun t =>
    .next (setSegment (t.i - 1) .inRun t)

/-- `run→copy` (R92): the run goes out; a copy segment begins at byte `i`. -/
def runToCopy (s : State) : Answer :=
  thenIfBusy (emit .run s.segStart (s.i - s.segStart) s) fun t => .next (setSegment t.i .inCopy t)

/-- The transition for the current mode (R87, R89 to R92). -/
def transition (s : State) : Answer :=
  match s.mode with
  | .inCopy => if runStarts s then copyToRun s else .next s
  | .inRun => if s.tmp.eq then .next s else runToCopy s

/-- The cap check for the mode that results (R87, R93, R94). -/
def capCheck (s : State) : Answer :=
  if copyAtCap s then
    thenIfBusy (emit .copy s.segStart Config.maxCopy s) fun t => .next (setSegment t.i .inCopy t)
  else if runAtCap s then
    thenIfBusy (emit .run s.segStart Config.maxRun s) fun t => .next (setSegment (t.i + 1) .inCopy t)
  else .next s

/-- One scan step at index `i` (R87): compare, transition, cap check. -/
def scanStep (s : State) : Answer :=
  compare s fun t => thenIfBusy (transition t) capCheck

/-- The final flush (R95): what is still open goes out, sized by what remains; then the call is done. -/
def flush (s : State) : Answer :=
  let open_ : Answer :=
    match s.mode with
    | .inRun => emit .run s.segStart (s.cmd.srcLen - s.segStart) s
    | .inCopy =>
      if s.segStart < s.cmd.srcLen then emit .copy s.segStart (s.cmd.srcLen - s.segStart) s else .next s
  thenIfBusy open_ fun t => .next (done t)

/-- One turn of ENC's loop (R85): a scan step and `i <- i + 1`, or the flush when the scan is over. -/
def encodeTick (s : State) : Answer :=
  if s.i < s.cmd.srcLen then thenIfBusy (scanStep s) fun t => .next (setI (t.i + 1) t)
  else flush s

/-- The body of an `ENCODE` call (R85). -/
def encodeBody (s : State) : Answer := runCall encodeTick s.cmd.srcLen s

/-- `ENCODE` (R85): a whole call, from the command to the result (R79). -/
def execEncode (a : CallArgs) (s : State) : Answer :=
  issueCommand { toCallArgs := a, op := Config.opEncode } encodeBody s

end Sys2Proof.Machine
end

