-- ==== Sys2Proof/Machine/Dispatch.lean ====
section
/-! DEFINITION. The meaning of every instruction: one arm per constructor. -/

namespace Sys2Proof.Machine

-- RUN and COPY are one turn of a DECODE call at the cursor; ENCODE and DECODE are a whole call.
def exec (i : Instr) (s : State) : Host.Outcome State Fault Refusal :=
  match i with
  | .copy n => Sys2Proof.Machine.execCopy n s
  | .run n => Sys2Proof.Machine.execRun n s
  | .encode args => Sys2Proof.Machine.execEncode args s
  | .decode args => Sys2Proof.Machine.execDecode args s

end Sys2Proof.Machine
end

