-- ==== Sys2Proof/Machine/HostMoves.lean ====
section
/-! DEFINITION. What one step of the whole does: the host's next move, or one turn of the engine whose call is in
progress; reset; and how an instruction is laid where the next step fetches it. -/

namespace Sys2Proof.Machine

/-- One turn of the block (R85, R120). A `DECODE` call fetches a token and runs it; an `ENCODE` call makes a scan step
or the flush; an idle block stays as it is (R158). -/
def engineStep (s : State) : Answer :=
  if s.busy then
    if s.cmd.op = Config.opEncode then encodeTick s else fetchToken exec s
  else .next s

/-- The call in progress, run to its end. -/
def finishCall (s : State) : Answer :=
  if s.cmd.op = Config.opEncode then encodeBody s else decodeBody s

/-- DST after a reset during a call (R161): each of the first `n` bytes is what the call would have written (`final`) or
what was there before (`old`), by the free choices from number `k` on; the bytes from `n` on stay. -/
def mixDst (final old : Memory) (k : Nat) : Nat → Memory
  | 0 => old
  | n + 1 => (mixDst final old k n).write n (if Config.freeChoice (k + n) then final.read n else old.read n)

/-- The registers as reset leaves them (R160): what is not the block's own state stays. -/
def resetRegisters (s : State) : State :=
  { State.reset with
    src := s.src, dst := s.dst, overlap := s.overlap, lastRead := s.lastRead, host := s.host, freeIndex := s.freeIndex }

/-- Reset (R160). During a call it abandons the call (R161): no result is written, and each byte of `DST[0, dst_cap)` is
old or final, which, is free. -/
def resetBlock (s : State) : Answer :=
  if s.busy then
    andThen (finishCall s) fun t =>
      .next
        { resetRegisters s with
          dst := mixDst t.dst s.dstBefore s.freeIndex s.cmd.dstCap, freeIndex := s.freeIndex + s.cmd.dstCap }
  else .next (resetRegisters s)

/-- A host move that touches the buffers is refused during a call (R45, R165). -/
def whenIdle (r : Refusal) (s : State) (f : State → Answer) : Answer :=
  if s.busy then .refused r else f s

/-- Presenting a command with the `start` handshake: the block takes it and the step ends (R70 to R73). -/
def beginCall (c : Command) (s : State) : Answer := issueCommand c .next s

/-- A read of the result record before any call has ended: a draw (R24; log 20). -/
def drawResult (s : State) : Answer :=
  .next
    { s with
      lastRead := some (.result (Config.freeLength s.freeIndex) (Config.freeStatus s.freeIndex))
      freeIndex := s.freeIndex + 1 }

/-- One move of the host (log 6). -/
def hostStep (m : HostMove) (s : State) : Answer :=
  match m with
  | .issue .blocking c => exec (decodeCommand c) s
  | .issue .start c => beginCall c s
  | .writeSrc a b => whenIdle .hostWriteDuringCall s fun s => .next { s with src := s.src.write a b }
  | .writeDst a b => whenIdle .hostWriteDuringCall s fun s => .next { s with dst := s.dst.write a b }
  | .placeBuffers o => whenIdle .hostWriteDuringCall s fun s => .next { s with overlap := o }
  | .readResult =>
    whenIdle .hostReadDuringCall s fun s =>
      if s.resultDefined then .next { s with lastRead := some (.result s.outputLength s.status) } else drawResult s
  | .readDst a => whenIdle .hostReadDuringCall s fun s => .next { s with lastRead := some (.byte (s.dst.read a)) }
  | .readSrc a => .next { s with lastRead := some (.byte (s.src.read a)) }
  | .readBusy => .next { s with lastRead := some (.busy s.busy) }
  | .reset => resetBlock s
  | .pass => engineStep s

/-- The longest token, in bytes (R54). -/
def longestToken : Nat := 129

/-- A token's header (with zeros for its payload) at the cursor of a `DECODE` call in progress, with the source and the
room the longest token takes. -/
def placeToken (h : Byte) (s : State) : State :=
  { s with
    busy := true
    cmd :=
      { srcNull := false, srcLen := max s.cmd.srcLen (s.rd + longestToken), dstNull := false,
        dstCap := max s.cmd.dstCap (s.outLen + longestToken), op := Config.opDecode }
    src := writeBytes (h :: List.replicate (longestToken - 1) 0#8) s.rd s.src
    host := .pass :: s.host }

/-- A command record presented to an idle block, the host waiting for its end. -/
def placeCommand (c : Command) (s : State) : State :=
  { s with busy := false, host := .issue .blocking c :: s.host }

end Sys2Proof.Machine
end

