-- ==== Sys2Proof/Machine/Step.lean ====
section
/-! DEFINITION. One step: the host's next move if there is one, else one turn of the block; and how an instruction comes
to be the next one (log 14). -/

namespace Sys2Proof.Machine

/-- One step of the block and its host. -/
def step (s : State) : Host.Outcome State Fault Refusal :=
  match s.host with
  | [] => engineStep s
  | m :: rest => hostStep m { s with host := rest }

/-- `s` with the instruction of a word of the opcode table where `step` takes its next one: a token at the cursor of a
`DECODE` call in progress, or a command presented to the idle block (log 14). -/
def State.withFetchWord (s : State) (nbits w : Nat) : State :=
  if nbits < 8 then placeCommand (commandOfWord w) s else placeToken (BitVec.ofNat 8 w) s

end Sys2Proof.Machine
end

