-- ==== Sys2Proof/Machine/ClosedForm.lean ====
section
/-! DEFINITION. The block as two functions on byte lists, as the spec gives them beside the machine: the wire grammar
(R57, R59), the decoder `dec` (R126), the segmentation `seg` (R104) and the encoder `enc` (R105). The machine of the
other files does not use them; claims hold it against them. -/

namespace Sys2Proof.Machine

/-! ## The wire grammar -/

/-- The expansion of a token (R59). -/
def tokenExpand : Token → List Byte
  | .run n sym => List.replicate n sym
  | .copy data => data

/-- The bytes of a stream of tokens, one after another (R57). -/
def streamBytes (ts : List Token) : List Byte := ts.flatMap Token.bytes

/-- The meaning of a stream: the expansions of its tokens in order (R59). -/
def streamMeaning (ts : List Token) : List Byte := ts.flatMap tokenExpand

/-- Parsing, `fuel` tokens at most. -/
def parseTokens : Nat → List Byte → Option (List Token)
  | _, [] => some []
  | 0, _ :: _ => none
  | fuel + 1, h :: rest =>
    match headerKind h, rest with
    | .run, [] => none
    | .run, sym :: more => (parseTokens fuel more).map (Token.run (headerLength .run h) sym :: ·)
    | .copy, _ =>
      if rest.length < headerLength .copy h then none
      else
        (parseTokens fuel (rest.drop (headerLength .copy h))).map
          (Token.copy (rest.take (headerLength .copy h)) :: ·)

/-- The parse of a stream (R57); none when the stream is truncated (R58). -/
def parseStream (bs : List Byte) : Option (List Token) := parseTokens bs.length bs

/-! ## The result of a call -/

/-- `(output_length, status, DST[0, output_length))`: the triple of R105 and R126. -/
structure CallResult where
  outputLength : Nat
  status : StatusBits
  output : List Byte
deriving DecidableEq, Repr

/-- The result a state holds for the host (R75). -/
def State.result (s : State) : CallResult :=
  { outputLength := s.outputLength, status := s.status, output := s.dst.slice 0 s.outputLength }

/-- A result that ends with the bytes `out` written. -/
def resultOf (st : StatusBits) (out : List Byte) : CallResult :=
  { outputLength := out.length, status := st, output := out }

/-! ## The decoder (R126) -/

/-- `go` of R126 on the rest of the source, `fuel` tokens at most. -/
def decGo (cap : Nat) : Nat → List Byte → List Byte → CallResult
  | _, [], out => resultOf Config.stOk out
  | 0, _ :: _, out => resultOf Config.stSrcDecodeError out
  | fuel + 1, h :: rest, out =>
    let n := headerLength (headerKind h) h
    if (h :: rest).length < tokenSize (headerKind h) n then resultOf Config.stSrcDecodeError out
    else if cap - out.length < n then resultOf Config.stDstWriteError out
    else
      match headerKind h with
      | .run => decGo cap fuel (rest.drop 1) (out ++ List.replicate n (rest.headD 0#8))
      | .copy => decGo cap fuel (rest.drop n) (out ++ rest.take n)

/-- `dec(SRC[0, L), C)` (R126). -/
def dec (x : List Byte) (cap : Nat) : CallResult := decGo cap x.length x []

/-! ## The encoder (R104, R105) -/

/-- `runlen` at the front of a list (R104): the longest stretch of equal bytes, up to 129. -/
def runLength : List Byte → Nat
  | [] => 0
  | b :: rest => 1 + min (Config.maxRun - 1) (rest.takeWhile (· == b)).length

/-- How many bytes stand before the first place where two equal bytes begin (`runstart`, R104); all, if there is none. -/
def beforePair : List Byte → Nat
  | [] => 0
  | [_] => 1
  | a :: b :: rest => if a = b then 0 else 1 + beforePair (b :: rest)

/-- `copylen` at the front of a list (R104): up to just before the next place where two equal bytes begin, up to 128. -/
def copyLength : List Byte → Nat
  | [] => 0
  | _ :: rest => 1 + min (Config.maxCopy - 1) (beforePair rest)

/-- `seg` of R104, `fuel` tokens at most. -/
def segTokens : Nat → List Byte → List Token
  | _, [] => []
  | 0, _ :: _ => []
  | fuel + 1, b :: rest =>
    if Config.minRun ≤ runLength (b :: rest) then
      Token.run (runLength (b :: rest)) b :: segTokens fuel ((b :: rest).drop (runLength (b :: rest)))
    else
      Token.copy ((b :: rest).take (copyLength (b :: rest))) ::
        segTokens fuel ((b :: rest).drop (copyLength (b :: rest)))

/-- `seg(0)` of R104: the tokens of an input. -/
def seg (x : List Byte) : List Token := segTokens x.length x

/-- The leading tokens whose sizes sum to at most `cap` (R103, R105). -/
def fitTokens : Nat → List Token → List Token
  | _, [] => []
  | cap, t :: ts => if t.bytes.length ≤ cap then t :: fitTokens (cap - t.bytes.length) ts else []

/-- `enc(SRC[0, L), dst_cap)` (R105). -/
def enc (x : List Byte) (cap : Nat) : CallResult :=
  if (fitTokens cap (seg x)).length = (seg x).length then resultOf Config.stOk (streamBytes (fitTokens cap (seg x)))
  else resultOf Config.stDstWriteError (streamBytes (fitTokens cap (seg x)))

/-! ## Canonical streams (R60) -/

/-- The first byte a token stands for. -/
def tokenFirst (t : Token) : Option Byte := (tokenExpand t).head?

/-- What R60 and R104 say of a token and the one after it: a COPY of fewer than 128 bytes is last or followed by a RUN;
a RUN of fewer than 129 bytes is never followed by a token whose first byte equals its symbol. -/
def followOk : Token → Token → Bool
  | .copy data, .copy _ => data.length == Config.maxCopy
  | .copy _, .run _ _ => true
  | .run n sym, t => n == Config.maxRun || tokenFirst t != some sym

/-- No two adjacent bytes are equal. -/
def noPair : List Byte → Bool
  | a :: b :: rest => a != b && noPair (b :: rest)
  | _ => true

/-- A token of a canonical stream: its length is in range, and a COPY holds no two equal adjacent bytes (R60). -/
def tokenCanonical : Token → Bool
  | .run n sym => (Token.run n sym).wf
  | .copy data => (Token.copy data).wf && noPair data

/-- A stream within R60 (b), (c), (d). -/
def canonical : List Token → Bool
  | [] => true
  | [t] => tokenCanonical t
  | t :: u :: rest => tokenCanonical t && followOk t u && canonical (u :: rest)

end Sys2Proof.Machine
end

