-- ==== Sys2Proof/Safety.lean ====
section
/-! DEFINITION. What counts as a sound state and a safe step, in the terms claims use: the invariants of R25 and R26, the
canonical form of memory, the result record's rules. -/

namespace Sys2Proof.Machine

/-- The open segment at the start of the scan step at `i` (R25, items 1, 3 and 4). -/
def ScanInv (s : State) : Prop :=
  1 ≤ s.i ∧ s.i ≤ s.cmd.srcLen ∧
  (s.mode = .inCopy →
    s.segStart ≤ s.i ∧ s.i ≤ s.segStart + Config.maxCopy ∧
    ∀ a, s.segStart ≤ a → a + 1 < s.i → s.src.read a ≠ s.src.read (a + 1)) ∧
  (s.mode = .inRun →
    s.segStart + Config.minRun ≤ s.i ∧ s.i + 1 ≤ s.segStart + Config.maxRun ∧
    ∀ a, s.segStart ≤ a → a < s.i → s.src.read a = s.src.read s.segStart)

/-- The first `n` bytes of `raw` are the meaning of the token stream in the first `m` bytes of `wire` (R25 item 2, R26). -/
def Stands (wire : Memory) (m : Nat) (raw : Memory) (n : Nat) : Prop :=
  ∃ ts : List Token, (∀ t ∈ ts, t.wf = true) ∧ streamBytes ts = wire.slice 0 m ∧ streamMeaning ts = raw.slice 0 n

/-- `after` is `before` with the bytes `bs` written from index `pos` on, and no other byte changed. -/
def WritesAt (before after : Memory) (pos : Nat) (bs : List Byte) : Prop :=
  ∀ a, after.read a = if pos ≤ a then (bs[a - pos]?).getD (before.read a) else before.read a

/-- `t` is `s` after `raise e` (R144): the result record is written, `busy` falls, the temporaries are `tmp`, and nothing
else has changed. -/
def Raised (e : StatusBits) (tmp : Temps) (s t : State) : Prop :=
  t.status = e ∧ t.outputLength = s.outLen ∧ t.busy = false ∧ t.resultDefined = true ∧ t.tmp = tmp ∧
  { t with
    status := s.status, outputLength := s.outputLength, busy := s.busy, resultDefined := s.resultDefined,
    tmp := s.tmp } = s

/-- `t` is `s` after a scan step that emits `tok` and leaves the classifier at `seg` in mode `m` (R87). The step's
temporaries aside, nothing but what is named has changed; if the token does not fit, the call has ended (R96). -/
def ScanEmits (tok : Token) (seg : Nat) (m : Mode) (s t : State) : Prop :=
  (tok.bytes.length ≤ s.cmd.dstCap - s.outLen →
    t.outLen = s.outLen + tok.bytes.length ∧ WritesAt s.dst t.dst s.outLen tok.bytes ∧
    t.segStart = seg ∧ t.mode = m ∧ t.i = s.i + 1 ∧
    { t with
      outLen := s.outLen, dst := s.dst, segStart := s.segStart, mode := s.mode, i := s.i, tmp := s.tmp } = s) ∧
  (s.cmd.dstCap - s.outLen < tok.bytes.length → Raised Config.stDstWriteError t.tmp s t)

/-- `t` is `s` after a flush that emits `tok` (R95): the call has ended, with success if the token fitted. -/
def FlushEmits (tok : Token) (s t : State) : Prop :=
  (tok.bytes.length ≤ s.cmd.dstCap - s.outLen →
    t.outLen = s.outLen + tok.bytes.length ∧ WritesAt s.dst t.dst s.outLen tok.bytes ∧
    t.status = Config.stOk ∧ t.outputLength = t.outLen ∧ t.busy = false ∧ t.resultDefined = true ∧
    { t with
      outLen := s.outLen, dst := s.dst, tmp := s.tmp, status := s.status, outputLength := s.outputLength,
      busy := s.busy, resultDefined := s.resultDefined } = s) ∧
  (s.cmd.dstCap - s.outLen < tok.bytes.length → Raised Config.stDstWriteError t.tmp s t)

/-- A command that an idle block carries out: valid arguments, buffers apart (R32, R72, R163). -/
def Ready (a : CallArgs) (s : State) : Prop :=
  s.busy = false ∧ argsInvalid a = false ∧ s.overlap = false ∧ s.dst.wf

/-- An `ENCODE` call in progress whose next step is the engine's. -/
def Scanning (s : State) : Prop :=
  s.host = [] ∧ s.busy = true ∧ s.cmd.op = Config.opEncode ∧ s.dst.wf ∧ ScanInv s

/-- A call in progress: its arguments are valid, `out_len` is within the capacity, DST beyond it is as before the call
(R37), and the engine's invariant holds (R25, R26). -/
def CallInv (s : State) : Prop :=
  argsInvalid s.cmd.toCallArgs = false ∧
  s.outLen ≤ s.cmd.dstCap ∧
  (∀ a, s.outLen ≤ a → s.dst.read a = s.dstBefore.read a) ∧
  (s.cmd.op = Config.opEncode → ScanInv s ∧ Stands s.dst s.outLen s.src s.segStart) ∧
  (s.cmd.op = Config.opDecode → s.rd ≤ s.cmd.srcLen ∧ Stands s.src s.rd s.dst s.outLen)

/-- The result record: `status` is one of its four values and `ENCODE` never leaves `SRC_DECODE_ERROR` (R149); with
`INVALID_ARGUMENT` the length is 0, and it never exceeds the capacity (R18, R36). The record and the capacity it
is held against are those of the last call; that the command record is still there is the model's choice (log 17). -/
def ResultInv (s : State) : Prop :=
  statusOk s.status = true ∧
  (s.resultDefined = true →
    s.busy = false ∧ s.outputLength ≤ s.cmd.dstCap ∧
    (s.status = Config.stInvalidArgument → s.outputLength = 0) ∧
    (s.cmd.op = Config.opEncode → s.status ≠ Config.stSrcDecodeError))

/-- The canonical form of the three memories. -/
def MemoryInv (s : State) : Prop := s.src.wf ∧ s.dst.wf ∧ s.dstBefore.wf

/-- A sound state. -/
def Inv (s : State) : Prop := MemoryInv s ∧ ResultInv s ∧ (s.busy = true → CallInv s)

/-- The block, taking `k` steps of its own from `s` (no host move between them). -/
def engineSteps : Nat → State → Answer
  | 0, s => .next s
  | k + 1, s => andThen (engineStep s) (engineSteps k)

/-- The host breaks one of its duties in the move `m`: R32, R45, R165 and R166, as R159 gathers them (log 8). -/
def BreaksDuty (m : HostMove) (s : State) : Prop :=
  match m with
  | .issue _ c => s.busy = false ∧ argsInvalid c.toCallArgs = false ∧ s.overlap = true
  | .writeSrc _ _ | .writeDst _ _ | .placeBuffers _ | .readDst _ | .readResult => s.busy = true
  | .readSrc _ | .readBusy | .reset | .pass => False

end Sys2Proof.Machine
end

