-- ==== Sys2Proof/Certificates/Slice0/Obligations.lean ====
section
/-! DEFINITION. The statements for the provers. Each docstring names the rule of the spec it formalises; one that rests on
a choice of the model, or on a decision the spec marks as its own, says so. -/

open Sys2Proof Sys2Proof.Machine

/-! ## Encodings -/

/-- R52, the length of a RUN header in all its forms, the inverse, the end points, one to one and onto. -/
def Obligations.RunHeaderCarriesLength : Prop :=
  (∀ h : Byte, h.getLsbD 7 = true →
    ∃ n, decodeHeader h = .run n ∧ 2 ≤ n ∧ n ≤ 129 ∧ (n : Int) = 1 - sint8 h ∧ n + uint8 h = 257 ∧
      n + headerMag h = 129 ∧ encode (.run n) = .bytes [h]) ∧
  (∀ n, 2 ≤ n → n ≤ 129 →
    ∃ h, encode (.run n) = .bytes [h] ∧ h = byte (1 - n) ∧ uint8 h + n = 257 ∧ h.getLsbD 7 = true ∧
      decodeHeader h = .run n) ∧
  encode (.run 2) = .bytes [0xFF#8] ∧ encode (.run 129) = .bytes [0x80#8]

/-- R53, the length of a COPY header in all its forms, the inverse, the end points, one to one and onto. -/
def Obligations.CopyHeaderCarriesLength : Prop :=
  (∀ h : Byte, h.getLsbD 7 = false →
    ∃ n, decodeHeader h = .copy n ∧ 1 ≤ n ∧ n ≤ 128 ∧ (n : Int) = sint8 h + 1 ∧ n = uint8 h + 1 ∧
      n = headerMag h + 1 ∧ encode (.copy n) = .bytes [h]) ∧
  (∀ n, 1 ≤ n → n ≤ 128 →
    ∃ h, encode (.copy n) = .bytes [h] ∧ h = byte ((n : Int) - 1) ∧ h.getLsbD 7 = false ∧
      decodeHeader h = .copy n) ∧
  encode (.copy 1) = .bytes [0x00#8] ∧ encode (.copy 128) = .bytes [0x7F#8]

/-- R55: the decoder reads every header as the spec's table of 256 entries prints it, and its kind is what the masks and
matches select. -/
def Obligations.HeaderTableIsTheSpecs : Prop :=
  headerTable.length = 256 ∧
  ∀ h : Byte,
    (headerTable[uint8 h]?).map (fun e => tokenInstr e.1 e.2) = some (decodeHeader h) ∧
    ((h &&& 0x80#8) = 0x00#8 ↔ headerKind h = .copy) ∧ ((h &&& 0x80#8) = 0x80#8 ↔ headerKind h = .run)

/-- R50, R61: decoding what the encoder writes for a well-formed instruction gives the instruction back. -/
def Obligations.DecodeUndoesEncode : Prop :=
  ∀ i : Instr, i.wf = true → decode (encode i) = .instr i []

/-- R56, R57, R61: the other direction. Every first byte of a stream, whatever follows it, is the header of one
well-formed token and of no other; every command record is one command; only the empty stream is rejected. -/
def Obligations.EveryEncodingIsOneInstruction : Prop :=
  (∀ (h : Byte) (rest : List Byte),
    ∃ i, decode (.bytes (h :: rest)) = .instr i rest ∧ i.wf = true ∧ encode i = .bytes [h] ∧
      ∀ j : Instr, j.wf = true → encode j = .bytes [h] → j = i) ∧
  (∀ c : Command, ∃ i, decode (.record c) = .instr i [] ∧ i.wf = true ∧ encode i = .record c) ∧
  (∀ bs why, decode (.bytes bs) = .rejected why ↔ bs = [] ∧ why = .noHeader)

/-- Words written out from R51 to R53 and R61 decode to the instructions they stand for. -/
def Obligations.WordsWrittenOutDecode : Prop :=
  decode (.bytes [0b10000000#8, 0x7A#8]) = .instr (.run 129) [0x7A#8] ∧
  decode (.bytes [0b11111110#8, 0x42#8]) = .instr (.run 3) [0x42#8] ∧
  decode (.bytes [0b00000101#8]) = .instr (.copy 6) [] ∧
  decode (.bytes [0b01111111#8]) = .instr (.copy 128) [] ∧
  decode (.record { srcNull := false, srcLen := 5, dstNull := false, dstCap := 7, op := 0#1 }) =
    .instr (.encode { srcNull := false, srcLen := 5, dstNull := false, dstCap := 7 }) [] ∧
  decode (.record { srcNull := true, srcLen := 5, dstNull := false, dstCap := 7, op := 1#1 }) =
    .instr (.decode { srcNull := true, srcLen := 5, dstNull := false, dstCap := 7 }) []

/-- R54: a token's size is fixed by its kind and length, is 2 to 129 bytes, and its expansion is its length. -/
def Obligations.TokenSizes : Prop :=
  ∀ t : Token, t.wf = true →
    ∃ k n, t.bytes.head? = some (headerByte k n) ∧ t.bytes.length = tokenSize k n ∧ (tokenExpand t).length = n ∧
      2 ≤ t.bytes.length ∧ t.bytes.length ≤ 129 ∧ n ≤ 129

/-- R57: the token streams are exactly the concatenations of whole tokens, and parsing is deterministic: it undoes
writing, and writing undoes it. -/
def Obligations.WireGrammarParses : Prop :=
  (∀ ts : List Token, (∀ t ∈ ts, t.wf = true) → parseStream (streamBytes ts) = some ts) ∧
  (∀ (bs : List Byte) (ts : List Token), parseStream bs = some ts → streamBytes ts = bs ∧ ∀ t ∈ ts, t.wf = true)

/-- R58: a stream is malformed exactly when it ends inside a token, at a RUN header with no symbol or a COPY header with
too few bytes after it; with room for all that precedes, the decoder reports exactly that as `SRC_DECODE_ERROR`. -/
def Obligations.TruncationIsTheOnlyMalformation : Prop :=
  ∀ bs : List Byte,
    (parseStream bs = none ↔
      ∃ (ts : List Token) (h : Byte) (tail : List Byte),
        (∀ t ∈ ts, t.wf = true) ∧ bs = streamBytes ts ++ h :: tail ∧
        (headerKind h = .run ∧ tail = [] ∨ headerKind h = .copy ∧ tail.length < headerLength .copy h)) ∧
    (∀ cap, 129 * bs.length ≤ cap → ((dec bs cap).status = Config.stSrcDecodeError ↔ parseStream bs = none))

/-! ## One step -/

/-- A step runs the decoded instruction. A command presented by a waiting host: `step` is `exec` of the command its
record decodes to, the move taken off the queue. A `DECODE` call in progress before the end of SRC, the host passing or
having no move: `step` is `exec` of the token the bytes at the cursor decode to, its header latched in `h` (R122). An idle
block with no host move stays as it is. -/
def Obligations.StepRunsDecodedInstruction : Prop :=
  (∀ (s : State) (c : Command) (rest : List HostMove) (i : Instr),
    s.host = .issue .blocking c :: rest → decode (.record c) = .instr i [] →
    step s = exec i { s with host := rest }) ∧
  (∀ (s : State) (rest : List HostMove) (i : Instr) (more : List Byte),
    s.host = .pass :: rest ∨ s.host = [] ∧ rest = [] → s.busy = true → s.cmd.op = Config.opDecode →
    s.rd < s.cmd.srcLen → decode (.bytes (s.src.slice s.rd (s.cmd.srcLen - s.rd))) = .instr i more →
    step s = exec i { s with host := rest, tmp := { s.tmp with h := s.src.read s.rd } }) ∧
  (∀ s : State, s.host = [] → s.busy = false → step s = .next s)

/-- R121: at the end of SRC the call ends with success; there is no other way to end a `DECODE` call with success; and a
successful call has written at least one byte. That the working
registers and the command record keep their values after the call is the model's choice (log 17). -/
def Obligations.StreamEndIsTheOnlySuccess : Prop :=
  (∀ s : State, s.host = [] → s.busy = true → s.cmd.op = Config.opDecode → s.rd = s.cmd.srcLen →
    step s = .next { s with
      status := Config.stOk, outputLength := s.outLen, busy := false, resultDefined := true }) ∧
  (∀ s t : State, s.host = [] → s.busy = true → s.cmd.op = Config.opDecode → step s = .next t → t.busy = false →
    t.status = Config.stOk → s.rd = s.cmd.srcLen) ∧
  (∀ (a : CallArgs) (s t : State), Ready a s → exec (.decode a) s = .next t → t.status = Config.stOk →
    1 ≤ t.outputLength)

/-! ## The call shell -/

/-- R72: any one of the four conditions ends the call with `INVALID_ARGUMENT`, whatever `op`, the buffers and the other
fields are; nothing but the record and the result changes. That `output_length` is 0 is the spec's own decision D6
(log 10); that the working registers keep their
values is the model's choice (log 19), and that the command record is still there after the call is too (log 17). -/
def Obligations.InvalidArgumentsEndTheCall : Prop :=
  ∀ (a : CallArgs) (s : State), s.busy = false →
    a.srcNull = true ∨ a.srcLen = 0 ∨ a.dstNull = true ∨ a.dstCap = 0 →
    ∀ i, i = Instr.encode a ∨ i = Instr.decode a →
      ∃ t, exec i s = .next t ∧ t.status = Config.stInvalidArgument ∧ t.outputLength = 0 ∧ t.busy = false ∧
        t.resultDefined = true ∧ t.cmd.toCallArgs = a ∧
        { t with
          cmd := s.cmd, status := s.status, outputLength := s.outputLength, resultDefined := s.resultDefined,
          dstBefore := s.dstBefore } = s

/-- R71: a command presented while a call is in progress has no effect, in either handshake (the spec's own decision
D15; that the move is then gone is the model's choice, log 15). -/
def Obligations.CommandWhileBusyHasNoEffect : Prop :=
  ∀ s : State, s.busy = true →
    (∀ a, exec (.encode a) s = .next s ∧ exec (.decode a) s = .next s) ∧
    (∀ hs c rest, s.host = .issue hs c :: rest → step s = .next { s with host := rest })

/-- R32: a valid call whose buffers overlap is refused (the spec's own decision D7; the flag is the model's, log 7). -/
def Obligations.OverlapIsRefused : Prop :=
  ∀ (a : CallArgs) (s : State), s.busy = false → argsInvalid a = false → s.overlap = true →
    exec (.encode a) s = .refused .buffersOverlap ∧ exec (.decode a) s = .refused .buffersOverlap

/-- R70, R73, R86: accepting a valid command latches its five fields, sets `busy` and every working register the body
reads; nothing else changes but the model's own record of DST and of the result's standing. That `output_length`, `status` and the
registers call start does not write keep their values is the model's choice (log 19). -/
def Obligations.CallStartSetsWorkingRegisters : Prop :=
  ∀ (c : Command) (s : State) (rest : List HostMove), Ready c.toCallArgs s → s.host = .issue .start c :: rest →
    ∃ t, step s = .next t ∧ t.cmd = c ∧ t.busy = true ∧ t.outLen = 0 ∧ t.host = rest ∧
      (c.op = Config.opEncode → t.segStart = 0 ∧ t.mode = .inCopy ∧ t.i = 1 ∧ t.rd = s.rd) ∧
      (c.op = Config.opDecode → t.rd = 0 ∧ t.segStart = s.segStart ∧ t.mode = s.mode ∧ t.i = s.i) ∧
      { t with
        cmd := s.cmd, busy := s.busy, outLen := s.outLen, segStart := s.segStart, mode := s.mode, i := s.i,
        rd := s.rd, host := s.host, resultDefined := s.resultDefined, dstBefore := s.dstBefore } = s

/-- R144: `raise E` writes the result record and clears `busy`, and nothing else of the machine changes. That
`output_length` is 0 for `INVALID_ARGUMENT` is the spec's own decision D6 (log 10); that the working registers, meaningless
afterwards by R144, keep their values is the model's choice (log 17). -/
def Obligations.RaiseWritesResultAndStops : Prop :=
  ∀ (e : StatusBits) (s : State),
    (raise e s).status = e ∧
    (e = Config.stInvalidArgument → (raise e s).outputLength = 0) ∧
    (e ≠ Config.stInvalidArgument → (raise e s).outputLength = s.outLen) ∧
    (raise e s).busy = false ∧ (raise e s).resultDefined = true ∧
    { raise e s with
      status := s.status, outputLength := s.outputLength, busy := s.busy, resultDefined := s.resultDefined } = s

/-- R149, R152: how each command can end. -/
def Obligations.CallStatusValues : Prop :=
  ∀ (a : CallArgs) (s t : State), s.busy = false →
    (exec (.encode a) s = .next t →
      t.status = Config.stOk ∨ t.status = Config.stInvalidArgument ∨ t.status = Config.stDstWriteError) ∧
    (exec (.decode a) s = .next t →
      t.status = Config.stOk ∨ t.status = Config.stInvalidArgument ∨ t.status = Config.stDstWriteError ∨
        t.status = Config.stSrcDecodeError)

/-- What a command leaves alone: SRC (R33), what belongs to the host, the other engine's registers, and every byte of DST
from `output_length` on (R37); one presented while a call is in progress leaves everything alone (R71). That nothing beyond
`output_length` is disturbed is also the spec's own decision D12. R24 calls the other engine's registers unspecified (`rd`,
`h`, `sym` for `ENCODE`; `mode`, `i`, `seg_start`, `kind`, `s`, `hdr`, `eq` for `DECODE`): that they keep their values is the
model's choice (logs 17 and 19), and that the command record is still there after the call (R11) is too (log 17). -/
def Obligations.CommandFrame : Prop :=
  ∀ (a : CallArgs) (s t : State), s.dst.wf →
    (exec (.encode a) s = .next t →
      t.src = s.src ∧ t.rd = s.rd ∧ t.tmp.h = s.tmp.h ∧ t.tmp.sym = s.tmp.sym ∧ t.overlap = s.overlap ∧
      t.lastRead = s.lastRead ∧ t.host = s.host ∧ t.freeIndex = s.freeIndex ∧ (s.busy = true → t = s) ∧
      (s.busy = false →
        t.busy = false ∧ t.cmd = { toCallArgs := a, op := Config.opEncode } ∧
        ∀ x, t.outputLength ≤ x → t.dst.read x = s.dst.read x)) ∧
    (exec (.decode a) s = .next t →
      t.src = s.src ∧ t.mode = s.mode ∧ t.i = s.i ∧ t.segStart = s.segStart ∧ t.tmp.kind = s.tmp.kind ∧
      t.tmp.s = s.tmp.s ∧ t.tmp.hdr = s.tmp.hdr ∧ t.tmp.eq = s.tmp.eq ∧ t.overlap = s.overlap ∧
      t.lastRead = s.lastRead ∧ t.host = s.host ∧ t.freeIndex = s.freeIndex ∧ (s.busy = true → t = s) ∧
      (s.busy = false →
        t.busy = false ∧ t.cmd = { toCallArgs := a, op := Config.opDecode } ∧
        ∀ x, t.outputLength ≤ x → t.dst.read x = s.dst.read x))

/-! ## The tokens -/

/-- R123: the RUN token, from its header to its effect and both its errors, with its frame. -/
def Obligations.RunTokenExecutes : Prop :=
  (∀ h : Byte, h.getLsbD 7 = true → decodeHeader h = .run (257 - uint8 h)) ∧
  ∀ (n : Nat) (s : State), s.dst.wf →
    (s.cmd.srcLen - s.rd < 2 →
      ∃ t, exec (.run n) s = .next t ∧ Raised Config.stSrcDecodeError { s.tmp with n := n } s t) ∧
    (2 ≤ s.cmd.srcLen - s.rd → s.cmd.dstCap - s.outLen < n →
      ∃ t, exec (.run n) s = .next t ∧ Raised Config.stDstWriteError { s.tmp with n := n } s t) ∧
    (2 ≤ s.cmd.srcLen - s.rd → n ≤ s.cmd.dstCap - s.outLen →
      ∃ t, exec (.run n) s = .next t ∧ t.outLen = s.outLen + n ∧ t.rd = s.rd + 2 ∧
        WritesAt s.dst t.dst s.outLen (List.replicate n (s.src.read (s.rd + 1))) ∧
        t.tmp = { s.tmp with n := n, sym := s.src.read (s.rd + 1) } ∧
        { t with outLen := s.outLen, rd := s.rd, dst := s.dst, tmp := s.tmp } = s)

/-- R124: the COPY token, from its header to its effect and both its errors, with its frame. -/
def Obligations.CopyTokenExecutes : Prop :=
  (∀ h : Byte, h.getLsbD 7 = false → decodeHeader h = .copy (uint8 h + 1)) ∧
  ∀ (n : Nat) (s : State), s.dst.wf →
    (s.cmd.srcLen - s.rd < n + 1 →
      ∃ t, exec (.copy n) s = .next t ∧ Raised Config.stSrcDecodeError { s.tmp with n := n } s t) ∧
    (n + 1 ≤ s.cmd.srcLen - s.rd → s.cmd.dstCap - s.outLen < n →
      ∃ t, exec (.copy n) s = .next t ∧ Raised Config.stDstWriteError { s.tmp with n := n } s t) ∧
    (n + 1 ≤ s.cmd.srcLen - s.rd → n ≤ s.cmd.dstCap - s.outLen →
      ∃ t, exec (.copy n) s = .next t ∧ t.outLen = s.outLen + n ∧ t.rd = s.rd + n + 1 ∧
        WritesAt s.dst t.dst s.outLen (s.src.slice (s.rd + 1) n) ∧ t.tmp = { s.tmp with n := n } ∧
        { t with outLen := s.outLen, rd := s.rd, dst := s.dst, tmp := s.tmp } = s)

/-- R125, R147: a token that is both truncated and too large for the room reports `SRC_DECODE_ERROR`. -/
def Obligations.SourceCheckComesFirst : Prop :=
  ∀ (n : Nat) (s : State), noRoom n s = true →
    (truncated .run n s = true →
      ∃ t, exec (.run n) s = .next t ∧ t.status = Config.stSrcDecodeError ∧ t.busy = false ∧ t.dst = s.dst) ∧
    (truncated .copy n s = true →
      ∃ t, exec (.copy n) s = .next t ∧ t.status = Config.stSrcDecodeError ∧ t.busy = false ∧ t.dst = s.dst)

/-! ## The encoder, step by step -/

/-- R96 and R98 to R102: an emission writes the whole token, header first, and advances `out_len` past it; or, when the
whole token does not fit, ends the call with `DST_WRITE_ERROR` and writes nothing. -/
def Obligations.EmitWritesWholeTokenOrNothing : Prop :=
  ∀ (k : Kind) (a n : Nat) (s : State), s.dst.wf → 1 ≤ n → a + n ≤ s.cmd.srcLen →
    let need := match k with | .run => 2 | .copy => n + 1
    let hdr := match k with | .run => byte (1 - n) | .copy => byte ((n : Int) - 1)
    let payload := match k with | .run => [s.src.read a] | .copy => s.src.slice a n
    (s.cmd.dstCap - s.outLen < need →
      ∃ t, emit k a n s = .next t ∧ Raised Config.stDstWriteError { s.tmp with kind := k, s := a, n := n } s t) ∧
    (need ≤ s.cmd.dstCap - s.outLen →
      ∃ t, emit k a n s = .next t ∧ t.outLen = s.outLen + need ∧ WritesAt s.dst t.dst s.outLen (hdr :: payload) ∧
        t.tmp = { s.tmp with kind := k, s := a, n := n, hdr := hdr } ∧
        { t with outLen := s.outLen, dst := s.dst, tmp := s.tmp } = s)

/-- R89, R91: in `InCopy` with the cap not reached, a step that sees different bytes, or sees equal bytes of which the
first is already in a token, only moves on. R91 rests on the spec's own decision D10. -/
def Obligations.ScanKeepsCopySegment : Prop :=
  ∀ s : State, Scanning s → s.i < s.cmd.srcLen → s.mode = .inCopy →
    (s.src.read s.i ≠ s.src.read (s.i - 1) → s.i - s.segStart < 128 →
      step s = .next { s with i := s.i + 1, tmp := { s.tmp with eq := false } }) ∧
    (s.src.read s.i = s.src.read (s.i - 1) → s.segStart = s.i →
      step s = .next { s with i := s.i + 1, tmp := { s.tmp with eq := true } })

/-- R90, `copy→run`: the copy segment before byte `i - 1`, if not empty, is emitted; a run begins at `i - 1`. -/
def Obligations.ScanCopyToRun : Prop :=
  ∀ s : State, Scanning s → s.i < s.cmd.srcLen → s.mode = .inCopy → s.src.read s.i = s.src.read (s.i - 1) →
    (s.segStart = s.i - 1 →
      step s = .next { s with mode := .inRun, i := s.i + 1, tmp := { s.tmp with eq := true } }) ∧
    (s.segStart < s.i - 1 →
      ∃ t, step s = .next t ∧
        ScanEmits (.copy (s.src.slice s.segStart (s.i - 1 - s.segStart))) (s.i - 1) .inRun s t)

/-- R92, `run→copy`: the run is emitted, a copy segment begins at byte `i`; while the bytes stay equal and the cap is not
reached, the run only grows. -/
def Obligations.ScanRunToCopy : Prop :=
  ∀ s : State, Scanning s → s.i < s.cmd.srcLen → s.mode = .inRun →
    (s.src.read s.i ≠ s.src.read (s.i - 1) →
      ∃ t, step s = .next t ∧ ScanEmits (.run (s.i - s.segStart) (s.src.read s.segStart)) s.i .inCopy s t) ∧
    (s.src.read s.i = s.src.read (s.i - 1) → s.i + 1 - s.segStart < 129 →
      step s = .next { s with i := s.i + 1, tmp := { s.tmp with eq := true } })

/-- R93, R94, the caps: a run of 129 bytes goes out at once and the classifier restarts after it; 128 confirmed copy
bytes go out at once and the segment restarts at byte `i`. The restart points rest on the spec's own decisions D9 to
D11. -/
def Obligations.ScanCutsAtTheCaps : Prop :=
  ∀ s : State, Scanning s → s.i < s.cmd.srcLen →
    (s.mode = .inRun → s.src.read s.i = s.src.read (s.i - 1) → s.i + 1 - s.segStart = 129 →
      ∃ t, step s = .next t ∧ ScanEmits (.run 129 (s.src.read s.segStart)) (s.i + 1) .inCopy s t) ∧
    (s.mode = .inCopy → s.src.read s.i ≠ s.src.read (s.i - 1) → s.i - s.segStart = 128 →
      ∃ t, step s = .next t ∧ ScanEmits (.copy (s.src.slice s.segStart 128)) s.i .inCopy s t)

/-- R95, the final flush: what is still open goes out, sized by what remains, and the call is done; nothing open, nothing
emitted. -/
def Obligations.FlushEndsTheCall : Prop :=
  ∀ s : State, Scanning s → s.i = s.cmd.srcLen →
    (s.mode = .inRun →
      ∃ t, step s = .next t ∧
        FlushEmits (.run (s.cmd.srcLen - s.segStart) (s.src.read s.segStart)) s t) ∧
    (s.mode = .inCopy → s.segStart < s.cmd.srcLen →
      ∃ t, step s = .next t ∧
        FlushEmits (.copy (s.src.slice s.segStart (s.cmd.srcLen - s.segStart))) s t) ∧
    (s.mode = .inCopy → s.segStart = s.cmd.srcLen →
      step s = .next { s with
        status := Config.stOk, outputLength := s.outLen, busy := false, resultDefined := true })

/-! ## The commands as functions -/

/-- R105: `ENCODE` of a ready call completes, and its result is `enc` of the source and the capacity; DST beyond
`output_length` is as before. The token boundaries at the caps rest on the spec's own decisions D8 to D11. -/
def Obligations.EncodeComputesEnc : Prop :=
  ∀ (a : CallArgs) (s : State), Ready a s →
    ∃ t, exec (.encode a) s = .next t ∧ t.busy = false ∧ t.resultDefined = true ∧
      t.result = enc (sourceBytes a s) a.dstCap ∧ ∀ x, t.outputLength ≤ x → t.dst.read x = s.dst.read x

/-- R126: `DECODE` of a ready call completes, and its result is `dec` of the source and the capacity; DST beyond
`output_length` is as before. -/
def Obligations.DecodeComputesDec : Prop :=
  ∀ (a : CallArgs) (s : State), Ready a s →
    ∃ t, exec (.decode a) s = .next t ∧ t.busy = false ∧ t.resultDefined = true ∧
      t.result = dec (sourceBytes a s) a.dstCap ∧ ∀ x, t.outputLength ≤ x → t.dst.read x = s.dst.read x

/-- R103: the capacity only decides where the sequence of tokens is cut: all of it, or up to the first token that does
not fit. -/
def Obligations.EncodeCutsAtFirstMisfit : Prop :=
  ∀ (a : CallArgs) (s : State), Ready a s →
    ∃ t, exec (.encode a) s = .next t ∧
      ((streamBytes (seg (sourceBytes a s))).length ≤ a.dstCap →
        t.result = resultOf Config.stOk (streamBytes (seg (sourceBytes a s)))) ∧
      (a.dstCap < (streamBytes (seg (sourceBytes a s))).length →
        ∃ k, k < (seg (sourceBytes a s)).length ∧
          (streamBytes ((seg (sourceBytes a s)).take k)).length ≤ a.dstCap ∧
          a.dstCap < (streamBytes ((seg (sourceBytes a s)).take (k + 1))).length ∧
          t.result = resultOf Config.stDstWriteError (streamBytes ((seg (sourceBytes a s)).take k)))

/-- R104: the segment taken at a boundary is the longest run of equal bytes, up to 129; if that is one byte, the longest
copy that stops before the next pair, up to 128. -/
def Obligations.SegmentLengthsAreLargest : Prop :=
  ∀ (b : Byte) (rest : List Byte),
    let x := b :: rest
    let r := runLength x
    let c := copyLength x
    (1 ≤ r ∧ r ≤ min 129 x.length ∧ (∀ k, k < r → x[k]? = some b) ∧ (r < min 129 x.length → x[r]? ≠ some b)) ∧
    (1 ≤ c ∧ c ≤ min 128 x.length ∧ (∀ q, 0 < q → q < c → q + 1 < x.length → x[q]? ≠ x[q + 1]?) ∧
      (c < min 128 x.length → c + 1 < x.length ∧ x[c]? = x[c + 1]?)) ∧
    seg x = if 2 ≤ r then .run r b :: seg (x.drop r) else .copy (x.take c) :: seg (x.drop c)

/-- R60, R104: the encoder's tokens partition the input, and their stream is canonical. -/
def Obligations.EncoderStreamsAreCanonical : Prop :=
  ∀ x : List Byte, streamMeaning (seg x) = x ∧ canonical (seg x) = true ∧ (seg x = [] ↔ x = [])

/-- R106: an `ENCODE` into one byte fails at its first emission with nothing written; the smallest destination any can
succeed into is two bytes, by an input of one byte or of 2 to 129 equal bytes. -/
def Obligations.SmallestDestination : Prop :=
  ∀ (a : CallArgs) (s : State), Ready a s →
    (a.dstCap = 1 →
      ∃ t, exec (.encode a) s = .next t ∧ t.status = Config.stDstWriteError ∧ t.outputLength = 0 ∧ t.dst = s.dst) ∧
    (a.dstCap = 2 →
      ∃ t, exec (.encode a) s = .next t ∧
        (t.status = Config.stOk ↔
          a.srcLen = 1 ∨ 2 ≤ a.srcLen ∧ a.srcLen ≤ 129 ∧ ∀ k, k < a.srcLen → s.src.read k = s.src.read 0))

/-- R93: a physical run of `129 q + r` equal bytes is `q` runs of 129, then a run of `r`, or a copy of the one byte left
over. (The left-over byte is the source's own 130-byte example; the rest is the spec's own decision D10.) -/
def Obligations.EqualBytesSplitAtTheRunCap : Prop :=
  ∀ (q r : Nat) (b : Byte), r < 129 →
    seg (List.replicate (129 * q + r) b) =
      List.replicate q (.run 129 b) ++ (if r = 0 then [] else if r = 1 then [.copy [b]] else [.run r b])

/-- R108: the output size, its bounds, and that both are reached; so the bound as capacity always suffices. -/
def Obligations.OutputSizeBounds : Prop :=
  (∀ x : List Byte, x ≠ [] →
    2 * ((x.length + 128) / 129) ≤ (streamBytes (seg x)).length ∧
    (streamBytes (seg x)).length ≤ (4 * x.length + 2) / 3) ∧
  (∀ L, 1 ≤ L →
    (∃ x : List Byte, x.length = L ∧ (streamBytes (seg x)).length = 2 * ((L + 128) / 129)) ∧
    (∃ x : List Byte, x.length = L ∧ (streamBytes (seg x)).length = (4 * L + 2) / 3)) ∧
  (∀ (a : CallArgs) (s : State), Ready a s → (4 * a.srcLen + 2) / 3 ≤ a.dstCap →
    ∃ t, exec (.encode a) s = .next t ∧ t.status = Config.stOk)

/-- R109: the encoder does not look for the shortest stream. -/
def Obligations.EncoderIsNotMinimal : Prop :=
  ∀ a b c : Byte, a ≠ b → b ≠ c →
    seg [a, b, b, c] = [.copy [a], .run 2 b, .copy [c]] ∧
    (streamBytes (seg [a, b, b, c])).length = 6 ∧
    streamMeaning [.copy [a, b, b, c]] = [a, b, b, c] ∧ (streamBytes [.copy [a, b, b, c]]).length = 5

/-- R107, the round trip, on the machine: if `ENCODE` ends with `OK`, then `DECODE` of what it wrote, in any state, into
any destination of at least the input's length, ends with `OK` and writes exactly the input. -/
def Obligations.RoundTrip : Prop :=
  ∀ (a : CallArgs) (s t : State), Ready a s → exec (.encode a) s = .next t → t.status = Config.stOk →
    ∀ (b : CallArgs) (u : State), Ready b u → b.srcLen = t.outputLength → a.srcLen ≤ b.dstCap →
      sourceBytes b u = t.result.output →
      ∃ v, exec (.decode b) u = .next v ∧ v.result = resultOf Config.stOk (sourceBytes a s)

/-- R59, R128: `DECODE` of any well-formed stream, canonical or not, with room for its meaning, writes its meaning. -/
def Obligations.WellFormedStreamsDecode : Prop :=
  ∀ (a : CallArgs) (s : State) (ts : List Token), Ready a s → (∀ t ∈ ts, t.wf = true) →
    sourceBytes a s = streamBytes ts → (streamMeaning ts).length ≤ a.dstCap →
    ∃ t, exec (.decode a) s = .next t ∧ t.result = resultOf Config.stOk (streamMeaning ts)

/-- R127, R147: the first token that fails ends the call, with exactly the expansions before it written: by a truncated
token, `SRC_DECODE_ERROR`; by a whole token that does not fit, `DST_WRITE_ERROR`, whatever follows it. -/
def Obligations.DecodeStopsAtFirstBadToken : Prop :=
  ∀ (a : CallArgs) (s : State) (ts : List Token) (h : Byte) (tail : List Byte),
    Ready a s → (∀ t ∈ ts, t.wf = true) → sourceBytes a s = streamBytes ts ++ h :: tail →
    (streamMeaning ts).length ≤ a.dstCap →
    (tail.length + 1 < tokenSize (headerKind h) (headerLength (headerKind h) h) →
      ∃ t, exec (.decode a) s = .next t ∧ t.result = resultOf Config.stSrcDecodeError (streamMeaning ts)) ∧
    (tokenSize (headerKind h) (headerLength (headerKind h) h) ≤ tail.length + 1 →
      a.dstCap < (streamMeaning ts).length + headerLength (headerKind h) h →
      ∃ t, exec (.decode a) s = .next t ∧ t.result = resultOf Config.stDstWriteError (streamMeaning ts))

/-- R129: the size of a successful `DECODE`, and that one byte is never a stream. -/
def Obligations.DecodeSizeBounds : Prop :=
  (∀ (x : List Byte) (cap : Nat), x ≠ [] → (dec x cap).status = Config.stOk →
    2 ≤ x.length ∧ (x.length + 1) / 2 ≤ (dec x cap).outputLength ∧
    (x.length % 2 = 0 → (dec x cap).outputLength ≤ 129 * (x.length / 2)) ∧
    (x.length % 2 = 1 → (dec x cap).outputLength ≤ 129 * ((x.length - 3) / 2) + 2)) ∧
  (∀ (b : Byte) (cap : Nat), dec [b] cap = resultOf Config.stSrcDecodeError [])

/-! ## The whole machine -/

/-- R24, R160: after reset the block is idle and no result stands; the state is sound. (The other registers' values at
reset are the model's choice, log 2; nothing here rests on them but that they are sound.) -/
def Obligations.ResetIsSound : Prop :=
  State.reset.busy = false ∧ State.reset.resultDefined = false ∧ Inv State.reset

/-- Every step keeps a sound state sound (R25, R26, R37, R149): the classifier's and the decoder's invariants, what has
been written stands for what has been read, the result record's rules, the canonical form of memory. What it says of
an idle block holds the result record against the command record, which the model keeps after a call (log 17). -/
def Obligations.StepKeepsInv : Prop :=
  ∀ s t : State, Inv s → step s = .next t → Inv t

/-- R35, R36: from a sound state no step reads SRC at or past `src_len` or writes DST at or past `dst_cap`. -/
def Obligations.SoundStepNeverFaults : Prop :=
  ∀ (s : State) (r : Fault), Inv s → step s ≠ .fault r

/-- R32, R45, R165, R166, which R159 gathers: the model refuses a step exactly when the host breaks one of these duties.
That each is a refusal, a move of the buffers during a call (R165) among them, is the model's choice (log 8). R159's last
situation, a read of the result record before any call has ended, is a draw, the other treatment R24 allows (log 20). -/
def Obligations.RefusalsAreHostBreaches : Prop :=
  ∀ s : State, (∃ r, step s = .refused r) ↔ ∃ m rest, s.host = m :: rest ∧ BreaksDuty m s

/-- R74: a call in progress always ends, within `src_len` turns of the engine. -/
def Obligations.CallEndsWithinSourceLength : Prop :=
  ∀ s : State, Inv s → s.busy = true →
    ∃ t, engineSteps s.cmd.srcLen s = .next t ∧ t.busy = false ∧ t.resultDefined = true

/-- The two handshakes agree: a call taken in one step and a call taken turn by turn end in the same state. No rule
depends on the handshake, an open parameter of the spec (D1); that both are offered is the model's choice (log 5). The two
states agree in every register, also in those of which the spec says nothing after a call (log 17). -/
def Obligations.HandshakesAgree : Prop :=
  ∀ (s : State) (c : Command), s.busy = false → argsInvalid c.toCallArgs = true ∨ s.overlap = false →
    ∃ t u, step { s with host := [.issue .blocking c] } = .next t ∧ t.busy = false ∧
      step { s with host := [.issue .start c] } = .next u ∧ engineSteps c.srcLen u = .next t

/-- R34, R78: the result depends on the command record and the source bytes alone, not on what DST held, on earlier
calls, or on any register. -/
def Obligations.ResultDependsOnlyOnInputs : Prop :=
  ∀ (a : CallArgs) (s u : State) (i : Instr), i = .encode a ∨ i = .decode a →
    s.busy = false → u.busy = false → s.overlap = false → u.overlap = false → s.dst.wf → u.dst.wf →
    sourceBytes a s = sourceBytes a u →
    ∃ t v, exec i s = .next t ∧ exec i u = .next v ∧ t.result = v.result

/-- R33: no step but the host's own write changes SRC. -/
def Obligations.SourceIsNeverWritten : Prop :=
  ∀ s t : State, step s = .next t → (∀ a b, s.host.head? ≠ some (.writeSrc a b)) → t.src = s.src

/-- R76: while no command is presented and no reset comes, an idle block's result record stays (for how long it stays is
the spec's own decision D23). -/
def Obligations.ResultRecordStays : Prop :=
  ∀ s t : State, s.busy = false → (∀ hs c, s.host.head? ≠ some (.issue hs c)) → s.host.head? ≠ some .reset →
    step s = .next t →
    t.outputLength = s.outputLength ∧ t.status = s.status ∧ t.resultDefined = s.resultDefined ∧ t.busy = false

/-- R45, R76, R166: after the end of a call the host reads the result record, and reads DST while the block is idle; it
reads SRC and `busy` at any time; reading changes nothing of the block. That these are host moves, and that `busy` is read,
is the model's choice (logs 5 and 6). R24: before any call has ended a read of the result record returns some value, which
one is free (a draw; that a reset after a call counts as such is the model's choice, log 20). -/
def Obligations.HostReads : Prop :=
  ∀ (s : State) (rest : List HostMove),
    (s.busy = false → s.resultDefined = true → s.host = .readResult :: rest →
      step s = .next { s with host := rest, lastRead := some (.result s.outputLength s.status) }) ∧
    (s.busy = false → s.resultDefined = false → s.host = .readResult :: rest →
      ∃ len st, step s = .next
        { s with host := rest, lastRead := some (.result len st), freeIndex := s.freeIndex + 1 }) ∧
    (∀ a, s.busy = false → s.host = .readDst a :: rest →
      step s = .next { s with host := rest, lastRead := some (.byte (s.dst.read a)) }) ∧
    (∀ a, s.host = .readSrc a :: rest →
      step s = .next { s with host := rest, lastRead := some (.byte (s.src.read a)) }) ∧
    (s.host = .readBusy :: rest → step s = .next { s with host := rest, lastRead := some (.busy s.busy) })

/-- R160: reset leaves the block idle with no result standing, and does not touch the buffers. -/
def Obligations.ResetWhileIdle : Prop :=
  ∀ (s : State) (rest : List HostMove), s.busy = false → s.host = .reset :: rest →
    ∃ t, step s = .next t ∧ t.busy = false ∧ t.resultDefined = false ∧ t.src = s.src ∧ t.dst = s.dst ∧
      t.host = rest ∧ t.overlap = s.overlap

/-- R161: reset during a call abandons it. No result is written, the block is idle, SRC is untouched, and each byte of
`DST[0, dst_cap)` is what it was before the call or what the call would have written; which, is a free value of the model
(log 4), and this holds whatever it is. Every other byte of DST is as before the call. -/
def Obligations.ResetDuringCall : Prop :=
  ∀ (s : State) (rest : List HostMove), Inv s → s.busy = true → s.host = .reset :: rest →
    ∃ t u, step s = .next t ∧ finishCall { s with host := rest } = .next u ∧ u.busy = false ∧
      t.busy = false ∧ t.resultDefined = false ∧ t.src = s.src ∧ t.host = rest ∧
      ∀ x, (x < s.cmd.dstCap → t.dst.read x = s.dstBefore.read x ∨ t.dst.read x = u.dst.read x) ∧
        (s.cmd.dstCap ≤ x → t.dst.read x = s.dstBefore.read x)
end

