-- ==== Sys2Proof/Laws/Memory.lean ====
section
/-! SUPPORT. Memory: read after write, the canonical form and that writing keeps it, slices. -/

namespace Sys2Proof.Machine

@[simp] theorem Memory.read_nil (a : Nat) : Memory.read [] a = Config.fillByte := rfl

@[simp] theorem Memory.wf_nil : Memory.wf [] := by simp [Memory.wf]

theorem Memory.read_cons (b : Nat) (v : Byte) (m : Memory) (a : Nat) :
    Memory.read ((b, v) :: m) a = if a = b then v else Memory.read m a := rfl

theorem Memory.wf_cons {b : Nat} {v : Byte} {m : Memory} :
    Memory.wf ((b, v) :: m) ↔ (∀ c ∈ m, b < c.1) ∧ v ≠ Config.fillByte ∧ Memory.wf m := by
  simp only [Memory.wf, List.pairwise_cons, List.mem_cons, forall_eq_or_imp]
  tauto

/-- Below its first cell a canonical memory reads as unlisted. -/
theorem Memory.read_of_lt {m : Memory} {a : Nat} (h : ∀ c ∈ m, a < c.1) : m.read a = Config.fillByte := by
  induction m with
  | nil => rfl
  | cons c rest ih =>
    have hc : a ≠ c.1 := Nat.ne_of_lt (h c (by simp))
    rw [show c :: rest = (c.1, c.2) :: rest from rfl, Memory.read_cons, if_neg hc]
    exact ih fun d hd => h d (by simp [hd])

theorem Memory.read_consCell {a : Nat} {v : Byte} {m : Memory} (h : ∀ c ∈ m, a < c.1) (x : Nat) :
    (Memory.consCell a v m).read x = if x = a then v else m.read x := by
  unfold Memory.consCell
  split
  · next hv =>
    split
    · next hx => subst hx hv; exact Memory.read_of_lt h
    · rfl
  · rfl

theorem Memory.consCell_wf {a : Nat} {v : Byte} {m : Memory} (h : ∀ c ∈ m, a < c.1) (hm : m.wf) :
    (Memory.consCell a v m).wf := by
  unfold Memory.consCell
  split
  · exact hm
  · next hv => exact Memory.wf_cons.2 ⟨h, hv, hm⟩

theorem Memory.mem_consCell {a : Nat} {v : Byte} {m : Memory} {c : Host.Cell} (h : c ∈ Memory.consCell a v m) :
    c.1 = a ∨ c ∈ m := by
  unfold Memory.consCell at h
  split at h
  · exact .inr h
  · rcases List.mem_cons.1 h with rfl | h
    · exact .inl rfl
    · exact .inr h

theorem Memory.mem_write {m : Memory} {a : Nat} {v : Byte} {c : Host.Cell} (h : c ∈ m.write a v) :
    c.1 = a ∨ c ∈ m := by
  induction m with
  | nil => exact Memory.mem_consCell h
  | cons d rest ih =>
    obtain ⟨b, w⟩ := d
    simp only [Memory.write] at h
    split at h
    · exact Memory.mem_consCell h
    · split at h
      · exact (Memory.mem_consCell h).imp_right (List.mem_cons_of_mem _)
      · rcases List.mem_cons.1 h with rfl | h
        · exact .inr (by simp)
        · exact (ih h).imp_right (List.mem_cons_of_mem _)

/-- Writing keeps the canonical form. -/
theorem Memory.write_wf {m : Memory} (hm : m.wf) (a : Nat) (v : Byte) : (m.write a v).wf := by
  induction m with
  | nil => exact Memory.consCell_wf (by simp) hm
  | cons d rest ih =>
    obtain ⟨b, w⟩ := d
    obtain ⟨hlt, hw, hrest⟩ := Memory.wf_cons.1 hm
    simp only [Memory.write]
    split
    · next hab =>
      exact Memory.consCell_wf (by
        intro c hc
        rcases List.mem_cons.1 hc with rfl | hc
        · exact hab
        · exact Nat.lt_trans hab (hlt c hc)) hm
    · split
      · next hab => subst hab; exact Memory.consCell_wf hlt hrest
      · next h1 h2 =>
        refine Memory.wf_cons.2 ⟨fun c hc => ?_, hw, ih hrest⟩
        rcases Memory.mem_write hc with hc | hc
        · omega
        · exact hlt c hc

/-- Reading after a write: the byte written at its index, every other byte as before. -/
theorem Memory.read_write {m : Memory} (hm : m.wf) (a : Nat) (v : Byte) (x : Nat) :
    (m.write a v).read x = if x = a then v else m.read x := by
  induction m with
  | nil => exact Memory.read_consCell (by simp) x
  | cons d rest ih =>
    obtain ⟨b, w⟩ := d
    obtain ⟨hlt, -, hrest⟩ := Memory.wf_cons.1 hm
    simp only [Memory.write]
    split
    · next hab =>
      exact Memory.read_consCell (by
        intro c hc
        rcases List.mem_cons.1 hc with rfl | hc
        · exact hab
        · exact Nat.lt_trans hab (hlt c hc)) x
    · split
      · next hab =>
        subst hab
        rw [Memory.read_consCell hlt, Memory.read_cons]
        split <;> rfl
      · next h1 h2 =>
        rw [Memory.read_cons, Memory.read_cons, ih hrest]
        by_cases hx : x = b
        · subst hx
          simp [show x ≠ a by omega]
        · simp [hx]

@[simp] theorem Memory.read_write_same {m : Memory} (hm : m.wf) (a : Nat) (v : Byte) : (m.write a v).read a = v := by
  simp [Memory.read_write hm]

theorem Memory.read_write_other {m : Memory} (hm : m.wf) {a x : Nat} (v : Byte) (h : x ≠ a) :
    (m.write a v).read x = m.read x := by
  simp [Memory.read_write hm, h]

/-- The first cell of a canonical memory reads as its byte, and is no fill byte. -/
theorem Memory.read_head_ne {b : Nat} {v : Byte} {m : Memory} (h : Memory.wf ((b, v) :: m)) :
    Memory.read ((b, v) :: m) b ≠ Config.fillByte := by
  rw [Memory.read_cons, if_pos rfl]
  exact (Memory.wf_cons.1 h).2.1

/-- Equal reads, equal memories: the canonical form is unique. -/
theorem Memory.ext_of_wf {m k : Memory} (hm : m.wf) (hk : k.wf) (h : ∀ a, m.read a = k.read a) : m = k := by
  induction m generalizing k with
  | nil =>
    match k with
    | [] => rfl
    | (b, v) :: rest => exact absurd (h b).symm (Memory.read_head_ne hk)
  | cons d rest ih =>
    obtain ⟨a, v⟩ := d
    match k with
    | [] => exact absurd (h a) (Memory.read_head_ne hm)
    | (b, w) :: rest' =>
      obtain ⟨hlt, hv, hrest⟩ := Memory.wf_cons.1 hm
      obtain ⟨hlt', hw, hrest'⟩ := Memory.wf_cons.1 hk
      have hab : a = b := by
        rcases Nat.lt_trichotomy a b with hab | hab | hab
        · refine absurd (h a) ?_
          rw [Memory.read_cons, if_pos rfl, Memory.read_of_lt (m := (b, w) :: rest') (a := a) (by
            intro c hc
            rcases List.mem_cons.1 hc with rfl | hc
            · exact hab
            · exact Nat.lt_trans hab (hlt' c hc))]
          exact hv
        · exact hab
        · refine absurd (h b) ?_
          rw [Memory.read_cons (a := b) (b := b), if_pos rfl, Memory.read_of_lt (m := (a, v) :: rest) (a := b) (by
            intro c hc
            rcases List.mem_cons.1 hc with rfl | hc
            · exact hab
            · exact Nat.lt_trans hab (hlt c hc))]
          exact fun e => hw e.symm
      subst hab
      have hvw : v = w := by simpa [Memory.read_cons] using h a
      subst hvw
      congr 1
      refine ih hrest hrest' fun x => ?_
      by_cases hx : x = a
      · subst hx
        rw [Memory.read_of_lt hlt, Memory.read_of_lt hlt']
      · simpa [Memory.read_cons, hx] using h x

/-! ## Slices -/

@[simp] theorem Memory.slice_length (m : Memory) (a n : Nat) : (m.slice a n).length = n := by
  simp [Memory.slice]

@[simp] theorem Memory.slice_zero (m : Memory) (a : Nat) : m.slice a 0 = [] := rfl

theorem Memory.slice_succ (m : Memory) (a n : Nat) : m.slice a (n + 1) = m.read a :: m.slice (a + 1) n := by
  simp [Memory.slice, List.range'_succ]

theorem Memory.slice_add (m : Memory) (a n k : Nat) : m.slice a (n + k) = m.slice a n ++ m.slice (a + n) k := by
  simp only [Memory.slice, ← List.map_append]
  rw [← List.range'_append_1]

theorem Memory.getElem?_slice (m : Memory) (a n k : Nat) (h : k < n) : (m.slice a n)[k]? = some (m.read (a + k)) := by
  simp [Memory.slice, h]

theorem Memory.slice_congr {m k : Memory} {a n : Nat} (h : ∀ x, a ≤ x → x < a + n → m.read x = k.read x) :
    m.slice a n = k.slice a n := by
  unfold Memory.slice
  refine List.map_congr_left fun x hx => ?_
  rw [List.mem_range'_1] at hx
  exact h x hx.1 hx.2

theorem Memory.slice_drop (m : Memory) (a n k : Nat) (h : k ≤ n) : (m.slice a n).drop k = m.slice (a + k) (n - k) := by
  obtain ⟨j, rfl⟩ := Nat.exists_eq_add_of_le h
  rw [Memory.slice_add, List.drop_append_of_le_length (by simp)]
  simp

theorem Memory.slice_take (m : Memory) (a n k : Nat) (h : k ≤ n) : (m.slice a n).take k = m.slice a k := by
  obtain ⟨j, rfl⟩ := Nat.exists_eq_add_of_le h
  rw [Memory.slice_add, List.take_append_of_le_length (by simp)]
  simp

end Sys2Proof.Machine
end

