-- ==== Sys2Proof/Laws/State.lean ====
section
/-! SUPPORT. One lemma per field per register update, so that no proof unfolds a record update. -/

namespace Sys2Proof.Machine

/-! ## setH -/

@[simp] theorem setH_cmd (v : Byte) (s : State) : (setH v s).cmd = s.cmd := rfl
@[simp] theorem setH_mode (v : Byte) (s : State) : (setH v s).mode = s.mode := rfl
@[simp] theorem setH_i (v : Byte) (s : State) : (setH v s).i = s.i := rfl
@[simp] theorem setH_segStart (v : Byte) (s : State) : (setH v s).segStart = s.segStart := rfl
@[simp] theorem setH_outLen (v : Byte) (s : State) : (setH v s).outLen = s.outLen := rfl
@[simp] theorem setH_rd (v : Byte) (s : State) : (setH v s).rd = s.rd := rfl
@[simp] theorem setH_tmp (v : Byte) (s : State) : (setH v s).tmp = { s.tmp with h := v } := rfl
@[simp] theorem setH_outputLength (v : Byte) (s : State) : (setH v s).outputLength = s.outputLength := rfl
@[simp] theorem setH_status (v : Byte) (s : State) : (setH v s).status = s.status := rfl
@[simp] theorem setH_busy (v : Byte) (s : State) : (setH v s).busy = s.busy := rfl
@[simp] theorem setH_src (v : Byte) (s : State) : (setH v s).src = s.src := rfl
@[simp] theorem setH_dst (v : Byte) (s : State) : (setH v s).dst = s.dst := rfl
@[simp] theorem setH_dstBefore (v : Byte) (s : State) : (setH v s).dstBefore = s.dstBefore := rfl
@[simp] theorem setH_overlap (v : Byte) (s : State) : (setH v s).overlap = s.overlap := rfl
@[simp] theorem setH_resultDefined (v : Byte) (s : State) : (setH v s).resultDefined = s.resultDefined := rfl
@[simp] theorem setH_lastRead (v : Byte) (s : State) : (setH v s).lastRead = s.lastRead := rfl
@[simp] theorem setH_host (v : Byte) (s : State) : (setH v s).host = s.host := rfl
@[simp] theorem setH_freeIndex (v : Byte) (s : State) : (setH v s).freeIndex = s.freeIndex := rfl

/-! ## setN -/

@[simp] theorem setN_cmd (v : Nat) (s : State) : (setN v s).cmd = s.cmd := rfl
@[simp] theorem setN_mode (v : Nat) (s : State) : (setN v s).mode = s.mode := rfl
@[simp] theorem setN_i (v : Nat) (s : State) : (setN v s).i = s.i := rfl
@[simp] theorem setN_segStart (v : Nat) (s : State) : (setN v s).segStart = s.segStart := rfl
@[simp] theorem setN_outLen (v : Nat) (s : State) : (setN v s).outLen = s.outLen := rfl
@[simp] theorem setN_rd (v : Nat) (s : State) : (setN v s).rd = s.rd := rfl
@[simp] theorem setN_tmp (v : Nat) (s : State) : (setN v s).tmp = { s.tmp with n := v } := rfl
@[simp] theorem setN_outputLength (v : Nat) (s : State) : (setN v s).outputLength = s.outputLength := rfl
@[simp] theorem setN_status (v : Nat) (s : State) : (setN v s).status = s.status := rfl
@[simp] theorem setN_busy (v : Nat) (s : State) : (setN v s).busy = s.busy := rfl
@[simp] theorem setN_src (v : Nat) (s : State) : (setN v s).src = s.src := rfl
@[simp] theorem setN_dst (v : Nat) (s : State) : (setN v s).dst = s.dst := rfl
@[simp] theorem setN_dstBefore (v : Nat) (s : State) : (setN v s).dstBefore = s.dstBefore := rfl
@[simp] theorem setN_overlap (v : Nat) (s : State) : (setN v s).overlap = s.overlap := rfl
@[simp] theorem setN_resultDefined (v : Nat) (s : State) : (setN v s).resultDefined = s.resultDefined := rfl
@[simp] theorem setN_lastRead (v : Nat) (s : State) : (setN v s).lastRead = s.lastRead := rfl
@[simp] theorem setN_host (v : Nat) (s : State) : (setN v s).host = s.host := rfl
@[simp] theorem setN_freeIndex (v : Nat) (s : State) : (setN v s).freeIndex = s.freeIndex := rfl

/-! ## setSym -/

@[simp] theorem setSym_cmd (v : Byte) (s : State) : (setSym v s).cmd = s.cmd := rfl
@[simp] theorem setSym_mode (v : Byte) (s : State) : (setSym v s).mode = s.mode := rfl
@[simp] theorem setSym_i (v : Byte) (s : State) : (setSym v s).i = s.i := rfl
@[simp] theorem setSym_segStart (v : Byte) (s : State) : (setSym v s).segStart = s.segStart := rfl
@[simp] theorem setSym_outLen (v : Byte) (s : State) : (setSym v s).outLen = s.outLen := rfl
@[simp] theorem setSym_rd (v : Byte) (s : State) : (setSym v s).rd = s.rd := rfl
@[simp] theorem setSym_tmp (v : Byte) (s : State) : (setSym v s).tmp = { s.tmp with sym := v } := rfl
@[simp] theorem setSym_outputLength (v : Byte) (s : State) : (setSym v s).outputLength = s.outputLength := rfl
@[simp] theorem setSym_status (v : Byte) (s : State) : (setSym v s).status = s.status := rfl
@[simp] theorem setSym_busy (v : Byte) (s : State) : (setSym v s).busy = s.busy := rfl
@[simp] theorem setSym_src (v : Byte) (s : State) : (setSym v s).src = s.src := rfl
@[simp] theorem setSym_dst (v : Byte) (s : State) : (setSym v s).dst = s.dst := rfl
@[simp] theorem setSym_dstBefore (v : Byte) (s : State) : (setSym v s).dstBefore = s.dstBefore := rfl
@[simp] theorem setSym_overlap (v : Byte) (s : State) : (setSym v s).overlap = s.overlap := rfl
@[simp] theorem setSym_resultDefined (v : Byte) (s : State) : (setSym v s).resultDefined = s.resultDefined := rfl
@[simp] theorem setSym_lastRead (v : Byte) (s : State) : (setSym v s).lastRead = s.lastRead := rfl
@[simp] theorem setSym_host (v : Byte) (s : State) : (setSym v s).host = s.host := rfl
@[simp] theorem setSym_freeIndex (v : Byte) (s : State) : (setSym v s).freeIndex = s.freeIndex := rfl

/-! ## setEq -/

@[simp] theorem setEq_cmd (v : Bool) (s : State) : (setEq v s).cmd = s.cmd := rfl
@[simp] theorem setEq_mode (v : Bool) (s : State) : (setEq v s).mode = s.mode := rfl
@[simp] theorem setEq_i (v : Bool) (s : State) : (setEq v s).i = s.i := rfl
@[simp] theorem setEq_segStart (v : Bool) (s : State) : (setEq v s).segStart = s.segStart := rfl
@[simp] theorem setEq_outLen (v : Bool) (s : State) : (setEq v s).outLen = s.outLen := rfl
@[simp] theorem setEq_rd (v : Bool) (s : State) : (setEq v s).rd = s.rd := rfl
@[simp] theorem setEq_tmp (v : Bool) (s : State) : (setEq v s).tmp = { s.tmp with eq := v } := rfl
@[simp] theorem setEq_outputLength (v : Bool) (s : State) : (setEq v s).outputLength = s.outputLength := rfl
@[simp] theorem setEq_status (v : Bool) (s : State) : (setEq v s).status = s.status := rfl
@[simp] theorem setEq_busy (v : Bool) (s : State) : (setEq v s).busy = s.busy := rfl
@[simp] theorem setEq_src (v : Bool) (s : State) : (setEq v s).src = s.src := rfl
@[simp] theorem setEq_dst (v : Bool) (s : State) : (setEq v s).dst = s.dst := rfl
@[simp] theorem setEq_dstBefore (v : Bool) (s : State) : (setEq v s).dstBefore = s.dstBefore := rfl
@[simp] theorem setEq_overlap (v : Bool) (s : State) : (setEq v s).overlap = s.overlap := rfl
@[simp] theorem setEq_resultDefined (v : Bool) (s : State) : (setEq v s).resultDefined = s.resultDefined := rfl
@[simp] theorem setEq_lastRead (v : Bool) (s : State) : (setEq v s).lastRead = s.lastRead := rfl
@[simp] theorem setEq_host (v : Bool) (s : State) : (setEq v s).host = s.host := rfl
@[simp] theorem setEq_freeIndex (v : Bool) (s : State) : (setEq v s).freeIndex = s.freeIndex := rfl

/-! ## setHdr -/

@[simp] theorem setHdr_cmd (v : Byte) (s : State) : (setHdr v s).cmd = s.cmd := rfl
@[simp] theorem setHdr_mode (v : Byte) (s : State) : (setHdr v s).mode = s.mode := rfl
@[simp] theorem setHdr_i (v : Byte) (s : State) : (setHdr v s).i = s.i := rfl
@[simp] theorem setHdr_segStart (v : Byte) (s : State) : (setHdr v s).segStart = s.segStart := rfl
@[simp] theorem setHdr_outLen (v : Byte) (s : State) : (setHdr v s).outLen = s.outLen := rfl
@[simp] theorem setHdr_rd (v : Byte) (s : State) : (setHdr v s).rd = s.rd := rfl
@[simp] theorem setHdr_tmp (v : Byte) (s : State) : (setHdr v s).tmp = { s.tmp with hdr := v } := rfl
@[simp] theorem setHdr_outputLength (v : Byte) (s : State) : (setHdr v s).outputLength = s.outputLength := rfl
@[simp] theorem setHdr_status (v : Byte) (s : State) : (setHdr v s).status = s.status := rfl
@[simp] theorem setHdr_busy (v : Byte) (s : State) : (setHdr v s).busy = s.busy := rfl
@[simp] theorem setHdr_src (v : Byte) (s : State) : (setHdr v s).src = s.src := rfl
@[simp] theorem setHdr_dst (v : Byte) (s : State) : (setHdr v s).dst = s.dst := rfl
@[simp] theorem setHdr_dstBefore (v : Byte) (s : State) : (setHdr v s).dstBefore = s.dstBefore := rfl
@[simp] theorem setHdr_overlap (v : Byte) (s : State) : (setHdr v s).overlap = s.overlap := rfl
@[simp] theorem setHdr_resultDefined (v : Byte) (s : State) : (setHdr v s).resultDefined = s.resultDefined := rfl
@[simp] theorem setHdr_lastRead (v : Byte) (s : State) : (setHdr v s).lastRead = s.lastRead := rfl
@[simp] theorem setHdr_host (v : Byte) (s : State) : (setHdr v s).host = s.host := rfl
@[simp] theorem setHdr_freeIndex (v : Byte) (s : State) : (setHdr v s).freeIndex = s.freeIndex := rfl

/-! ## setEmit -/

@[simp] theorem setEmit_cmd (k : Kind) (a n : Nat) (s : State) : (setEmit k a n s).cmd = s.cmd := rfl
@[simp] theorem setEmit_mode (k : Kind) (a n : Nat) (s : State) : (setEmit k a n s).mode = s.mode := rfl
@[simp] theorem setEmit_i (k : Kind) (a n : Nat) (s : State) : (setEmit k a n s).i = s.i := rfl
@[simp] theorem setEmit_segStart (k : Kind) (a n : Nat) (s : State) : (setEmit k a n s).segStart = s.segStart := rfl
@[simp] theorem setEmit_outLen (k : Kind) (a n : Nat) (s : State) : (setEmit k a n s).outLen = s.outLen := rfl
@[simp] theorem setEmit_rd (k : Kind) (a n : Nat) (s : State) : (setEmit k a n s).rd = s.rd := rfl
@[simp] theorem setEmit_tmp (k : Kind) (a n : Nat) (s : State) : (setEmit k a n s).tmp = { s.tmp with kind := k, s := a, n := n } := rfl
@[simp] theorem setEmit_outputLength (k : Kind) (a n : Nat) (s : State) : (setEmit k a n s).outputLength = s.outputLength := rfl
@[simp] theorem setEmit_status (k : Kind) (a n : Nat) (s : State) : (setEmit k a n s).status = s.status := rfl
@[simp] theorem setEmit_busy (k : Kind) (a n : Nat) (s : State) : (setEmit k a n s).busy = s.busy := rfl
@[simp] theorem setEmit_src (k : Kind) (a n : Nat) (s : State) : (setEmit k a n s).src = s.src := rfl
@[simp] theorem setEmit_dst (k : Kind) (a n : Nat) (s : State) : (setEmit k a n s).dst = s.dst := rfl
@[simp] theorem setEmit_dstBefore (k : Kind) (a n : Nat) (s : State) : (setEmit k a n s).dstBefore = s.dstBefore := rfl
@[simp] theorem setEmit_overlap (k : Kind) (a n : Nat) (s : State) : (setEmit k a n s).overlap = s.overlap := rfl
@[simp] theorem setEmit_resultDefined (k : Kind) (a n : Nat) (s : State) : (setEmit k a n s).resultDefined = s.resultDefined := rfl
@[simp] theorem setEmit_lastRead (k : Kind) (a n : Nat) (s : State) : (setEmit k a n s).lastRead = s.lastRead := rfl
@[simp] theorem setEmit_host (k : Kind) (a n : Nat) (s : State) : (setEmit k a n s).host = s.host := rfl
@[simp] theorem setEmit_freeIndex (k : Kind) (a n : Nat) (s : State) : (setEmit k a n s).freeIndex = s.freeIndex := rfl

/-! ## setSegment -/

@[simp] theorem setSegment_cmd (a : Nat) (m : Mode) (s : State) : (setSegment a m s).cmd = s.cmd := rfl
@[simp] theorem setSegment_mode (a : Nat) (m : Mode) (s : State) : (setSegment a m s).mode = m := rfl
@[simp] theorem setSegment_i (a : Nat) (m : Mode) (s : State) : (setSegment a m s).i = s.i := rfl
@[simp] theorem setSegment_segStart (a : Nat) (m : Mode) (s : State) : (setSegment a m s).segStart = a := rfl
@[simp] theorem setSegment_outLen (a : Nat) (m : Mode) (s : State) : (setSegment a m s).outLen = s.outLen := rfl
@[simp] theorem setSegment_rd (a : Nat) (m : Mode) (s : State) : (setSegment a m s).rd = s.rd := rfl
@[simp] theorem setSegment_tmp (a : Nat) (m : Mode) (s : State) : (setSegment a m s).tmp = s.tmp := rfl
@[simp] theorem setSegment_outputLength (a : Nat) (m : Mode) (s : State) : (setSegment a m s).outputLength = s.outputLength := rfl
@[simp] theorem setSegment_status (a : Nat) (m : Mode) (s : State) : (setSegment a m s).status = s.status := rfl
@[simp] theorem setSegment_busy (a : Nat) (m : Mode) (s : State) : (setSegment a m s).busy = s.busy := rfl
@[simp] theorem setSegment_src (a : Nat) (m : Mode) (s : State) : (setSegment a m s).src = s.src := rfl
@[simp] theorem setSegment_dst (a : Nat) (m : Mode) (s : State) : (setSegment a m s).dst = s.dst := rfl
@[simp] theorem setSegment_dstBefore (a : Nat) (m : Mode) (s : State) : (setSegment a m s).dstBefore = s.dstBefore := rfl
@[simp] theorem setSegment_overlap (a : Nat) (m : Mode) (s : State) : (setSegment a m s).overlap = s.overlap := rfl
@[simp] theorem setSegment_resultDefined (a : Nat) (m : Mode) (s : State) : (setSegment a m s).resultDefined = s.resultDefined := rfl
@[simp] theorem setSegment_lastRead (a : Nat) (m : Mode) (s : State) : (setSegment a m s).lastRead = s.lastRead := rfl
@[simp] theorem setSegment_host (a : Nat) (m : Mode) (s : State) : (setSegment a m s).host = s.host := rfl
@[simp] theorem setSegment_freeIndex (a : Nat) (m : Mode) (s : State) : (setSegment a m s).freeIndex = s.freeIndex := rfl

/-! ## setI -/

@[simp] theorem setI_cmd (v : Nat) (s : State) : (setI v s).cmd = s.cmd := rfl
@[simp] theorem setI_mode (v : Nat) (s : State) : (setI v s).mode = s.mode := rfl
@[simp] theorem setI_i (v : Nat) (s : State) : (setI v s).i = v := rfl
@[simp] theorem setI_segStart (v : Nat) (s : State) : (setI v s).segStart = s.segStart := rfl
@[simp] theorem setI_outLen (v : Nat) (s : State) : (setI v s).outLen = s.outLen := rfl
@[simp] theorem setI_rd (v : Nat) (s : State) : (setI v s).rd = s.rd := rfl
@[simp] theorem setI_tmp (v : Nat) (s : State) : (setI v s).tmp = s.tmp := rfl
@[simp] theorem setI_outputLength (v : Nat) (s : State) : (setI v s).outputLength = s.outputLength := rfl
@[simp] theorem setI_status (v : Nat) (s : State) : (setI v s).status = s.status := rfl
@[simp] theorem setI_busy (v : Nat) (s : State) : (setI v s).busy = s.busy := rfl
@[simp] theorem setI_src (v : Nat) (s : State) : (setI v s).src = s.src := rfl
@[simp] theorem setI_dst (v : Nat) (s : State) : (setI v s).dst = s.dst := rfl
@[simp] theorem setI_dstBefore (v : Nat) (s : State) : (setI v s).dstBefore = s.dstBefore := rfl
@[simp] theorem setI_overlap (v : Nat) (s : State) : (setI v s).overlap = s.overlap := rfl
@[simp] theorem setI_resultDefined (v : Nat) (s : State) : (setI v s).resultDefined = s.resultDefined := rfl
@[simp] theorem setI_lastRead (v : Nat) (s : State) : (setI v s).lastRead = s.lastRead := rfl
@[simp] theorem setI_host (v : Nat) (s : State) : (setI v s).host = s.host := rfl
@[simp] theorem setI_freeIndex (v : Nat) (s : State) : (setI v s).freeIndex = s.freeIndex := rfl

/-! ## setOutLen -/

@[simp] theorem setOutLen_cmd (v : Nat) (s : State) : (setOutLen v s).cmd = s.cmd := rfl
@[simp] theorem setOutLen_mode (v : Nat) (s : State) : (setOutLen v s).mode = s.mode := rfl
@[simp] theorem setOutLen_i (v : Nat) (s : State) : (setOutLen v s).i = s.i := rfl
@[simp] theorem setOutLen_segStart (v : Nat) (s : State) : (setOutLen v s).segStart = s.segStart := rfl
@[simp] theorem setOutLen_outLen (v : Nat) (s : State) : (setOutLen v s).outLen = v := rfl
@[simp] theorem setOutLen_rd (v : Nat) (s : State) : (setOutLen v s).rd = s.rd := rfl
@[simp] theorem setOutLen_tmp (v : Nat) (s : State) : (setOutLen v s).tmp = s.tmp := rfl
@[simp] theorem setOutLen_outputLength (v : Nat) (s : State) : (setOutLen v s).outputLength = s.outputLength := rfl
@[simp] theorem setOutLen_status (v : Nat) (s : State) : (setOutLen v s).status = s.status := rfl
@[simp] theorem setOutLen_busy (v : Nat) (s : State) : (setOutLen v s).busy = s.busy := rfl
@[simp] theorem setOutLen_src (v : Nat) (s : State) : (setOutLen v s).src = s.src := rfl
@[simp] theorem setOutLen_dst (v : Nat) (s : State) : (setOutLen v s).dst = s.dst := rfl
@[simp] theorem setOutLen_dstBefore (v : Nat) (s : State) : (setOutLen v s).dstBefore = s.dstBefore := rfl
@[simp] theorem setOutLen_overlap (v : Nat) (s : State) : (setOutLen v s).overlap = s.overlap := rfl
@[simp] theorem setOutLen_resultDefined (v : Nat) (s : State) : (setOutLen v s).resultDefined = s.resultDefined := rfl
@[simp] theorem setOutLen_lastRead (v : Nat) (s : State) : (setOutLen v s).lastRead = s.lastRead := rfl
@[simp] theorem setOutLen_host (v : Nat) (s : State) : (setOutLen v s).host = s.host := rfl
@[simp] theorem setOutLen_freeIndex (v : Nat) (s : State) : (setOutLen v s).freeIndex = s.freeIndex := rfl

/-! ## setRd -/

@[simp] theorem setRd_cmd (v : Nat) (s : State) : (setRd v s).cmd = s.cmd := rfl
@[simp] theorem setRd_mode (v : Nat) (s : State) : (setRd v s).mode = s.mode := rfl
@[simp] theorem setRd_i (v : Nat) (s : State) : (setRd v s).i = s.i := rfl
@[simp] theorem setRd_segStart (v : Nat) (s : State) : (setRd v s).segStart = s.segStart := rfl
@[simp] theorem setRd_outLen (v : Nat) (s : State) : (setRd v s).outLen = s.outLen := rfl
@[simp] theorem setRd_rd (v : Nat) (s : State) : (setRd v s).rd = v := rfl
@[simp] theorem setRd_tmp (v : Nat) (s : State) : (setRd v s).tmp = s.tmp := rfl
@[simp] theorem setRd_outputLength (v : Nat) (s : State) : (setRd v s).outputLength = s.outputLength := rfl
@[simp] theorem setRd_status (v : Nat) (s : State) : (setRd v s).status = s.status := rfl
@[simp] theorem setRd_busy (v : Nat) (s : State) : (setRd v s).busy = s.busy := rfl
@[simp] theorem setRd_src (v : Nat) (s : State) : (setRd v s).src = s.src := rfl
@[simp] theorem setRd_dst (v : Nat) (s : State) : (setRd v s).dst = s.dst := rfl
@[simp] theorem setRd_dstBefore (v : Nat) (s : State) : (setRd v s).dstBefore = s.dstBefore := rfl
@[simp] theorem setRd_overlap (v : Nat) (s : State) : (setRd v s).overlap = s.overlap := rfl
@[simp] theorem setRd_resultDefined (v : Nat) (s : State) : (setRd v s).resultDefined = s.resultDefined := rfl
@[simp] theorem setRd_lastRead (v : Nat) (s : State) : (setRd v s).lastRead = s.lastRead := rfl
@[simp] theorem setRd_host (v : Nat) (s : State) : (setRd v s).host = s.host := rfl
@[simp] theorem setRd_freeIndex (v : Nat) (s : State) : (setRd v s).freeIndex = s.freeIndex := rfl

/-! ## endCall -/

@[simp] theorem endCall_cmd (st : StatusBits) (len : Nat) (s : State) : (endCall st len s).cmd = s.cmd := rfl
@[simp] theorem endCall_mode (st : StatusBits) (len : Nat) (s : State) : (endCall st len s).mode = s.mode := rfl
@[simp] theorem endCall_i (st : StatusBits) (len : Nat) (s : State) : (endCall st len s).i = s.i := rfl
@[simp] theorem endCall_segStart (st : StatusBits) (len : Nat) (s : State) : (endCall st len s).segStart = s.segStart := rfl
@[simp] theorem endCall_outLen (st : StatusBits) (len : Nat) (s : State) : (endCall st len s).outLen = s.outLen := rfl
@[simp] theorem endCall_rd (st : StatusBits) (len : Nat) (s : State) : (endCall st len s).rd = s.rd := rfl
@[simp] theorem endCall_tmp (st : StatusBits) (len : Nat) (s : State) : (endCall st len s).tmp = s.tmp := rfl
@[simp] theorem endCall_outputLength (st : StatusBits) (len : Nat) (s : State) : (endCall st len s).outputLength = len := rfl
@[simp] theorem endCall_status (st : StatusBits) (len : Nat) (s : State) : (endCall st len s).status = st := rfl
@[simp] theorem endCall_busy (st : StatusBits) (len : Nat) (s : State) : (endCall st len s).busy = false := rfl
@[simp] theorem endCall_src (st : StatusBits) (len : Nat) (s : State) : (endCall st len s).src = s.src := rfl
@[simp] theorem endCall_dst (st : StatusBits) (len : Nat) (s : State) : (endCall st len s).dst = s.dst := rfl
@[simp] theorem endCall_dstBefore (st : StatusBits) (len : Nat) (s : State) : (endCall st len s).dstBefore = s.dstBefore := rfl
@[simp] theorem endCall_overlap (st : StatusBits) (len : Nat) (s : State) : (endCall st len s).overlap = s.overlap := rfl
@[simp] theorem endCall_resultDefined (st : StatusBits) (len : Nat) (s : State) : (endCall st len s).resultDefined = true := rfl
@[simp] theorem endCall_lastRead (st : StatusBits) (len : Nat) (s : State) : (endCall st len s).lastRead = s.lastRead := rfl
@[simp] theorem endCall_host (st : StatusBits) (len : Nat) (s : State) : (endCall st len s).host = s.host := rfl
@[simp] theorem endCall_freeIndex (st : StatusBits) (len : Nat) (s : State) : (endCall st len s).freeIndex = s.freeIndex := rfl

/-! ## done -/

@[simp] theorem done_cmd (s : State) : (done s).cmd = s.cmd := rfl
@[simp] theorem done_mode (s : State) : (done s).mode = s.mode := rfl
@[simp] theorem done_i (s : State) : (done s).i = s.i := rfl
@[simp] theorem done_segStart (s : State) : (done s).segStart = s.segStart := rfl
@[simp] theorem done_outLen (s : State) : (done s).outLen = s.outLen := rfl
@[simp] theorem done_rd (s : State) : (done s).rd = s.rd := rfl
@[simp] theorem done_tmp (s : State) : (done s).tmp = s.tmp := rfl
@[simp] theorem done_outputLength (s : State) : (done s).outputLength = s.outLen := rfl
@[simp] theorem done_status (s : State) : (done s).status = Config.stOk := rfl
@[simp] theorem done_busy (s : State) : (done s).busy = false := rfl
@[simp] theorem done_src (s : State) : (done s).src = s.src := rfl
@[simp] theorem done_dst (s : State) : (done s).dst = s.dst := rfl
@[simp] theorem done_dstBefore (s : State) : (done s).dstBefore = s.dstBefore := rfl
@[simp] theorem done_overlap (s : State) : (done s).overlap = s.overlap := rfl
@[simp] theorem done_resultDefined (s : State) : (done s).resultDefined = true := rfl
@[simp] theorem done_lastRead (s : State) : (done s).lastRead = s.lastRead := rfl
@[simp] theorem done_host (s : State) : (done s).host = s.host := rfl
@[simp] theorem done_freeIndex (s : State) : (done s).freeIndex = s.freeIndex := rfl

/-! ## raise -/

@[simp] theorem raise_cmd (e : StatusBits) (s : State) : (raise e s).cmd = s.cmd := rfl
@[simp] theorem raise_mode (e : StatusBits) (s : State) : (raise e s).mode = s.mode := rfl
@[simp] theorem raise_i (e : StatusBits) (s : State) : (raise e s).i = s.i := rfl
@[simp] theorem raise_segStart (e : StatusBits) (s : State) : (raise e s).segStart = s.segStart := rfl
@[simp] theorem raise_outLen (e : StatusBits) (s : State) : (raise e s).outLen = s.outLen := rfl
@[simp] theorem raise_rd (e : StatusBits) (s : State) : (raise e s).rd = s.rd := rfl
@[simp] theorem raise_tmp (e : StatusBits) (s : State) : (raise e s).tmp = s.tmp := rfl
@[simp] theorem raise_outputLength (e : StatusBits) (s : State) : (raise e s).outputLength = if e = Config.stInvalidArgument then 0 else s.outLen := rfl
@[simp] theorem raise_status (e : StatusBits) (s : State) : (raise e s).status = e := rfl
@[simp] theorem raise_busy (e : StatusBits) (s : State) : (raise e s).busy = false := rfl
@[simp] theorem raise_src (e : StatusBits) (s : State) : (raise e s).src = s.src := rfl
@[simp] theorem raise_dst (e : StatusBits) (s : State) : (raise e s).dst = s.dst := rfl
@[simp] theorem raise_dstBefore (e : StatusBits) (s : State) : (raise e s).dstBefore = s.dstBefore := rfl
@[simp] theorem raise_overlap (e : StatusBits) (s : State) : (raise e s).overlap = s.overlap := rfl
@[simp] theorem raise_resultDefined (e : StatusBits) (s : State) : (raise e s).resultDefined = true := rfl
@[simp] theorem raise_lastRead (e : StatusBits) (s : State) : (raise e s).lastRead = s.lastRead := rfl
@[simp] theorem raise_host (e : StatusBits) (s : State) : (raise e s).host = s.host := rfl
@[simp] theorem raise_freeIndex (e : StatusBits) (s : State) : (raise e s).freeIndex = s.freeIndex := rfl

/-! ## accept -/

@[simp] theorem accept_cmd (c : Command) (s : State) : (accept c s).cmd = c := rfl
@[simp] theorem accept_mode (c : Command) (s : State) : (accept c s).mode = s.mode := rfl
@[simp] theorem accept_i (c : Command) (s : State) : (accept c s).i = s.i := rfl
@[simp] theorem accept_segStart (c : Command) (s : State) : (accept c s).segStart = s.segStart := rfl
@[simp] theorem accept_outLen (c : Command) (s : State) : (accept c s).outLen = s.outLen := rfl
@[simp] theorem accept_rd (c : Command) (s : State) : (accept c s).rd = s.rd := rfl
@[simp] theorem accept_tmp (c : Command) (s : State) : (accept c s).tmp = s.tmp := rfl
@[simp] theorem accept_outputLength (c : Command) (s : State) : (accept c s).outputLength = s.outputLength := rfl
@[simp] theorem accept_status (c : Command) (s : State) : (accept c s).status = s.status := rfl
@[simp] theorem accept_busy (c : Command) (s : State) : (accept c s).busy = true := rfl
@[simp] theorem accept_src (c : Command) (s : State) : (accept c s).src = s.src := rfl
@[simp] theorem accept_dst (c : Command) (s : State) : (accept c s).dst = s.dst := rfl
@[simp] theorem accept_dstBefore (c : Command) (s : State) : (accept c s).dstBefore = s.dst := rfl
@[simp] theorem accept_overlap (c : Command) (s : State) : (accept c s).overlap = s.overlap := rfl
@[simp] theorem accept_resultDefined (c : Command) (s : State) : (accept c s).resultDefined = false := rfl
@[simp] theorem accept_lastRead (c : Command) (s : State) : (accept c s).lastRead = s.lastRead := rfl
@[simp] theorem accept_host (c : Command) (s : State) : (accept c s).host = s.host := rfl
@[simp] theorem accept_freeIndex (c : Command) (s : State) : (accept c s).freeIndex = s.freeIndex := rfl

/-! ## setDst -/

@[simp] theorem setDst_cmd (m : Memory) (s : State) : (setDst m s).cmd = s.cmd := rfl
@[simp] theorem setDst_mode (m : Memory) (s : State) : (setDst m s).mode = s.mode := rfl
@[simp] theorem setDst_i (m : Memory) (s : State) : (setDst m s).i = s.i := rfl
@[simp] theorem setDst_segStart (m : Memory) (s : State) : (setDst m s).segStart = s.segStart := rfl
@[simp] theorem setDst_outLen (m : Memory) (s : State) : (setDst m s).outLen = s.outLen := rfl
@[simp] theorem setDst_rd (m : Memory) (s : State) : (setDst m s).rd = s.rd := rfl
@[simp] theorem setDst_tmp (m : Memory) (s : State) : (setDst m s).tmp = s.tmp := rfl
@[simp] theorem setDst_outputLength (m : Memory) (s : State) : (setDst m s).outputLength = s.outputLength := rfl
@[simp] theorem setDst_status (m : Memory) (s : State) : (setDst m s).status = s.status := rfl
@[simp] theorem setDst_busy (m : Memory) (s : State) : (setDst m s).busy = s.busy := rfl
@[simp] theorem setDst_src (m : Memory) (s : State) : (setDst m s).src = s.src := rfl
@[simp] theorem setDst_dst (m : Memory) (s : State) : (setDst m s).dst = m := rfl
@[simp] theorem setDst_dstBefore (m : Memory) (s : State) : (setDst m s).dstBefore = s.dstBefore := rfl
@[simp] theorem setDst_overlap (m : Memory) (s : State) : (setDst m s).overlap = s.overlap := rfl
@[simp] theorem setDst_resultDefined (m : Memory) (s : State) : (setDst m s).resultDefined = s.resultDefined := rfl
@[simp] theorem setDst_lastRead (m : Memory) (s : State) : (setDst m s).lastRead = s.lastRead := rfl
@[simp] theorem setDst_host (m : Memory) (s : State) : (setDst m s).host = s.host := rfl
@[simp] theorem setDst_freeIndex (m : Memory) (s : State) : (setDst m s).freeIndex = s.freeIndex := rfl

end Sys2Proof.Machine
end

