-- ==== Sys2Proof/Laws/Ops.lean ====
section
/-! SUPPORT. What each shared operation can do, said once: sequencing, SRC reads, DST writes, taking a command, running a
call. -/

namespace Sys2Proof.Machine

/-! ## Sequencing -/

@[simp] theorem andThen_next (s : State) (f : State → Answer) : andThen (.next s) f = f s := rfl

theorem andThen_eq_next {x : Answer} {f : State → Answer} {t : State} :
    andThen x f = .next t ↔ ∃ u, x = .next u ∧ f u = .next t := by
  cases x <;> simp [andThen]

theorem andThen_eq_fault {x : Answer} {f : State → Answer} {r : Fault} :
    andThen x f = .fault r ↔ x = .fault r ∨ ∃ u, x = .next u ∧ f u = .fault r := by
  cases x <;> simp [andThen]

theorem andThen_eq_refused {x : Answer} {f : State → Answer} {r : Refusal} :
    andThen x f = .refused r ↔ x = .refused r ∨ ∃ u, x = .next u ∧ f u = .refused r := by
  cases x <;> simp [andThen]

theorem thenIfBusy_next (s : State) (f : State → Answer) :
    thenIfBusy (.next s) f = if s.busy then f s else .next s := rfl

theorem thenIfBusy_busy {s : State} (h : s.busy = true) (f : State → Answer) : thenIfBusy (.next s) f = f s := by
  simp [thenIfBusy_next, h]

theorem thenIfBusy_ended {s : State} (h : s.busy = false) (f : State → Answer) :
    thenIfBusy (.next s) f = .next s := by
  simp [thenIfBusy_next, h]

theorem thenIfBusy_eq_next {x : Answer} {f : State → Answer} {t : State} :
    thenIfBusy x f = .next t ↔
      ∃ u, x = .next u ∧ (u.busy = true ∧ f u = .next t ∨ u.busy = false ∧ u = t) := by
  unfold thenIfBusy
  rw [andThen_eq_next]
  refine exists_congr fun u => and_congr_right fun _ => ?_
  cases u.busy <;> simp

/-! ## SRC reads and DST writes -/

theorem withSrc_of_lt {s : State} {a : Nat} (h : a < s.cmd.srcLen) (f : Byte → Answer) :
    withSrc s a f = f (s.src.read a) := if_pos h

theorem withSrc_eq_next {s : State} {a : Nat} {f : Byte → Answer} {t : State} :
    withSrc s a f = .next t ↔ a < s.cmd.srcLen ∧ f (s.src.read a) = .next t := by
  unfold withSrc
  split <;> simp_all

theorem writeDst_of_lt {s : State} {a : Nat} (h : a < s.cmd.dstCap) (v : Byte) :
    writeDst a v s = .next (setDst (s.dst.write a v) s) := if_pos h

theorem writeDst_eq_next {s t : State} {a : Nat} {v : Byte} :
    writeDst a v s = .next t ↔ a < s.cmd.dstCap ∧ t = setDst (s.dst.write a v) s := by
  unfold writeDst
  split <;> simp_all [eq_comm]

theorem writeBytes_wf {m : Memory} (hm : m.wf) (bs : List Byte) (a : Nat) : (writeBytes bs a m).wf := by
  induction bs generalizing a m with
  | nil => exact hm
  | cons b bs ih => exact ih (Memory.write_wf hm a b) (a + 1)

/-- What a byte reads as after a list of bytes is written. -/
theorem read_writeBytes {m : Memory} (hm : m.wf) (bs : List Byte) (pos x : Nat) :
    (writeBytes bs pos m).read x = if pos ≤ x then (bs[x - pos]?).getD (m.read x) else m.read x := by
  induction bs generalizing pos m with
  | nil => simp [writeBytes]
  | cons b bs ih =>
    rw [writeBytes, ih (Memory.write_wf hm pos b), Memory.read_write hm]
    rcases Nat.lt_trichotomy x pos with h | h | h
    · simp [show ¬ pos ≤ x by omega, show ¬ pos + 1 ≤ x by omega, show x ≠ pos by omega]
    · subst h
      simp
    · obtain ⟨k, rfl⟩ := Nat.exists_eq_add_of_lt h
      simp [show pos + k + 1 - pos = k + 1 by omega, show pos + k + 1 - (pos + 1) = k by omega,
        show pos ≤ pos + k + 1 by omega, show pos + k + 1 ≠ pos by omega, show pos + 1 ≤ pos + k + 1 by omega]

theorem writeBytes_writesAt {m : Memory} (hm : m.wf) (bs : List Byte) (pos : Nat) :
    WritesAt m (writeBytes bs pos m) pos bs := fun x => read_writeBytes hm bs pos x

theorem writeBytes_append (bs cs : List Byte) (pos : Nat) (m : Memory) :
    writeBytes (bs ++ cs) pos m = writeBytes cs (pos + bs.length) (writeBytes bs pos m) := by
  induction bs generalizing pos m with
  | nil => simp [writeBytes]
  | cons b bs ih => simp [writeBytes, ih, Nat.add_assoc, Nat.add_comm 1]

/-- `fillDst` inside the capacity writes `n` copies of the byte and changes nothing else. -/
theorem fillDst_eq {n dest : Nat} {v : Byte} {s : State} (h : n = 0 ∨ dest + n ≤ s.cmd.dstCap) :
    fillDst n dest v s = .next (setDst (writeBytes (List.replicate n v) dest s.dst) s) := by
  induction n generalizing dest s with
  | zero => rfl
  | succ n ih =>
    have hd : dest < s.cmd.dstCap := by omega
    rw [fillDst, writeDst_of_lt hd, andThen_next, ih (by right; show _ ≤ s.cmd.dstCap; omega)]
    rfl

/-- `copyToDst` inside both buffers writes the `n` source bytes in order and changes nothing else. -/
theorem copyToDst_eq {n a dest : Nat} {s : State} (h : n = 0 ∨ a + n ≤ s.cmd.srcLen ∧ dest + n ≤ s.cmd.dstCap) :
    copyToDst n a dest s = .next (setDst (writeBytes (s.src.slice a n) dest s.dst) s) := by
  induction n generalizing a dest s with
  | zero => rfl
  | succ n ih =>
    have ha : a < s.cmd.srcLen := by omega
    have hd : dest < s.cmd.dstCap := by omega
    rw [copyToDst, withSrc_of_lt ha, writeDst_of_lt hd, andThen_next,
      ih (by right; exact ⟨by show _ ≤ s.cmd.srcLen; omega, by show _ ≤ s.cmd.dstCap; omega⟩), Memory.slice_succ]
    rfl

/-! ## Taking a command -/

/-- `startCall` in its three cases: invalid arguments end the call, overlapping buffers are refused, else the working
registers are set. -/
theorem startCall_cases (c : Command) (s : State) :
    (argsInvalid c.toCallArgs = true ∧ startCall c s = .next (raise Config.stInvalidArgument (accept c s))) ∨
    (argsInvalid c.toCallArgs = false ∧ s.overlap = true ∧ startCall c s = .refused .buffersOverlap) ∨
    (argsInvalid c.toCallArgs = false ∧ s.overlap = false ∧ startCall c s = .next (initCall (accept c s))) := by
  unfold startCall
  cases argsInvalid c.toCallArgs <;> cases h : s.overlap <;> simp [h]

@[simp] theorem initCall_busy (s : State) : (initCall s).busy = s.busy := by unfold initCall; split <;> rfl
@[simp] theorem initCall_cmd (s : State) : (initCall s).cmd = s.cmd := by unfold initCall; split <;> rfl
@[simp] theorem initCall_outLen (s : State) : (initCall s).outLen = 0 := by unfold initCall; split <;> rfl
@[simp] theorem initCall_src (s : State) : (initCall s).src = s.src := by unfold initCall; split <;> rfl
@[simp] theorem initCall_dst (s : State) : (initCall s).dst = s.dst := by unfold initCall; split <;> rfl
@[simp] theorem initCall_dstBefore (s : State) : (initCall s).dstBefore = s.dstBefore := by
  unfold initCall; split <;> rfl

/-- Presenting a command, in all its cases. -/
theorem issueCommand_cases (c : Command) (body : State → Answer) (s : State) :
    (s.busy = true ∧ issueCommand c body s = .next s) ∨
    (s.busy = false ∧ argsInvalid c.toCallArgs = true ∧
      issueCommand c body s = .next (raise Config.stInvalidArgument (accept c s))) ∨
    (s.busy = false ∧ argsInvalid c.toCallArgs = false ∧ s.overlap = true ∧
      issueCommand c body s = .refused .buffersOverlap) ∨
    (s.busy = false ∧ argsInvalid c.toCallArgs = false ∧ s.overlap = false ∧
      issueCommand c body s = body (initCall (accept c s))) := by
  unfold issueCommand
  cases hb : s.busy with
  | true => simp
  | false =>
    rcases startCall_cases c s with ⟨ha, h⟩ | ⟨ha, ho, h⟩ | ⟨ha, ho, h⟩
    · simp [ha, h, thenIfBusy_next]
    · simp [ha, ho, h, thenIfBusy, andThen]
    · simp [ha, ho, h, thenIfBusy_next]

/-! ## Running a call -/

theorem runCall_ended {engine : State → Answer} {s : State} (h : s.busy = false) (fuel : Nat) :
    runCall engine fuel s = .next s := by
  cases fuel <;> simp [runCall, h]

theorem runCall_succ {engine : State → Answer} {s : State} (h : s.busy = true) (fuel : Nat) :
    runCall engine (fuel + 1) s = andThen (engine s) (runCall engine fuel) := by
  simp [runCall, h]

/-- What every turn of an engine keeps while the call runs, the whole run keeps. -/
theorem runCall_keeps {engine : State → Answer} {P : State → Prop}
    (hstep : ∀ s t, s.busy = true → P s → engine s = .next t → P t) {fuel : Nat} {s t : State} (hs : P s)
    (h : runCall engine fuel s = .next t) : P t := by
  induction fuel generalizing s with
  | zero => cases h; exact hs
  | succ fuel ih =>
    cases hb : s.busy with
    | false =>
      rw [runCall_ended hb] at h
      cases h
      exact hs
    | true =>
      rw [runCall_succ hb, andThen_eq_next] at h
      obtain ⟨u, hu, ht⟩ := h
      exact ih (hstep s u hb hs hu) ht

end Sys2Proof.Machine
end

