-- ==== Sys2Proof/Laws/Token.lean ====
section
/-! SUPPORT. What the two tokens can do, and what one turn of the decoder engine can do. -/

namespace Sys2Proof.Machine

@[simp] theorem tokenSize_run (n : Nat) : tokenSize .run n = 2 := rfl
@[simp] theorem tokenSize_copy (n : Nat) : tokenSize .copy n = n + 1 := rfl

theorem noRoom_eq_false {n : Nat} {s : State} (h : noRoom n s = false) : n = 0 ∨ s.outLen + n ≤ s.cmd.dstCap := by
  have h' := of_decide_eq_false h
  simp only [room] at h'
  omega

theorem truncated_eq_false {k : Kind} {n : Nat} {s : State} (h : truncated k n s = false) :
    s.rd + tokenSize k n ≤ s.cmd.srcLen := by
  have h' := of_decide_eq_false h
  simp only [remaining] at h'
  have : 1 ≤ tokenSize k n := by cases k <;> simp
  omega

/-- The state after a whole token of length `n` and size `size` has written `out`. -/
def tokenDone (n size : Nat) (out : List Byte) (s : State) : State :=
  setRd (s.rd + size) (setOutLen (s.outLen + n) (setDst (writeBytes out s.outLen s.dst) s))

/-- `RUN`, in its three cases. -/
theorem execRun_cases (n : Nat) (s : State) :
    (truncated .run n s = true ∧ execRun n s = .next (raise Config.stSrcDecodeError (setN n s))) ∨
    (truncated .run n s = false ∧ noRoom n s = true ∧
      execRun n s = .next (raise Config.stDstWriteError (setN n s))) ∨
    (truncated .run n s = false ∧ noRoom n s = false ∧
      execRun n s = .next
        (tokenDone n 2 (List.replicate n (s.src.read (s.rd + 1))) (setSym (s.src.read (s.rd + 1)) (setN n s)))) := by
  have ht : truncated .run n (setN n s) = truncated .run n s := rfl
  have hr : noRoom n (setN n s) = noRoom n s := rfl
  unfold execRun
  simp only [ht, hr]
  cases h1 : truncated .run n s with
  | true => simp
  | false =>
    cases h2 : noRoom n s with
    | true => simp
    | false =>
      refine .inr (.inr ⟨rfl, rfl, ?_⟩)
      have hs := truncated_eq_false h1
      rw [tokenSize_run] at hs
      simp only [Bool.false_eq_true, if_false]
      rw [withSrc_of_lt (by show s.rd + 1 < s.cmd.srcLen; omega)]
      have hfill := fillDst_eq (dest := s.outLen) (v := s.src.read (s.rd + 1)) (s := setSym (s.src.read (s.rd + 1)) (setN n s))
        (noRoom_eq_false h2)
      show andThen (fillDst n s.outLen (s.src.read (s.rd + 1)) (setSym (s.src.read (s.rd + 1)) (setN n s))) _ = _
      rw [hfill]
      rfl

/-- `COPY`, in its three cases. -/
theorem execCopy_cases (n : Nat) (s : State) :
    (truncated .copy n s = true ∧ execCopy n s = .next (raise Config.stSrcDecodeError (setN n s))) ∨
    (truncated .copy n s = false ∧ noRoom n s = true ∧
      execCopy n s = .next (raise Config.stDstWriteError (setN n s))) ∨
    (truncated .copy n s = false ∧ noRoom n s = false ∧
      execCopy n s = .next (tokenDone n (n + 1) (s.src.slice (s.rd + 1) n) (setN n s))) := by
  have ht : truncated .copy n (setN n s) = truncated .copy n s := rfl
  have hr : noRoom n (setN n s) = noRoom n s := rfl
  unfold execCopy
  simp only [ht, hr]
  cases h1 : truncated .copy n s with
  | true => simp
  | false =>
    cases h2 : noRoom n s with
    | true => simp
    | false =>
      refine .inr (.inr ⟨rfl, rfl, ?_⟩)
      have hs := truncated_eq_false h1
      have hr := noRoom_eq_false h2
      rw [tokenSize_copy] at hs
      simp only [Bool.false_eq_true, if_false]
      have hcopy := copyToDst_eq (n := n) (a := s.rd + 1) (dest := s.outLen) (s := setN n s) (by
        rcases hr with hr | hr
        · exact .inl hr
        · exact .inr ⟨by show s.rd + 1 + n ≤ s.cmd.srcLen; omega, hr⟩)
      show andThen (copyToDst n (s.rd + 1) s.outLen (setN n s)) _ = _
      rw [hcopy]
      rfl

/-! ## The decoder engine -/

/-- On a token, `exec` is the engine's own execution of it. -/
theorem exec_decodeHeader (h : Byte) (s : State) : exec (decodeHeader h) s = execToken (decodeHeader h) s := by
  unfold decodeHeader
  cases headerKind h <;> rfl

/-- One turn of a `DECODE` call: the end of the stream, or the token at the cursor. -/
theorem decodeTick_cases (s : State) :
    (s.rd = s.cmd.srcLen ∧ decodeTick s = .next (done s)) ∨
    (s.rd ≠ s.cmd.srcLen ∧
      decodeTick s =
        withSrc s s.rd fun h => execToken (tokenInstr (headerKind h) (headerLength (headerKind h) h)) (setH h s)) := by
  unfold decodeTick fetchToken
  by_cases h : s.rd = s.cmd.srcLen
  · exact .inl ⟨h, if_pos h⟩
  · exact .inr ⟨h, if_neg h⟩

/-- `step`'s turn of a `DECODE` call, which goes through `exec`, is the engine's. -/
theorem fetchToken_exec (s : State) : fetchToken exec s = decodeTick s := by
  unfold decodeTick fetchToken
  simp only [exec_decodeHeader]

end Sys2Proof.Machine
end

