-- ==== Sys2Proof/Laws/Encode.lean ====
section
/-! SUPPORT. What an emission can do, and what the classifier's tests say. -/

namespace Sys2Proof.Machine

/-- The payload of the segment `SRC[a, a + n)` (R100, R101). -/
def segmentPayload (k : Kind) (a n : Nat) (s : State) : List Byte :=
  match k with
  | .run => [s.src.read a]
  | .copy => s.src.slice a n

theorem segmentPayload_length (k : Kind) (a n : Nat) (s : State) :
    (segmentPayload k a n s).length + 1 = tokenSize k n := by
  cases k <;> simp [segmentPayload]

/-- The state after the whole token of the segment `SRC[a, a + n)` has been emitted. -/
def emitted (k : Kind) (a n : Nat) (s : State) : State :=
  setOutLen (s.outLen + tokenSize k n)
    (setDst (writeBytes (headerByte k n :: segmentPayload k a n s) s.outLen s.dst)
      (setHdr (headerByte k n) (setEmit k a n s)))

/-- `emit` on a segment inside SRC, in its two cases. -/
theorem emit_cases {k : Kind} {a n : Nat} {s : State} (h : a + n ≤ s.cmd.srcLen) (hn : 1 ≤ n) :
    (noRoom (tokenSize k n) s = true ∧ emit k a n s = .next (raise Config.stDstWriteError (setEmit k a n s))) ∨
    (noRoom (tokenSize k n) s = false ∧ emit k a n s = .next (emitted k a n s)) := by
  have hr : noRoom (tokenSize k n) (setEmit k a n s) = noRoom (tokenSize k n) s := rfl
  unfold emit
  simp only [hr]
  cases h1 : noRoom (tokenSize k n) s with
  | true => simp
  | false =>
    refine .inr ⟨rfl, ?_⟩
    have hroom := noRoom_eq_false h1
    simp only [Bool.false_eq_true, if_false]
    cases k with
    | run =>
      rw [tokenSize_run] at hroom
      simp only [emitBytes, emitRun]
      rw [writeDst_of_lt (by show s.outLen < s.cmd.dstCap; omega), andThen_next,
        withSrc_of_lt (by show a < s.cmd.srcLen; omega),
        writeDst_of_lt (by show s.outLen + 1 < s.cmd.dstCap; omega)]
      rfl
    | copy =>
      rw [tokenSize_copy] at hroom
      simp only [emitBytes, emitCopy]
      rw [writeDst_of_lt (by show s.outLen < s.cmd.dstCap; omega), andThen_next]
      have hcopy := copyToDst_eq (n := n) (a := a) (dest := s.outLen + 1)
        (s := setDst (s.dst.write s.outLen (headerByte .copy n)) (setHdr (headerByte .copy n) (setEmit .copy a n s)))
        (.inr ⟨h, by show s.outLen + 1 + n ≤ s.cmd.dstCap; omega⟩)
      show andThen (copyToDst n a (s.outLen + 1) (setDst (s.dst.write s.outLen (headerByte .copy n))
        (setHdr (headerByte .copy n) (setEmit .copy a n s)))) _ = _
      rw [hcopy]
      rfl

@[simp] theorem emitted_busy (k : Kind) (a n : Nat) (s : State) : (emitted k a n s).busy = s.busy := rfl
@[simp] theorem emitted_cmd (k : Kind) (a n : Nat) (s : State) : (emitted k a n s).cmd = s.cmd := rfl
@[simp] theorem emitted_mode (k : Kind) (a n : Nat) (s : State) : (emitted k a n s).mode = s.mode := rfl
@[simp] theorem emitted_i (k : Kind) (a n : Nat) (s : State) : (emitted k a n s).i = s.i := rfl
@[simp] theorem emitted_segStart (k : Kind) (a n : Nat) (s : State) : (emitted k a n s).segStart = s.segStart := rfl
@[simp] theorem emitted_src (k : Kind) (a n : Nat) (s : State) : (emitted k a n s).src = s.src := rfl
@[simp] theorem emitted_outLen (k : Kind) (a n : Nat) (s : State) :
    (emitted k a n s).outLen = s.outLen + tokenSize k n := rfl

@[simp] theorem emitted_dst (k : Kind) (a n : Nat) (s : State) :
    (emitted k a n s).dst = writeBytes (headerByte k n :: segmentPayload k a n s) s.outLen s.dst := rfl
@[simp] theorem emitted_dstBefore (k : Kind) (a n : Nat) (s : State) : (emitted k a n s).dstBefore = s.dstBefore := rfl
@[simp] theorem emitted_status (k : Kind) (a n : Nat) (s : State) : (emitted k a n s).status = s.status := rfl
@[simp] theorem emitted_outputLength (k : Kind) (a n : Nat) (s : State) :
    (emitted k a n s).outputLength = s.outputLength := rfl
@[simp] theorem emitted_resultDefined (k : Kind) (a n : Nat) (s : State) :
    (emitted k a n s).resultDefined = s.resultDefined := rfl

/-- An emission followed by more: it either ends the call or goes on from the emitted state. -/
theorem thenIfBusy_emit {k : Kind} {a n : Nat} {s : State} (h : a + n ≤ s.cmd.srcLen) (hn : 1 ≤ n)
    (hb : s.busy = true) (f : State → Answer) :
    (noRoom (tokenSize k n) s = true ∧
      thenIfBusy (emit k a n s) f = .next (raise Config.stDstWriteError (setEmit k a n s))) ∨
    (noRoom (tokenSize k n) s = false ∧ thenIfBusy (emit k a n s) f = f (emitted k a n s)) := by
  rcases emit_cases (k := k) h hn with ⟨h1, h2⟩ | ⟨h1, h2⟩
  · exact .inl ⟨h1, by rw [h2, thenIfBusy_ended rfl]⟩
  · exact .inr ⟨h1, by rw [h2, thenIfBusy_busy (by rw [emitted_busy]; exact hb)]⟩

/-! ## The classifier's tests -/

theorem compare_of_lt {s : State} (h : s.i < s.cmd.srcLen) (f : State → Answer) :
    compare s f = f (setEq (s.src.read s.i == s.src.read (s.i - 1)) s) := by
  unfold compare
  rw [withSrc_of_lt h, withSrc_of_lt (by omega)]

theorem copyAtCap_iff (s : State) : copyAtCap s = true ↔ s.mode = .inCopy ∧ s.i - s.segStart = 128 := by
  simp [copyAtCap, Config.maxCopy]

theorem runAtCap_iff (s : State) : runAtCap s = true ↔ s.mode = .inRun ∧ s.i + 1 - s.segStart = 129 := by
  simp [runAtCap, Config.maxRun]

theorem runStarts_iff (s : State) : runStarts s = true ↔ s.tmp.eq = true ∧ s.segStart + 1 ≤ s.i := by
  simp [runStarts]

end Sys2Proof.Machine
end

