-- ==== Sys2Proof/Laws/Engine.lean ====
section
/-! SUPPORT. One step of the whole: which engine turn or which host move it is, and what the turns of the engines keep. -/

namespace Sys2Proof.Machine

theorem step_host_nil {s : State} (h : s.host = []) : step s = engineStep s := by
  simp [step, h]

theorem step_host_cons {s : State} {m : HostMove} {rest : List HostMove} (h : s.host = m :: rest) :
    step s = hostStep m { s with host := rest } := by
  simp [step, h]

/-! Reads of the host: each records what it reads, and changes nothing of the block. -/

@[simp] theorem hostStep_readSrc (a : Nat) (s : State) :
    hostStep (.readSrc a) s = .next { s with lastRead := some (.byte (s.src.read a)) } := rfl

@[simp] theorem hostStep_readBusy (s : State) :
    hostStep .readBusy s = .next { s with lastRead := some (.busy s.busy) } := rfl

theorem hostStep_readDst {s : State} (h : s.busy = false) (a : Nat) :
    hostStep (.readDst a) s = .next { s with lastRead := some (.byte (s.dst.read a)) } := by
  simp [hostStep, whenIdle, h]

theorem hostStep_readResult {s : State} (h : s.busy = false) (hr : s.resultDefined = true) :
    hostStep .readResult s = .next { s with lastRead := some (.result s.outputLength s.status) } := by
  simp [hostStep, whenIdle, h, hr]

/-- The same read before any call has ended: a draw (R24). -/
theorem hostStep_readResult_draw {s : State} (h : s.busy = false) (hr : s.resultDefined = false) :
    hostStep .readResult s = drawResult s := by
  simp [hostStep, whenIdle, h, hr]

theorem engineStep_idle {s : State} (h : s.busy = false) : engineStep s = .next s := by
  simp [engineStep, h]

theorem engineStep_encode {s : State} (hb : s.busy = true) (ho : s.cmd.op = Config.opEncode) :
    engineStep s = encodeTick s := by
  simp [engineStep, hb, ho]

theorem engineStep_decode {s : State} (hb : s.busy = true) (ho : s.cmd.op = Config.opDecode) :
    engineStep s = decodeTick s := by
  simp [engineStep, hb, ho, fetchToken_exec, Config.opEncode, Config.opDecode]

/-- The `op` field has two values: a call that is not an `ENCODE` is a `DECODE` (R61). -/
theorem op_cases (b : OpBit) : b = Config.opEncode ∨ b = Config.opDecode := by
  revert b; decide

@[simp] theorem opEncode_ne_opDecode : Config.opEncode ≠ Config.opDecode := by decide

/-- What every turn of an engine leaves alone: the record, SRC, and what belongs to the host. -/
def SameSetting (s t : State) : Prop :=
  t.cmd = s.cmd ∧ t.src = s.src ∧ t.dstBefore = s.dstBefore ∧ t.overlap = s.overlap ∧ t.lastRead = s.lastRead ∧
    t.host = s.host ∧ t.freeIndex = s.freeIndex

theorem SameSetting.refl (s : State) : SameSetting s s := ⟨rfl, rfl, rfl, rfl, rfl, rfl, rfl⟩

theorem SameSetting.trans {s t u : State} (h : SameSetting s t) (k : SameSetting t u) : SameSetting s u := by
  obtain ⟨h1, h2, h3, h4, h5, h6, h7⟩ := h
  obtain ⟨k1, k2, k3, k4, k5, k6, k7⟩ := k
  exact ⟨k1.trans h1, k2.trans h2, k3.trans h3, k4.trans h4, k5.trans h5, k6.trans h6, k7.trans h7⟩

/-- An answer that, if it is a next state, has the setting of `s`. -/
def Keeps (s : State) (x : Answer) : Prop := ∀ t, x = .next t → SameSetting s t

theorem keeps_next {s t : State} (h : SameSetting s t) : Keeps s (.next t) := by
  rintro _ ⟨⟩
  exact h

theorem keeps_andThen {s : State} {x : Answer} {f : State → Answer} (hx : Keeps s x)
    (hf : ∀ u, SameSetting s u → Keeps s (f u)) : Keeps s (andThen x f) := by
  intro t ht
  obtain ⟨u, hu, hft⟩ := andThen_eq_next.1 ht
  exact hf u (hx u hu) t hft

theorem keeps_thenIfBusy {s : State} {x : Answer} {f : State → Answer} (hx : Keeps s x)
    (hf : ∀ u, SameSetting s u → Keeps s (f u)) : Keeps s (thenIfBusy x f) := by
  refine keeps_andThen hx fun u hu => ?_
  split
  · exact hf u hu
  · exact keeps_next hu

theorem keeps_withSrc {s u : State} {a : Nat} {f : Byte → Answer} (h : ∀ b, Keeps s (f b)) :
    Keeps s (withSrc u a f) := by
  intro t ht
  exact h _ t (withSrc_eq_next.1 ht).2

theorem keeps_writeDst {s u : State} (h : SameSetting s u) (a : Nat) (v : Byte) : Keeps s (writeDst a v u) := by
  intro t ht
  obtain ⟨-, rfl⟩ := writeDst_eq_next.1 ht
  exact h

theorem keeps_fillDst {s u : State} (h : SameSetting s u) (n dest : Nat) (v : Byte) :
    Keeps s (fillDst n dest v u) := by
  induction n generalizing dest u with
  | zero => exact keeps_next h
  | succ n ih => exact keeps_andThen (keeps_writeDst h dest v) fun w hw => ih hw (dest + 1)

theorem keeps_copyToDst {s u : State} (h : SameSetting s u) (n a dest : Nat) : Keeps s (copyToDst n a dest u) := by
  induction n generalizing a dest u with
  | zero => exact keeps_next h
  | succ n ih =>
    exact keeps_withSrc fun b => keeps_andThen (keeps_writeDst h dest b) fun w hw => ih hw (a + 1) (dest + 1)

theorem keeps_execRun (n : Nat) {s u : State} (h : SameSetting s u) : Keeps s (execRun n u) := by
  rcases execRun_cases n u with ⟨-, e⟩ | ⟨-, -, e⟩ | ⟨-, -, e⟩ <;> rw [e] <;> exact keeps_next h

theorem keeps_execCopy (n : Nat) {s u : State} (h : SameSetting s u) : Keeps s (execCopy n u) := by
  rcases execCopy_cases n u with ⟨-, e⟩ | ⟨-, -, e⟩ | ⟨-, -, e⟩ <;> rw [e] <;> exact keeps_next h

theorem keeps_decodeTick (s : State) : Keeps s (decodeTick s) := by
  rcases decodeTick_cases s with ⟨-, e⟩ | ⟨-, e⟩ <;> rw [e]
  · exact keeps_next (SameSetting.refl s)
  · refine keeps_withSrc fun h => ?_
    cases headerKind h
    · exact keeps_execCopy _ (SameSetting.refl s)
    · exact keeps_execRun _ (SameSetting.refl s)

theorem keeps_emit {s u : State} (h : SameSetting s u) (k : Kind) (a n : Nat) : Keeps s (emit k a n u) := by
  simp only [emit]
  split
  · exact keeps_next h
  · refine keeps_andThen ?_ fun w hw => keeps_next hw
    cases k
    · exact keeps_andThen (keeps_writeDst (u := setHdr _ (setEmit _ a n u)) h _ _) fun w hw => keeps_copyToDst hw _ _ _
    · exact keeps_andThen (keeps_writeDst (u := setHdr _ (setEmit _ a n u)) h _ _) fun w hw => keeps_withSrc fun b => keeps_writeDst hw _ _

theorem keeps_transition {s u : State} (h : SameSetting s u) : Keeps s (transition u) := by
  unfold transition
  split
  · split
    · refine keeps_thenIfBusy ?_ fun w hw => keeps_next hw
      split
      · exact keeps_emit h _ _ _
      · exact keeps_next h
    · exact keeps_next h
  · split
    · exact keeps_next h
    · exact keeps_thenIfBusy (keeps_emit h _ _ _) fun w hw => keeps_next hw

theorem keeps_capCheck {s u : State} (h : SameSetting s u) : Keeps s (capCheck u) := by
  unfold capCheck
  split
  · exact keeps_thenIfBusy (keeps_emit h _ _ _) fun w hw => keeps_next hw
  · split
    · exact keeps_thenIfBusy (keeps_emit h _ _ _) fun w hw => keeps_next hw
    · exact keeps_next h

theorem keeps_encodeTick (s : State) : Keeps s (encodeTick s) := by
  unfold encodeTick
  split
  · refine keeps_thenIfBusy ?_ fun w hw => keeps_next hw
    unfold scanStep compare
    refine keeps_withSrc fun cur => keeps_withSrc fun prev => ?_
    exact keeps_thenIfBusy (keeps_transition (u := setEq (cur == prev) s) (SameSetting.refl s)) fun w hw => keeps_capCheck hw
  · refine keeps_thenIfBusy ?_ fun w hw => keeps_next hw
    split
    · exact keeps_emit (SameSetting.refl s) _ _ _
    · split
      · exact keeps_emit (SameSetting.refl s) _ _ _
      · exact keeps_next (SameSetting.refl s)

/-- A turn of the block changes neither the command record nor SRC nor what belongs to the host (R33). -/
theorem keeps_engineStep (s : State) : Keeps s (engineStep s) := by
  cases hb : s.busy with
  | false => rw [engineStep_idle hb]; exact keeps_next (SameSetting.refl s)
  | true =>
    rcases op_cases s.cmd.op with ho | ho
    · rw [engineStep_encode hb ho]; exact keeps_encodeTick s
    · rw [engineStep_decode hb ho]; exact keeps_decodeTick s

/-- The body of a call is the block's own turns, one after another. -/
theorem engineSteps_eq_runCall {s : State} (k : Nat) :
    (s.cmd.op = Config.opEncode → engineSteps k s = runCall encodeTick k s) ∧
    (s.cmd.op = Config.opDecode → engineSteps k s = runCall decodeTick k s) := by
  induction k generalizing s with
  | zero => exact ⟨fun _ => rfl, fun _ => rfl⟩
  | succ k ih =>
    cases hb : s.busy with
    | false =>
      have hidle : ∀ j, engineSteps j s = .next s := by
        intro j
        induction j with
        | zero => rfl
        | succ j ihj => rw [engineSteps, engineStep_idle hb, andThen_next, ihj]
      simp [hidle, runCall_ended hb]
    | true =>
      constructor
      · intro ho
        rw [engineSteps, engineStep_encode hb ho, runCall_succ hb]
        cases hx : encodeTick s with
        | next t =>
          have hc := (keeps_encodeTick s t hx).1
          exact (ih (s := t)).1 (by rw [hc]; exact ho)
        | fault r => rfl
        | refused r => rfl
      · intro ho
        rw [engineSteps, engineStep_decode hb ho, runCall_succ hb]
        cases hx : decodeTick s with
        | next t =>
          have hc := (keeps_decodeTick s t hx).1
          exact (ih (s := t)).2 (by rw [hc]; exact ho)
        | fault r => rfl
        | refused r => rfl

end Sys2Proof.Machine
end

