-- ==== Sys2Proof/Laws/PerInstr.lean ====
section
/-! SUPPORT. Facts about each instruction as syntax. -/

namespace Sys2Proof.Laws

/-- The bit that tells an instruction from its sister stands in its encoding: bit 7 of a token's header, 0 for COPY and 1
for RUN (R51); the bit `op` of a command record, 0 for ENCODE and 1 for DECODE (R61). -/
def HeaderKind.Statement (i : Instr) : Prop :=
  i.wf = true →
    match i, encode i with
    | .copy _, .bytes [h] => h.getLsbD 7 = false
    | .run _, .bytes [h] => h.getLsbD 7 = true
    | .encode _, .record c => c.op = 0#1
    | .decode _, .record c => c.op = 1#1
    | _, _ => False

/-- The sign bit of `byte v` for the numbers a header can hold. -/
theorem byte_getLsbD_seven (v : Int) (lo : -128 ≤ v) (hi : v ≤ 127) : (byte v).getLsbD 7 = decide (v < 0) := by
  interval_cases v <;> rfl

/-- The lengths a COPY header carries (R53). -/
theorem lengthOk_copy (n : Nat) : lengthOk .copy n = true ↔ 1 ≤ n ∧ n ≤ 128 := by
  simp only [lengthOk, Bool.and_eq_true, decide_eq_true_eq]
  exact Iff.rfl

/-- The lengths a RUN header carries (R52). -/
theorem lengthOk_run (n : Nat) : lengthOk .run n = true ↔ 2 ≤ n ∧ n ≤ 129 := by
  simp only [lengthOk, Bool.and_eq_true, decide_eq_true_eq]
  exact Iff.rfl

theorem HeaderKind.copy (n : Nat) : HeaderKind.Statement (.copy n) := by
  intro h
  obtain ⟨lo, hi⟩ := (lengthOk_copy n).mp h
  simp only [encode, headerByte]
  rw [byte_getLsbD_seven _ (by omega) (by omega)]
  exact decide_eq_false (by omega)

theorem HeaderKind.run (n : Nat) : HeaderKind.Statement (.run n) := by
  intro h
  obtain ⟨lo, hi⟩ := (lengthOk_run n).mp h
  simp only [encode, headerByte]
  rw [byte_getLsbD_seven _ (by omega) (by omega)]
  exact decide_eq_true (by omega)

theorem HeaderKind.encode (args : CallArgs) : HeaderKind.Statement (.encode args) := fun _ => rfl

theorem HeaderKind.decode (args : CallArgs) : HeaderKind.Statement (.decode args) := fun _ => rfl

end Sys2Proof.Laws
end

