-- ==== Sys2Proof/Laws/Scan.lean ====
section
/-! SUPPORT. What one turn of the encoder engine can do from a state that meets `ScanInv`: the cases of R89 to R95. -/

namespace Sys2Proof.Machine

/-- An emission of the `n` bytes of the open segment, then the scan step's end at `seg` in mode `m`; or the end of the
call, if the token does not fit. -/
def emitThen (k : Kind) (n seg : Nat) (m : Mode) (s : State) : Answer :=
  if noRoom (tokenSize k n) s then .next (raise Config.stDstWriteError (setEmit k s.segStart n s))
  else .next (setI (s.i + 1) (setSegment seg m (emitted k s.segStart n s)))

/-- A scan step's emission ends as `emitThen` says, when what follows it only sets the segment and moves on. -/
theorem emit_scan {k : Kind} {n seg : Nat} {m : Mode} {s : State} {f : State → Answer}
    (hb : s.busy = true) (h : s.segStart + n ≤ s.cmd.srcLen) (hn : 1 ≤ n)
    (hf : f (emitted k s.segStart n s) = .next (setI (s.i + 1) (setSegment seg m (emitted k s.segStart n s)))) :
    thenIfBusy (emit k s.segStart n s) f = emitThen k n seg m s := by
  unfold emitThen
  rcases thenIfBusy_emit (k := k) h hn hb f with ⟨h1, h2⟩ | ⟨h1, h2⟩
  · rw [h2, if_pos h1]
  · rw [h2, hf, if_neg (by simp [h1])]

theorem thenIfBusy_assoc (x : Answer) (f g : State → Answer) :
    thenIfBusy (thenIfBusy x f) g = thenIfBusy x fun t => thenIfBusy (f t) g := by
  cases x with
  | next t => cases h : t.busy <;> simp [thenIfBusy_next, h]
  | fault r => rfl
  | refused r => rfl

/-- An emission in a scan step that moves the segment and does nothing more. -/
theorem emit_cut {k : Kind} {n seg : Nat} {g : State → Nat} {m : Mode} {s : State}
    (hb : s.busy = true) (h : s.segStart + n ≤ s.cmd.srcLen) (hn : 1 ≤ n)
    (hg : g (emitted k s.segStart n s) = seg) :
    (thenIfBusy (emit k s.segStart n s) fun t =>
      thenIfBusy (.next (setSegment (g t) m t)) fun u => .next (setI (u.i + 1) u)) = emitThen k n seg m s := by
  refine emit_scan hb h hn ?_
  have hbt : (setSegment (g (emitted k s.segStart n s)) m (emitted k s.segStart n s)).busy = true := by simpa using hb
  rw [thenIfBusy_busy hbt, setSegment_i, emitted_i, hg]

/-- A scan step with the comparison made (R87). -/
theorem encodeTick_scan {s : State} (hi : s.i < s.cmd.srcLen) :
    encodeTick s =
      thenIfBusy (transition (setEq (s.src.read s.i == s.src.read (s.i - 1)) s)) fun t =>
        thenIfBusy (capCheck t) fun u => .next (setI (u.i + 1) u) := by
  rw [encodeTick, if_pos hi, scanStep, compare_of_lt hi, thenIfBusy_assoc]

theorem capCheck_quiet {s : State} (h1 : copyAtCap s = false) (h2 : runAtCap s = false) : capCheck s = .next s := by
  simp [capCheck, h1, h2]

theorem not_copyAtCap {s : State} (h : s.mode = .inRun ∨ s.i - s.segStart ≠ 128) : copyAtCap s = false := by
  rw [Bool.eq_false_iff, Ne, copyAtCap_iff]
  rintro ⟨h1, h2⟩
  rcases h with h | h
  · rw [h] at h1; cases h1
  · exact h h2

theorem not_runAtCap {s : State} (h : s.mode = .inCopy ∨ s.i + 1 - s.segStart ≠ 129) : runAtCap s = false := by
  rw [Bool.eq_false_iff, Ne, runAtCap_iff]
  rintro ⟨h1, h2⟩
  rcases h with h | h
  · rw [h] at h1; cases h1
  · exact h h2

/-- The end of a scan step whose cap check does nothing. -/
theorem scan_end {t : State} (hb : t.busy = true) (h1 : copyAtCap t = false) (h2 : runAtCap t = false) :
    (thenIfBusy (capCheck t) fun u => .next (setI (u.i + 1) u)) = .next (setI (t.i + 1) t) := by
  rw [capCheck_quiet h1 h2, thenIfBusy_busy hb]

/-- A scan step in `InCopy` (R89, R90, R91, R94). -/
theorem encodeTick_inCopy {s : State} (hb : s.busy = true) (hi : s.i < s.cmd.srcLen) (hs : ScanInv s)
    (hm : s.mode = .inCopy) :
    (s.src.read s.i ≠ s.src.read (s.i - 1) ∧ s.i < s.segStart + 128 ∧
      encodeTick s = .next (setI (s.i + 1) (setEq false s))) ∨
    (s.src.read s.i = s.src.read (s.i - 1) ∧ s.segStart = s.i ∧
      encodeTick s = .next (setI (s.i + 1) (setEq true s))) ∨
    (s.src.read s.i = s.src.read (s.i - 1) ∧ s.segStart + 1 = s.i ∧
      encodeTick s = .next (setI (s.i + 1) (setSegment (s.i - 1) .inRun (setEq true s)))) ∨
    (s.src.read s.i = s.src.read (s.i - 1) ∧ s.segStart + 1 < s.i ∧
      encodeTick s = emitThen .copy (s.i - 1 - s.segStart) (s.i - 1) .inRun (setEq true s)) ∨
    (s.src.read s.i ≠ s.src.read (s.i - 1) ∧ s.i = s.segStart + 128 ∧
      encodeTick s = emitThen .copy 128 s.i .inCopy (setEq false s)) := by
  obtain ⟨h1, -, hc, -⟩ := hs
  obtain ⟨hle, hcap, -⟩ := hc hm
  simp only [Config.maxCopy] at hcap
  have hb' : (setEq true s).busy = true := hb
  have hb'' : (setEq false s).busy = true := hb
  rw [encodeTick_scan hi]
  by_cases heq : s.src.read s.i = s.src.read (s.i - 1)
  · rw [show (s.src.read s.i == s.src.read (s.i - 1)) = true from by simpa using heq]
    rcases Nat.lt_or_ge s.segStart s.i with hlt | hge
    · have hstart : runStarts (setEq true s) = true := (runStarts_iff _).2 ⟨rfl, hlt⟩
      have htr : transition (setEq true s) = copyToRun (setEq true s) := by
        simp [transition, hm, hstart]
      have hrun : ∀ t : State, t.busy = true → t.mode = .inRun → t.segStart = s.i - 1 → t.i = s.i →
          (thenIfBusy (capCheck t) fun u => .next (setI (u.i + 1) u)) = .next (setI (t.i + 1) t) := by
        intro t htb htm hts hti
        exact scan_end htb (not_copyAtCap (.inl htm)) (not_runAtCap (.inr (by rw [hts, hti]; omega)))
      rw [htr, copyToRun]
      rcases Nat.lt_or_ge s.segStart (s.i - 1) with hne | hemp
      · refine .inr (.inr (.inr (.inl ⟨heq, by omega, ?_⟩)))
        rw [if_pos (show (setEq true s).segStart < (setEq true s).i - 1 from hne), thenIfBusy_assoc]
        refine emit_scan (n := s.i - 1 - s.segStart) (s := setEq true s) hb'
          (by simp only [setEq_segStart, setEq_cmd]; omega) (by omega) ?_
        rw [thenIfBusy_busy (by exact hb)]
        exact hrun (setSegment (s.i - 1) .inRun (emitted .copy s.segStart (s.i - 1 - s.segStart) (setEq true s)))
          hb rfl rfl rfl
      · refine .inr (.inr (.inl ⟨heq, by omega, ?_⟩))
        rw [if_neg (show ¬ (setEq true s).segStart < (setEq true s).i - 1 from by
          simp only [setEq_segStart, setEq_i]; omega), thenIfBusy_assoc, thenIfBusy_busy hb',
          thenIfBusy_busy (by exact hb)]
        exact hrun (setSegment (s.i - 1) .inRun (setEq true s)) hb rfl rfl rfl
    · refine .inr (.inl ⟨heq, by omega, ?_⟩)
      have hstart : runStarts (setEq true s) = false := by
        rw [Bool.eq_false_iff, Ne, runStarts_iff]
        rintro ⟨-, h⟩
        simp only [setEq_segStart, setEq_i] at h
        omega
      rw [show transition (setEq true s) = .next (setEq true s) from by simp [transition, hm, hstart],
        thenIfBusy_busy hb']
      exact scan_end hb (not_copyAtCap (.inr (by simp only [setEq_segStart, setEq_i]; omega))) (not_runAtCap (.inl hm))
  · rw [show (s.src.read s.i == s.src.read (s.i - 1)) = false from by simpa using heq]
    have htr : transition (setEq false s) = .next (setEq false s) := by
      simp [transition, hm, runStarts]
    rw [htr, thenIfBusy_busy hb'']
    rcases Nat.lt_or_ge s.i (s.segStart + 128) with hlt | hge
    · refine .inl ⟨heq, hlt, ?_⟩
      exact scan_end hb (not_copyAtCap (.inr (by simp only [setEq_segStart, setEq_i]; omega))) (not_runAtCap (.inl hm))
    · refine .inr (.inr (.inr (.inr ⟨heq, by omega, ?_⟩)))
      have hat : copyAtCap (setEq false s) = true :=
        (copyAtCap_iff _).2 ⟨hm, by simp only [setEq_segStart, setEq_i]; omega⟩
      rw [capCheck, if_pos hat, thenIfBusy_assoc, show Config.maxCopy = 128 from rfl]
      exact emit_cut (n := 128) (s := setEq false s) (g := fun t => t.i) hb
        (by simp only [setEq_segStart, setEq_cmd]; omega) (by decide) (by simp only [emitted_i, setEq_i])

/-- A scan step in `InRun` (R92, R93). -/
theorem encodeTick_inRun {s : State} (hb : s.busy = true) (hi : s.i < s.cmd.srcLen) (hs : ScanInv s)
    (hm : s.mode = .inRun) :
    (s.src.read s.i = s.src.read (s.i - 1) ∧ s.i + 1 < s.segStart + 129 ∧
      encodeTick s = .next (setI (s.i + 1) (setEq true s))) ∨
    (s.src.read s.i = s.src.read (s.i - 1) ∧ s.i + 1 = s.segStart + 129 ∧
      encodeTick s = emitThen .run 129 (s.i + 1) .inCopy (setEq true s)) ∨
    (s.src.read s.i ≠ s.src.read (s.i - 1) ∧
      encodeTick s = emitThen .run (s.i - s.segStart) s.i .inCopy (setEq false s)) := by
  obtain ⟨h1, -, -, hr⟩ := hs
  obtain ⟨hle, hcap, -⟩ := hr hm
  simp only [Config.maxRun, Config.minRun] at hcap hle
  rw [encodeTick_scan hi]
  by_cases heq : s.src.read s.i = s.src.read (s.i - 1)
  · rw [show (s.src.read s.i == s.src.read (s.i - 1)) = true from by simpa using heq]
    rw [show transition (setEq true s) = .next (setEq true s) from by simp [transition, hm],
      thenIfBusy_busy (show (setEq true s).busy = true from hb)]
    have hno : copyAtCap (setEq true s) = false := not_copyAtCap (.inl hm)
    rcases Nat.lt_or_ge (s.i + 1) (s.segStart + 129) with hlt | hge
    · refine .inl ⟨heq, hlt, ?_⟩
      exact scan_end hb hno (not_runAtCap (.inr (by simp only [setEq_segStart, setEq_i]; omega)))
    · refine .inr (.inl ⟨heq, by omega, ?_⟩)
      have hat : runAtCap (setEq true s) = true :=
        (runAtCap_iff _).2 ⟨hm, by simp only [setEq_segStart, setEq_i]; omega⟩
      rw [capCheck, if_neg (by simp [hno]), if_pos hat, thenIfBusy_assoc, show Config.maxRun = 129 from rfl]
      exact emit_cut (n := 129) (s := setEq true s) (g := fun t => t.i + 1) hb
        (by simp only [setEq_segStart, setEq_cmd]; omega) (by decide) (by simp only [emitted_i, setEq_i])
  · refine .inr (.inr ⟨heq, ?_⟩)
    rw [show (s.src.read s.i == s.src.read (s.i - 1)) = false from by simpa using heq]
    rw [show transition (setEq false s) = runToCopy (setEq false s) from by simp [transition, hm], runToCopy,
      thenIfBusy_assoc]
    refine emit_scan (n := s.i - s.segStart) (s := setEq false s) (m := .inCopy) hb
      (by simp only [setEq_segStart, setEq_cmd]; omega) (by omega) ?_
    rw [thenIfBusy_busy (by exact hb)]
    exact scan_end hb (not_copyAtCap (.inr (by simp))) (not_runAtCap (.inl rfl))

/-- The final flush of `n` bytes: the token goes out and the call is done, or the token does not fit (R95). -/
def flushThen (k : Kind) (n : Nat) (s : State) : Answer :=
  if noRoom (tokenSize k n) s then .next (raise Config.stDstWriteError (setEmit k s.segStart n s))
  else .next (done (emitted k s.segStart n s))

/-- The flush (R95), in its three cases. -/
theorem encodeTick_flush {s : State} (hb : s.busy = true) (hi : s.i = s.cmd.srcLen) (hs : ScanInv s) :
    (s.mode = .inRun ∧ encodeTick s = flushThen .run (s.cmd.srcLen - s.segStart) s) ∨
    (s.mode = .inCopy ∧ s.segStart < s.cmd.srcLen ∧
      encodeTick s = flushThen .copy (s.cmd.srcLen - s.segStart) s) ∨
    (s.mode = .inCopy ∧ s.segStart = s.cmd.srcLen ∧ encodeTick s = .next (done s)) := by
  obtain ⟨-, -, hc, hr⟩ := hs
  have hemit : ∀ k, s.segStart < s.cmd.srcLen →
      (thenIfBusy (emit k s.segStart (s.cmd.srcLen - s.segStart) s) fun t => .next (done t)) =
        flushThen k (s.cmd.srcLen - s.segStart) s := by
    intro k hlt
    unfold flushThen
    rcases thenIfBusy_emit (k := k) (a := s.segStart) (n := s.cmd.srcLen - s.segStart) (s := s) (by omega) (by omega) hb
      (fun t => .next (done t)) with ⟨h1, h2⟩ | ⟨h1, h2⟩
    · rw [h2, if_pos h1]
    · rw [h2, if_neg (by simp [h1])]
  rw [encodeTick, if_neg (by omega), flush]
  cases hm : s.mode with
  | inRun =>
    obtain ⟨hle, -⟩ := hr hm
    simp only [Config.minRun] at hle
    exact .inl ⟨rfl, hemit .run (by omega)⟩
  | inCopy =>
    obtain ⟨hle, -⟩ := hc hm
    rcases Nat.lt_or_ge s.segStart s.cmd.srcLen with hlt | hge
    · exact .inr (.inl ⟨rfl, hlt, by simp only [if_pos hlt]; exact hemit .copy hlt⟩)
    · refine .inr (.inr ⟨rfl, by omega, ?_⟩)
      simp only [if_neg (Nat.not_lt.2 hge)]
      rw [thenIfBusy_busy hb]

end Sys2Proof.Machine
end

