-- ==== Sys2Proof/Tests/Slice0.lean ====
section
/-! SUPPORT. Tests, each expected result taken from the spec (named in its comment), and for every obligation with
hypotheses a concrete state and operands that meet them. -/

namespace Sys2Proof.Tests

open Sys2Proof Sys2Proof.Machine

/-! ## Helpers -/

/-- A buffer with these bytes from index 0 on. -/
def hold (bs : List Byte) : Memory := writeBytes bs 0 []

/-- Both null flags 0 (R62). -/
def args (srcLen dstCap : Nat) : CallArgs := { srcNull := false, srcLen := srcLen, dstNull := false, dstCap := dstCap }

/-- An idle block; SRC holds the bytes, DST holds `EE EE EE EE`. -/
def idle (bs : List Byte) : State :=
  { State.reset with src := hold bs, dst := hold [0xEE#8, 0xEE#8, 0xEE#8, 0xEE#8] }

/-- A `DECODE` call on these bytes, at their first header, with `out` bytes already written. -/
def decoding (bs : List Byte) (out cap : Nat) : State :=
  { idle bs with
    busy := true, outLen := out, cmd := { toCallArgs := args bs.length cap, op := Config.opDecode }
    dstBefore := (idle bs).dst }

/-- An `ENCODE` call in progress, at the scan step `i`, on `len` bytes of SRC. -/
def scanning (src : Memory) (len : Nat) (m : Mode) (seg i cap : Nat) : State :=
  { State.reset with
    src := src, busy := true, mode := m, segStart := seg, i := i
    cmd := { toCallArgs := args len cap, op := Config.opEncode } }

/-- SRC with the bytes 0, 1, 0, 1, …: no two neighbours are equal. -/
def alternating (n : Nat) : Memory := (List.range n).map fun k => (2 * k + 1, 1#8)

/-- What an answer holds, if it is a next state. -/
def resultIn (x : Answer) : Option CallResult :=
  match x with
  | .next t => some t.result
  | .fault _ => none
  | .refused _ => none

/-! ## WellFormed refuses each ill-formed term (R62: lengths outside the ranges "cannot be written") -/

theorem test_wf_run_below : (Instr.run 1).wf = false := by decide
theorem test_wf_run_above : (Instr.run 130).wf = false := by decide
theorem test_wf_copy_below : (Instr.copy 0).wf = false := by decide
theorem test_wf_copy_above : (Instr.copy 129).wf = false := by decide
theorem test_wf_token_run : (Token.run 1 0x7A#8).wf = false := by decide
theorem test_wf_token_copy : (Token.copy []).wf = false := by decide
theorem test_wf_ranges :
    (Instr.run 2).wf && (Instr.run 129).wf && (Instr.copy 1).wf && (Instr.copy 128).wf = true := by decide

/-! ## Decoding, from words written out bit by bit -/

/-- `[0x80, 0x7A]`: 129 bytes of `7A` (BST example S3). -/
theorem test_decode_run : decode (.bytes [0b10000000#8, 0x7A#8]) = .instr (.run 129) [0x7A#8] := by decide
/-- Header `FD` is a run of 4 (vectors, section 3). -/
theorem test_decode_run_four : decode (.bytes [0b11111101#8]) = .instr (.run 4) [] := by decide
/-- `[0x05]` "claims 6-byte copy payload" (BST example S8). -/
theorem test_decode_copy : decode (.bytes [0b00000101#8]) = .instr (.copy 6) [] := by decide
/-- Header `3F` is a copy of 64 (vectors, section 3). -/
theorem test_decode_copy_sixty_four : decode (.bytes [0b00111111#8]) = .instr (.copy 64) [] := by decide
/-- `op = 0` selects ENCODE (R61). -/
theorem test_decode_encode :
    decode (.record { toCallArgs := args 5 7, op := 0b0#1 }) = .instr (.encode (args 5 7)) [] := by decide
/-- `op = 1` selects DECODE (R61). -/
theorem test_decode_decode :
    decode (.record { toCallArgs := args 5 7, op := 0b1#1 }) = .instr (.decode (args 5 7)) [] := by decide
/-- No header, no token (R57). -/
theorem test_decode_nothing : decode (.bytes []) = .rejected .noHeader := by decide
/-- A token from a word of the opcode table. -/
theorem test_table_word : decodeTableWord 8 0xFF = some (.run 2) := by decide
/-- A command from the one bit of its row. -/
theorem test_table_word_command : decodeTableWord 1 1 = some (.decode (args 0 0)) := by decide

/-! ## One step each -/

/-- Vector E10. -/
theorem test_encode_copy_run_copy :
    resultIn (exec (.encode (args 4 6)) (idle [0x41#8, 0x42#8, 0x42#8, 0x43#8])) =
      some (resultOf Config.stOk [0x00#8, 0x41#8, 0xFF#8, 0x42#8, 0x00#8, 0x43#8]) := by decide

/-- Vector F9: the second token does not fit, and `DST[2]` keeps its byte. -/
theorem test_encode_cut :
    (match exec (.encode (args 4 3)) (idle [0x41#8, 0x42#8, 0x42#8, 0x43#8]) with
      | .next t => decide (t.result = resultOf Config.stDstWriteError [0x00#8, 0x41#8] ∧ t.dst.read 2 = 0xEE#8)
      | _ => false) = true := by decide

/-- Vector G9. -/
theorem test_decode_three_tokens :
    resultIn (exec (.decode (args 7 6)) (idle [0x00#8, 0x41#8, 0xFE#8, 0x42#8, 0x01#8, 0x43#8, 0x44#8])) =
      some (resultOf Config.stOk [0x41#8, 0x42#8, 0x42#8, 0x42#8, 0x43#8, 0x44#8]) := by decide

/-- Vector K2: the third token is truncated and does not fit. -/
theorem test_decode_truncated_and_too_large :
    resultIn (exec (.decode (args 6 4)) (idle [0x00#8, 0x41#8, 0xFE#8, 0x42#8, 0x01#8, 0x43#8])) =
      some (resultOf Config.stSrcDecodeError [0x41#8, 0x42#8, 0x42#8, 0x42#8]) := by decide

/-- The second token of vector G10, whose symbol goes to `DST[2, 5)`; `rd` advances by 2, `out_len` by 3. -/
theorem test_run :
    (match exec (.run 3) (decoding [0xFE#8, 0x42#8] 2 5) with
      | .next t =>
        decide (t.dst.slice 0 6 = [0xEE#8, 0xEE#8, 0x42#8, 0x42#8, 0x42#8, 0x00#8] ∧ t.rd = 2 ∧ t.outLen = 5 ∧ t.busy)
      | _ => false) = true := by decide

/-- Vector J1: not even one byte of a run that does not fit is written. -/
theorem test_run_no_room :
    (match exec (.run 2) (decoding [0xFF#8, 0xAA#8] 0 1) with
      | .next t => decide (t.result = resultOf Config.stDstWriteError [] ∧ t.dst.read 0 = 0xEE#8 ∧ ¬t.busy)
      | _ => false) = true := by decide

/-- Vector G8: payload bytes that look like headers are data; `rd` advances by 4. -/
theorem test_copy :
    (match exec (.copy 3) (decoding [0x02#8, 0x80#8, 0xFF#8, 0x00#8] 0 3) with
      | .next t => decide (t.dst.slice 0 4 = [0x80#8, 0xFF#8, 0x00#8, 0xEE#8] ∧ t.rd = 4 ∧ t.outLen = 3 ∧ t.busy)
      | _ => false) = true := by decide

/-- Vector H6: the one payload byte that is there is not copied. -/
theorem test_copy_truncated :
    (match exec (.copy 2) (decoding [0x01#8, 0x41#8] 0 10) with
      | .next t => decide (t.result = resultOf Config.stSrcDecodeError [] ∧ t.dst.read 0 = 0xEE#8 ∧ ¬t.busy)
      | _ => false) = true := by decide

/-! ## Memory, reset, the host -/

theorem test_memory_canonical : hold [0x00#8, 0x05#8] = [(1, 0x05#8)] := by decide
theorem test_memory_erase : Memory.write [(1, 0x05#8)] 1 0x00#8 = [] := by decide
/-- `busy` is 0 after reset (R24). -/
theorem test_reset_idle : State.reset.busy = false := by decide
/-- A token laid where the next step fetches it runs at that step (log 14). -/
theorem test_fetch_token :
    (match step (State.reset.withFetchWord 8 0x05) with
      | .next t => decide (t.rd = 7 ∧ t.outLen = 6 ∧ t.tmp.h = 0x05#8)
      | _ => false) = true := by decide
/-- A command with no buffers ends with `INVALID_ARGUMENT` (vector V2). -/
theorem test_fetch_command :
    (match step (State.reset.withFetchWord 1 0) with
      | .next t => decide (t.status = Config.stInvalidArgument ∧ t.resultDefined)
      | _ => false) = true := by decide
/-- A read of the result right after reset is a draw: something is read, and the next draw is the next one (R24). -/
theorem test_result_draw :
    (match step { State.reset with host := [.readResult] } with
      | .next t => t.lastRead.isSome && t.freeIndex == 1
      | _ => false) = true := by decide
/-- The host may not write SRC during a call (R45). -/
theorem test_host_write_refused :
    step { decoding [0x05#8] 0 9 with host := [.writeSrc 0 0x00#8] } = .refused .hostWriteDuringCall := rfl

/-! ## Witnesses: states and operands that meet the hypotheses of the obligations

One theorem for each obligation with hypotheses, one conjunct for each clause, at the ends of its range. -/

theorem witness_RunHeaderCarriesLength :
    ((0x80#8).getLsbD 7 = true ∧ (0xFF#8).getLsbD 7 = true) ∧ (2 ≤ 2 ∧ 2 ≤ 129) ∧ (2 ≤ 129 ∧ 129 ≤ 129) := by decide

theorem witness_CopyHeaderCarriesLength :
    ((0x00#8).getLsbD 7 = false ∧ (0x7F#8).getLsbD 7 = false) ∧ (1 ≤ 1 ∧ 1 ≤ 128) ∧ (1 ≤ 128 ∧ 128 ≤ 128) := by decide

theorem witness_DecodeUndoesEncode :
    (Instr.run 129).wf = true ∧ (Instr.copy 128).wf = true ∧ (Instr.encode (args 0 0)).wf = true ∧
      (Instr.decode (args 0 0)).wf = true := by decide

theorem witness_EveryEncodingIsOneInstruction :
    (Instr.run 2).wf = true ∧ encode (.run 2) = .bytes [0xFF#8] ∧
      (Instr.copy 1).wf = true ∧ encode (.copy 1) = .bytes [0x00#8] := by decide

theorem witness_TokenSizes :
    (Token.run 2 0x7A#8).wf = true ∧ (Token.run 129 0x7A#8).wf = true ∧ (Token.copy [0x05#8]).wf = true ∧
      (Token.copy (List.replicate 128 0x05#8)).wf = true := by decide +kernel

theorem witness_WireGrammarParses :
    (∀ t ∈ [Token.run 2 0x41#8, Token.copy [0x42#8]], t.wf = true) ∧
      parseStream [0xFF#8, 0x41#8, 0x00#8, 0x42#8] = some [Token.run 2 0x41#8, Token.copy [0x42#8]] := by decide

theorem witness_TruncationIsTheOnlyMalformation :
    129 * [0xFF#8].length ≤ 129 ∧ parseStream [0xFF#8] = none ∧ headerKind 0xFF#8 = .run ∧
      parseStream [0x01#8, 0x41#8] = none ∧ headerKind 0x01#8 = .copy ∧ [0x41#8].length < headerLength .copy 0x01#8 := by
  decide

/-- The `DECODE` call of vector G9 as it begins. -/
def g9 : State := decoding [0x00#8, 0x41#8, 0xFE#8, 0x42#8, 0x01#8, 0x43#8, 0x44#8] 0 6

theorem witness_StepRunsDecodedInstruction :
    ({ idle [] with host := [.issue .blocking { toCallArgs := args 1 1, op := 1#1 }] }.host =
        .issue .blocking { toCallArgs := args 1 1, op := 1#1 } :: [] ∧
      decode (.record { toCallArgs := args 1 1, op := 1#1 }) = .instr (.decode (args 1 1)) []) ∧
    (g9.host = [] ∧ g9.busy = true ∧ g9.cmd.op = Config.opDecode ∧ g9.rd < g9.cmd.srcLen ∧
      decode (.bytes (g9.src.slice g9.rd (g9.cmd.srcLen - g9.rd))) =
        .instr (.copy 1) [0x41#8, 0xFE#8, 0x42#8, 0x01#8, 0x43#8, 0x44#8]) ∧
    ({ g9 with host := [.pass] }.host = .pass :: []) ∧
    ((idle []).host = [] ∧ (idle []).busy = false) := by decide

/-- The same call with all its tokens done. -/
def g9End : State := { g9 with rd := 7, outLen := 6 }

theorem ready_of (a : CallArgs) (s : State) (h : s.busy = false ∧ argsInvalid a = false ∧ s.overlap = false ∧ s.dst.wf) :
    Ready a s := h

theorem witness_StreamEndIsTheOnlySuccess :
    (g9End.host = [] ∧ g9End.busy = true ∧ g9End.cmd.op = Config.opDecode ∧ g9End.rd = g9End.cmd.srcLen ∧
      ∃ t, step g9End = .next t ∧ t.busy = false ∧ t.status = Config.stOk) ∧
    (Ready (args 2 2) (idle [0xFF#8, 0xAA#8]) ∧
      ∃ t, exec (.decode (args 2 2)) (idle [0xFF#8, 0xAA#8]) = .next t ∧ t.status = Config.stOk) :=
  ⟨⟨rfl, rfl, rfl, rfl, _, rfl, rfl, rfl⟩, ready_of _ _ (by decide), _, rfl, rfl⟩

theorem witness_InvalidArgumentsEndTheCall :
    (idle []).busy = false ∧ { args 7 9 with srcNull := true }.srcNull = true ∧ (args 0 16).srcLen = 0 ∧
      { args 4 1 with dstNull := true }.dstNull = true ∧ (args 4 0).dstCap = 0 := by decide

theorem witness_CommandWhileBusyHasNoEffect :
    g9.busy = true ∧
      { g9 with host := [.issue .start { toCallArgs := args 1 1, op := 0#1 }] }.host =
        .issue .start { toCallArgs := args 1 1, op := 0#1 } :: [] := by decide

theorem witness_OverlapIsRefused :
    { idle [] with overlap := true }.busy = false ∧ argsInvalid (args 1 1) = false ∧
      { idle [] with overlap := true }.overlap = true := by decide

/-- An idle block to which a command is presented. -/
def presented (op : OpBit) : State :=
  { idle [0x05#8] with host := [.issue .start { toCallArgs := args 1 2, op := op }] }

theorem witness_CallStartSetsWorkingRegisters :
    (Ready (args 1 2) (presented Config.opEncode) ∧
      (presented Config.opEncode).host = .issue .start { toCallArgs := args 1 2, op := Config.opEncode } :: []) ∧
    (Ready (args 1 2) (presented Config.opDecode) ∧
      (presented Config.opDecode).host = .issue .start { toCallArgs := args 1 2, op := Config.opDecode } :: []) :=
  ⟨⟨ready_of _ _ (by decide), rfl⟩, ready_of _ _ (by decide), rfl⟩

theorem witness_RaiseWritesResultAndStops :
    Config.stInvalidArgument = Config.stInvalidArgument ∧ Config.stDstWriteError ≠ Config.stInvalidArgument := by decide

theorem witness_CallStatusValues :
    (idle [0x05#8]).busy = false ∧ (∃ t, exec (.encode (args 1 2)) (idle [0x05#8]) = .next t) ∧
      ∃ t, exec (.decode (args 1 2)) (idle [0x05#8]) = .next t :=
  ⟨rfl, ⟨_, rfl⟩, _, rfl⟩

theorem witness_CommandFrame :
    (idle [0x05#8]).dst.wf ∧
      (∃ t, exec (.encode (args 1 2)) (idle [0x05#8]) = .next t ∧ (idle [0x05#8]).busy = false ∧ t.outputLength ≤ 2) ∧
      (∃ t, exec (.decode (args 1 2)) (idle [0x05#8]) = .next t ∧ t.outputLength ≤ 0) ∧
      ∃ t, exec (.encode (args 1 2)) g9 = .next t ∧ g9.busy = true :=
  ⟨by decide, ⟨_, rfl, rfl, by decide⟩, ⟨_, rfl, by decide⟩, _, rfl, rfl⟩

/-- A RUN header that is the last byte; one whose 2 bytes miss the room by one; one that fits exactly. -/
theorem witness_RunTokenExecutes :
    ((0xFF#8).getLsbD 7 = true) ∧
    ((decoding [0xFF#8] 0 9).dst.wf ∧ (decoding [0xFF#8] 0 9).cmd.srcLen - (decoding [0xFF#8] 0 9).rd < 2) ∧
    (2 ≤ (decoding [0xFF#8, 0xAA#8] 0 1).cmd.srcLen - (decoding [0xFF#8, 0xAA#8] 0 1).rd ∧
      (decoding [0xFF#8, 0xAA#8] 0 1).cmd.dstCap - (decoding [0xFF#8, 0xAA#8] 0 1).outLen < 2) ∧
    (2 ≤ (decoding [0xFF#8, 0xAA#8] 0 2).cmd.srcLen - (decoding [0xFF#8, 0xAA#8] 0 2).rd ∧
      2 ≤ (decoding [0xFF#8, 0xAA#8] 0 2).cmd.dstCap - (decoding [0xFF#8, 0xAA#8] 0 2).outLen) := by decide

/-- A COPY of 2 with one payload byte missing; one that misses the room by one; one that fits exactly. -/
theorem witness_CopyTokenExecutes :
    ((0x01#8).getLsbD 7 = false) ∧
    ((decoding [0x01#8, 0x41#8] 0 9).dst.wf ∧
      (decoding [0x01#8, 0x41#8] 0 9).cmd.srcLen - (decoding [0x01#8, 0x41#8] 0 9).rd < 2 + 1) ∧
    (2 + 1 ≤ (decoding [0x01#8, 0x41#8, 0x42#8] 0 1).cmd.srcLen - (decoding [0x01#8, 0x41#8, 0x42#8] 0 1).rd ∧
      (decoding [0x01#8, 0x41#8, 0x42#8] 0 1).cmd.dstCap - (decoding [0x01#8, 0x41#8, 0x42#8] 0 1).outLen < 2) ∧
    (2 + 1 ≤ (decoding [0x01#8, 0x41#8, 0x42#8] 0 2).cmd.srcLen - (decoding [0x01#8, 0x41#8, 0x42#8] 0 2).rd ∧
      2 ≤ (decoding [0x01#8, 0x41#8, 0x42#8] 0 2).cmd.dstCap - (decoding [0x01#8, 0x41#8, 0x42#8] 0 2).outLen) := by
  decide

/-- Vectors K1 and K4. -/
theorem witness_SourceCheckComesFirst :
    (noRoom 2 (decoding [0xFF#8] 0 1) = true ∧ truncated .run 2 (decoding [0xFF#8] 0 1) = true) ∧
    (noRoom 6 (decoding [0x05#8] 0 1) = true ∧ truncated .copy 6 (decoding [0x05#8] 0 1) = true) := by decide

/-! ### The encoder's scan -/

/-- `ScanInv`, for checking on a concrete state. -/
def scanOk (s : State) : Bool :=
  decide (1 ≤ s.i ∧ s.i ≤ s.cmd.srcLen) &&
  match s.mode with
  | .inCopy =>
    decide (s.segStart ≤ s.i ∧ s.i ≤ s.segStart + 128) &&
    (List.range s.i).all fun a => decide (a < s.segStart) || decide (s.i ≤ a + 1) || s.src.read a != s.src.read (a + 1)
  | .inRun =>
    decide (s.segStart + 2 ≤ s.i ∧ s.i + 1 ≤ s.segStart + 129) &&
    (List.range s.i).all fun a => decide (a < s.segStart) || s.src.read a == s.src.read s.segStart

theorem scanInv_of (s : State) (ok : scanOk s = true) : ScanInv s := by
  rw [scanOk, Bool.and_eq_true, decide_eq_true_eq] at ok
  obtain ⟨range, ok⟩ := ok
  refine ⟨range.1, range.2, fun m => ?_, fun m => ?_⟩
  · simp only [m, Bool.and_eq_true, decide_eq_true_eq, List.all_eq_true, List.mem_range, Bool.or_eq_true,
      bne_iff_ne] at ok
    refine ⟨ok.1.1, ok.1.2, fun a h1 h2 => ?_⟩
    rcases ok.2 a (by omega) with (h | h) | h
    · omega
    · omega
    · exact h
  · simp only [m, Bool.and_eq_true, decide_eq_true_eq, List.all_eq_true, List.mem_range, Bool.or_eq_true,
      beq_iff_eq] at ok
    refine ⟨ok.1.1, ok.1.2, fun a h1 h2 => ?_⟩
    rcases ok.2 a h2 with h | h
    · omega
    · exact h

theorem wf_nil : Memory.wf [] := by decide

theorem scanning_of (src : Memory) (len : Nat) (m : Mode) (seg i cap : Nat)
    (ok : scanOk (scanning src len m seg i cap) = true) : Scanning (scanning src len m seg i cap) :=
  ⟨rfl, rfl, rfl, wf_nil, scanInv_of _ ok⟩

/-- SRC `41 42 43`, SRC `41 42 42` and SRC `41 41 42` of the vectors of section 4.1. -/
def src123 : Memory := hold [0x41#8, 0x42#8, 0x43#8]
def src122 : Memory := hold [0x41#8, 0x42#8, 0x42#8]
def src112 : Memory := hold [0x41#8, 0x41#8, 0x42#8]

theorem scanning_first : Scanning (scanning src123 3 .inCopy 0 1 9) :=
  scanning_of _ _ _ _ _ _ (by decide)

/-- Different bytes in `InCopy`, at one confirmed byte and at 127; and the byte after a run cut at 129 (R91). -/
theorem witness_ScanKeepsCopySegment :
    (Scanning (scanning src123 3 .inCopy 0 1 9) ∧ src123.read 1 ≠ src123.read 0 ∧ 1 - 0 < 128) ∧
    (Scanning (scanning (alternating 64) 129 .inCopy 0 127 9) ∧ (alternating 64).read 127 ≠ (alternating 64).read 126 ∧
      127 - 0 < 128) ∧
    (Scanning (scanning [] 131 .inCopy 129 129 9) ∧ Memory.read [] 129 = Memory.read [] 128) :=
  ⟨⟨scanning_first, by decide⟩,
    ⟨scanning_of _ _ _ _ _ _ (by decide +kernel), by decide⟩,
    scanning_of _ _ _ _ _ _ (by decide +kernel), rfl⟩

/-- A run that starts at byte 0, with an empty copy before it; one that starts at byte 1, after a copy of one byte. -/
theorem witness_ScanCopyToRun :
    (Scanning (scanning src112 3 .inCopy 0 1 9) ∧ src112.read 1 = src112.read 0 ∧ 0 = 1 - 1) ∧
    (Scanning (scanning src122 3 .inCopy 0 2 9) ∧ src122.read 2 = src122.read 1 ∧ 0 < 2 - 1) :=
  ⟨⟨scanning_of _ _ _ _ _ _ (by decide), by decide⟩,
    scanning_of _ _ _ _ _ _ (by decide), by decide⟩

/-- The end of a run of 2; a run that grows to 128 bytes. -/
theorem witness_ScanRunToCopy :
    (Scanning (scanning src112 3 .inRun 0 2 9) ∧ src112.read 2 ≠ src112.read 1) ∧
    (Scanning (scanning [] 130 .inRun 0 127 9) ∧ Memory.read [] 127 = Memory.read [] 126 ∧ 127 + 1 - 0 < 129) :=
  ⟨⟨scanning_of _ _ _ _ _ _ (by decide), by decide⟩,
    scanning_of _ _ _ _ _ _ (by decide +kernel), rfl, by decide⟩

/-- A run that reaches 129 bytes; a copy that reaches 128. -/
theorem witness_ScanCutsAtTheCaps :
    (Scanning (scanning [] 130 .inRun 0 128 9) ∧ Memory.read [] 128 = Memory.read [] 127 ∧ 128 + 1 - 0 = 129) ∧
    (Scanning (scanning (alternating 64) 129 .inCopy 0 128 9) ∧
      (alternating 64).read 128 ≠ (alternating 64).read 127 ∧ 128 - 0 = 128) :=
  ⟨⟨scanning_of _ _ _ _ _ _ (by decide +kernel), rfl, by decide⟩,
    scanning_of _ _ _ _ _ _ (by decide +kernel), by decide⟩

/-- A run open at the end of SRC, a copy open, and nothing open. -/
theorem witness_FlushEndsTheCall :
    Scanning (scanning [] 2 .inRun 0 2 9) ∧ (Scanning (scanning src123 3 .inCopy 0 3 9) ∧ 0 < 3) ∧
      Scanning (scanning [] 129 .inCopy 129 129 9) :=
  ⟨scanning_of _ _ _ _ _ _ (by decide),
    ⟨scanning_of _ _ _ _ _ _ (by decide), by decide⟩,
    scanning_of _ _ _ _ _ _ (by decide +kernel)⟩

/-- Room for the token missed by one byte, and met, for both kinds. -/
theorem witness_EmitWritesWholeTokenOrNothing :
    ((scanning [] 2 .inRun 0 2 1).dst.wf ∧ 1 ≤ 2 ∧ 0 + 2 ≤ (scanning [] 2 .inRun 0 2 1).cmd.srcLen) ∧
    ((scanning [] 2 .inRun 0 2 1).cmd.dstCap - (scanning [] 2 .inRun 0 2 1).outLen < 2) ∧
    (2 ≤ (scanning [] 2 .inRun 0 2 2).cmd.dstCap - (scanning [] 2 .inRun 0 2 2).outLen) ∧
    ((scanning src123 3 .inCopy 0 3 3).cmd.dstCap - (scanning src123 3 .inCopy 0 3 3).outLen < 3 + 1) ∧
    (3 + 1 ≤ (scanning src123 3 .inCopy 0 3 4).cmd.dstCap - (scanning src123 3 .inCopy 0 3 4).outLen) := by decide

/-! ### Whole calls -/

/-- `41 42 42 43`, the input of vector E10. -/
def e10 : State := idle [0x41#8, 0x42#8, 0x42#8, 0x43#8]

theorem ready_e10 (cap : Nat) (h : argsInvalid (args 4 cap) = false) : Ready (args 4 cap) e10 :=
  ⟨rfl, h, rfl, by decide⟩

theorem witness_EncodeComputesEnc : Ready (args 4 6) e10 := ready_e10 6 (by decide)

theorem witness_DecodeComputesDec : Ready (args 2 2) (idle [0xFF#8, 0xAA#8]) := ready_of _ _ (by decide)

/-- Exactly enough room, and one byte less. -/
theorem witness_EncodeCutsAtFirstMisfit :
    (Ready (args 4 6) e10 ∧ (streamBytes (seg (sourceBytes (args 4 6) e10))).length ≤ 6) ∧
    (Ready (args 4 5) e10 ∧ 5 < (streamBytes (seg (sourceBytes (args 4 5) e10))).length) :=
  ⟨⟨ready_e10 6 (by decide), by decide⟩, ready_e10 5 (by decide), by decide⟩

theorem witness_SmallestDestination :
    (Ready (args 1 1) (idle [0x05#8]) ∧ (args 1 1).dstCap = 1) ∧
    (Ready (args 2 2) (idle [0xAA#8, 0xAA#8]) ∧ (args 2 2).dstCap = 2) ∧
    (Ready (args 2 2) (idle [0x41#8, 0x42#8]) ∧ (args 2 2).dstCap = 2) :=
  ⟨⟨ready_of _ _ (by decide), rfl⟩, ⟨ready_of _ _ (by decide), rfl⟩, ready_of _ _ (by decide), rfl⟩

theorem witness_EqualBytesSplitAtTheRunCap : 0 < 129 ∧ 1 < 129 ∧ 128 < 129 := by decide

theorem witness_OutputSizeBounds :
    [0x05#8] ≠ ([] : List Byte) ∧ 1 ≤ 1 ∧ Ready (args 4 6) e10 ∧ (4 * 4 + 2) / 3 ≤ 6 :=
  ⟨by decide, by decide, ready_e10 6 (by decide), by decide⟩

theorem witness_EncoderIsNotMinimal : (0x41#8 ≠ 0x42#8 ∧ 0x42#8 ≠ 0x43#8) := by decide

theorem witness_RoundTrip :
    Ready (args 2 2) (idle [0xAA#8, 0xAA#8]) ∧ Ready (args 2 2) (idle [0xFF#8, 0xAA#8]) ∧
    ∃ t, exec (.encode (args 2 2)) (idle [0xAA#8, 0xAA#8]) = .next t ∧ t.status = Config.stOk ∧
      (args 2 2).srcLen = t.outputLength ∧ (args 2 2).srcLen ≤ (args 2 2).dstCap ∧
      sourceBytes (args 2 2) (idle [0xFF#8, 0xAA#8]) = t.result.output :=
  ⟨ready_of _ _ (by decide), ready_of _ _ (by decide), _, rfl, rfl, rfl, by decide, by decide⟩

theorem witness_WellFormedStreamsDecode :
    Ready (args 2 2) (idle [0xFF#8, 0xAA#8]) ∧ (∀ t ∈ [Token.run 2 0xAA#8], t.wf = true) ∧
      sourceBytes (args 2 2) (idle [0xFF#8, 0xAA#8]) = streamBytes [Token.run 2 0xAA#8] ∧
      (streamMeaning [Token.run 2 0xAA#8]).length ≤ (args 2 2).dstCap :=
  ⟨ready_of _ _ (by decide), by decide, by decide, by decide⟩

/-- Vectors H8 and J6: a truncated token after a whole one; a whole token too large for what is left. -/
theorem witness_DecodeStopsAtFirstBadToken :
    (Ready (args 3 10) (idle [0x00#8, 0x41#8, 0xFF#8]) ∧ (∀ t ∈ [Token.copy [0x41#8]], t.wf = true) ∧
      sourceBytes (args 3 10) (idle [0x00#8, 0x41#8, 0xFF#8]) = streamBytes [Token.copy [0x41#8]] ++ 0xFF#8 :: [] ∧
      (streamMeaning [Token.copy [0x41#8]]).length ≤ 10 ∧
      0 + 1 < tokenSize (headerKind 0xFF#8) (headerLength (headerKind 0xFF#8) 0xFF#8)) ∧
    (Ready (args 4 4) (idle [0xFF#8, 0x41#8, 0xFE#8, 0x42#8]) ∧ (∀ t ∈ [Token.run 2 0x41#8], t.wf = true) ∧
      sourceBytes (args 4 4) (idle [0xFF#8, 0x41#8, 0xFE#8, 0x42#8]) =
        streamBytes [Token.run 2 0x41#8] ++ 0xFE#8 :: [0x42#8] ∧
      (streamMeaning [Token.run 2 0x41#8]).length ≤ 4 ∧
      tokenSize (headerKind 0xFE#8) (headerLength (headerKind 0xFE#8) 0xFE#8) ≤ 1 + 1 ∧
      4 < (streamMeaning [Token.run 2 0x41#8]).length + headerLength (headerKind 0xFE#8) 0xFE#8) :=
  ⟨⟨ready_of _ _ (by decide), by decide, by decide, by decide, by decide⟩,
    ready_of _ _ (by decide), by decide, by decide, by decide, by decide, by decide⟩

/-- Vector G1 (an even length) and a single COPY of 2 (an odd one). -/
theorem witness_DecodeSizeBounds :
    ([0xFF#8, 0xAA#8] ≠ [] ∧ (dec [0xFF#8, 0xAA#8] 2).status = Config.stOk ∧ [0xFF#8, 0xAA#8].length % 2 = 0) ∧
    ([0x01#8, 0x41#8, 0x42#8] ≠ [] ∧ (dec [0x01#8, 0x41#8, 0x42#8] 2).status = Config.stOk ∧
      [0x01#8, 0x41#8, 0x42#8].length % 2 = 1) := by decide

/-! ### The whole machine -/

/-- A `DECODE` call right after its start is sound. -/
theorem inv_decoding : Inv g9 := by
  refine ⟨⟨by decide, by decide, by decide⟩, ⟨by decide, fun h => absurd h (by decide)⟩, fun _ => ?_⟩
  refine ⟨by decide, by decide, fun _ _ => rfl, fun h => absurd h (by decide), fun _ => ⟨by decide, [], ?_, rfl, rfl⟩⟩
  exact fun t h => absurd h (List.not_mem_nil)

/-- An `ENCODE` call right after its start is sound. -/
def encoding : State := scanning src123 3 .inCopy 0 1 9

theorem inv_encoding : Inv encoding := by
  refine ⟨⟨by decide, by decide, by decide⟩, ⟨by decide, fun h => absurd h (by decide)⟩, fun _ => ?_⟩
  refine ⟨by decide, by decide, fun _ _ => rfl, fun _ => ⟨scanning_first.2.2.2.2, [], ?_, rfl, rfl⟩,
    fun h => absurd h (by decide)⟩
  exact fun t h => absurd h (List.not_mem_nil)

theorem witness_StepKeepsInv : (Inv g9 ∧ ∃ t, step g9 = .next t) ∧ (Inv encoding ∧ ∃ t, step encoding = .next t) :=
  ⟨⟨inv_decoding, _, rfl⟩, inv_encoding, _, rfl⟩

theorem witness_SoundStepNeverFaults : Inv g9 ∧ Inv encoding := ⟨inv_decoding, inv_encoding⟩

theorem witness_CallEndsWithinSourceLength : (Inv g9 ∧ g9.busy = true) ∧ (Inv encoding ∧ encoding.busy = true) :=
  ⟨⟨inv_decoding, rfl⟩, inv_encoding, rfl⟩

theorem witness_HandshakesAgree :
    (idle []).busy = false ∧ argsInvalid (args 0 1) = true ∧ argsInvalid (args 1 1) = false ∧ (idle []).overlap = false := by
  decide

/-- Two blocks that differ in DST and in a register but not in the source. -/
theorem witness_ResultDependsOnlyOnInputs :
    (idle [0x05#8]).busy = false ∧ { idle [0x05#8] with dst := [], rd := 9 }.busy = false ∧
      (idle [0x05#8]).overlap = false ∧ (idle [0x05#8]).dst.wf ∧ Memory.wf [] ∧
      sourceBytes (args 1 2) (idle [0x05#8]) = sourceBytes (args 1 2) { idle [0x05#8] with dst := [], rd := 9 } := by decide

theorem witness_SourceIsNeverWritten :
    (∃ t, step g9 = .next t) ∧ ∀ a b, g9.host.head? ≠ some (.writeSrc a b) :=
  ⟨⟨_, rfl⟩, fun _ _ => nofun⟩

theorem witness_ResultRecordStays :
    (idle []).busy = false ∧ (∀ hs c, (idle []).host.head? ≠ some (.issue hs c)) ∧ (idle []).host.head? ≠ some .reset ∧
      ∃ t, step (idle []) = .next t :=
  ⟨rfl, fun _ _ => nofun, nofun, _, rfl⟩

theorem witness_HostReads :
    ({ idle [] with resultDefined := true, host := [.readResult] }.busy = false ∧
      { idle [] with resultDefined := true, host := [.readResult] }.resultDefined = true ∧
      { idle [] with resultDefined := true, host := [.readResult] }.host = .readResult :: []) ∧
    ({ idle [] with host := [.readResult] }.busy = false ∧ { idle [] with host := [.readResult] }.resultDefined = false ∧
      { idle [] with host := [.readResult] }.host = .readResult :: []) ∧
    ({ idle [] with host := [.readDst 3] }.busy = false ∧ { idle [] with host := [.readDst 3] }.host = .readDst 3 :: []) ∧
    { g9 with host := [.readSrc 0] }.host = .readSrc 0 :: [] ∧ { g9 with host := [.readBusy] }.host = .readBusy :: [] := by decide

theorem witness_ResetWhileIdle :
    { idle [] with host := [.reset] }.busy = false ∧ { idle [] with host := [.reset] }.host = .reset :: [] := by decide

theorem witness_ResetDuringCall :
    Inv { g9 with host := [.reset] } ∧ { g9 with host := [.reset] }.busy = true ∧
      { g9 with host := [.reset] }.host = .reset :: [] :=
  ⟨inv_decoding, rfl, rfl⟩

end Sys2Proof.Tests
end

section
/-! SUPPORT. Headers and whole tokens as bytes, and how the relation `Stands` between a stream and its meaning grows by one
token (R25, R26). -/

namespace Sys2Proof.Machine

/-! ## Headers -/

theorem headerKind_eq_run_iff (h : Byte) : headerKind h = .run ↔ sint8 h < 0 := by
  have hmsb : h.getLsbD 7 = decide (h.toInt < 0) := by
    rw [← BitVec.msb_eq_toInt, BitVec.msb_eq_getLsbD_last]
  rw [headerKind, hmsb]
  simp [sint8]

theorem headerKind_eq_copy_iff (h : Byte) : headerKind h = .copy ↔ 0 ≤ sint8 h := by
  have hrun := headerKind_eq_run_iff h
  cases hk : headerKind h <;> simp_all

/-- A header carries a length of its kind's range (R52, R53). -/
theorem lengthOk_headerLength (h : Byte) : lengthOk (headerKind h) (headerLength (headerKind h) h) = true := by
  have hlo : -128 ≤ sint8 h := BitVec.le_toInt h
  have hhi : sint8 h < 128 := BitVec.toInt_lt
  cases hk : headerKind h with
  | run =>
    have := (headerKind_eq_run_iff h).1 hk
    rw [Laws.lengthOk_run, headerLength]
    omega
  | copy =>
    have := (headerKind_eq_copy_iff h).1 hk
    rw [Laws.lengthOk_copy, headerLength]
    omega

/-- Writing the header of the length a header carries gives the header back (R52, R53). -/
theorem headerByte_headerLength (h : Byte) : headerByte (headerKind h) (headerLength (headerKind h) h) = h := by
  have hbyte : byte (sint8 h) = h := BitVec.ofInt_toInt
  cases hk : headerKind h with
  | run =>
    have := (headerKind_eq_run_iff h).1 hk
    rw [headerByte, headerLength, show (1 - ((1 - sint8 h).toNat : Int)) = sint8 h by omega, hbyte]
  | copy =>
    have := (headerKind_eq_copy_iff h).1 hk
    rw [headerByte, headerLength, show (((sint8 h + 1).toNat : Int) - 1) = sint8 h by omega, hbyte]

theorem one_le_of_lengthOk {k : Kind} {n : Nat} (h : lengthOk k n = true) : 1 ≤ n := by
  cases k with
  | run => have := (Laws.lengthOk_run n).1 h; omega
  | copy => have := (Laws.lengthOk_copy n).1 h; omega

/-! ## The token whose payload stands at an index -/

/-- The token of kind `k` and length `n` whose payload stands in `m` from index `a` on: what the encoder emits for the
segment at `a`, and what the decoder reads with its header at `a - 1`. -/
def tokenAt (k : Kind) (a n : Nat) (m : Memory) : Token :=
  match k with
  | .run => .run n (m.read a)
  | .copy => .copy (m.slice a n)

@[simp] theorem tokenAt_wf (k : Kind) (a n : Nat) (m : Memory) : (tokenAt k a n m).wf = lengthOk k n := by
  cases k <;> simp [tokenAt, Token.wf]

theorem tokenAt_bytes (k : Kind) (a n : Nat) (s : State) :
    (tokenAt k a n s.src).bytes = headerByte k n :: segmentPayload k a n s := by
  cases k <;> simp [tokenAt, Token.bytes, segmentPayload]

@[simp] theorem tokenAt_bytes_length (k : Kind) (a n : Nat) (m : Memory) :
    (tokenAt k a n m).bytes.length = tokenSize k n := by
  cases k <;> simp [tokenAt, Token.bytes]

@[simp] theorem tokenAt_expand_length (k : Kind) (a n : Nat) (m : Memory) :
    (tokenExpand (tokenAt k a n m)).length = n := by
  cases k <;> simp [tokenAt, tokenExpand]

/-- The token behind its header is the bytes that stand there. -/
theorem tokenAt_bytes_eq_slice {k : Kind} {a n : Nat} {m : Memory} (h : headerByte k n = m.read a) :
    (tokenAt k (a + 1) n m).bytes = m.slice a (tokenSize k n) := by
  cases k <;> simp [tokenAt, Token.bytes, Memory.slice_succ, h]

/-- The bytes of a segment that can be emitted as a token of kind `k`: for a run, all equal. -/
def SegmentOf (k : Kind) (a n : Nat) (m : Memory) : Prop :=
  k = .run → ∀ x, a ≤ x → x < a + n → m.read x = m.read a

theorem segmentOf_copy {a n : Nat} {m : Memory} : SegmentOf .copy a n m := nofun

/-- The token of a segment expands to the segment. -/
theorem SegmentOf.expand {k : Kind} {a n : Nat} {m : Memory} (h : SegmentOf k a n m) :
    tokenExpand (tokenAt k a n m) = m.slice a n := by
  cases k with
  | copy => rfl
  | run =>
    refine (List.eq_replicate_iff.2 ⟨by simp, fun b hb => ?_⟩).symm
    obtain ⟨x, hx, rfl⟩ := List.mem_map.1 hb
    rw [List.mem_range'_1] at hx
    exact h rfl x hx.1 hx.2

/-! ## Slices after a write -/

theorem slice_writeBytes_before {m : Memory} (hm : m.wf) (bs : List Byte) (pos : Nat) :
    (writeBytes bs pos m).slice 0 pos = m.slice 0 pos :=
  Memory.slice_congr fun x _ hx => by rw [read_writeBytes hm, if_neg (by omega)]

theorem slice_writeBytes_same {m : Memory} (hm : m.wf) (bs : List Byte) (pos : Nat) :
    (writeBytes bs pos m).slice pos bs.length = bs := by
  refine List.ext_getElem? fun k => ?_
  rcases Nat.lt_or_ge k bs.length with hk | hk
  · rw [Memory.getElem?_slice _ _ _ _ hk, read_writeBytes hm]
    simp [hk]
  · rw [List.getElem?_eq_none (by simpa using hk), List.getElem?_eq_none hk]

theorem read_writeBytes_past {m : Memory} (hm : m.wf) {bs : List Byte} {pos x : Nat} (h : pos + bs.length ≤ x) :
    (writeBytes bs pos m).read x = m.read x := by
  rw [read_writeBytes hm, if_pos (by omega), List.getElem?_eq_none (by omega), Option.getD_none]

/-! ## Streams and their meanings -/

theorem stands_zero (wire raw : Memory) : Stands wire 0 raw 0 := ⟨[], by simp, rfl, rfl⟩

/-- One token more on both sides. -/
theorem Stands.snoc {wire raw : Memory} {m n k j : Nat} {tok : Token} (h : Stands wire m raw n) (hw : tok.wf = true)
    (hb : tok.bytes = wire.slice m k) (he : tokenExpand tok = raw.slice n j) : Stands wire (m + k) raw (n + j) := by
  obtain ⟨ts, hts, hbytes, hmean⟩ := h
  refine ⟨ts ++ [tok], ?_, ?_, ?_⟩
  · simpa [or_imp, forall_and] using ⟨hts, hw⟩
  · rw [Memory.slice_add, Nat.zero_add, ← hbytes, ← hb]
    simp [streamBytes]
  · rw [Memory.slice_add, Nat.zero_add, ← hmean, ← he]
    simp [streamMeaning]

/-- `Stands` speaks of the bytes below its two bounds only. -/
theorem Stands.congr {wire wire' raw raw' : Memory} {m n : Nat} (h : Stands wire m raw n)
    (hw : wire'.slice 0 m = wire.slice 0 m) (hr : raw'.slice 0 n = raw.slice 0 n) : Stands wire' m raw' n := by
  unfold Stands at h ⊢
  rwa [hw, hr]

/-- The encoder's side: writing a token's bytes behind the stream adds what it stands for. -/
theorem Stands.write_wire {wire raw : Memory} {m n j : Nat} {tok : Token} (h : Stands wire m raw n) (hwf : wire.wf)
    (hw : tok.wf = true) (he : tokenExpand tok = raw.slice n j) :
    Stands (writeBytes tok.bytes m wire) (m + tok.bytes.length) raw (n + j) :=
  (h.congr (slice_writeBytes_before hwf _ _) rfl).snoc hw (slice_writeBytes_same hwf _ _).symm he

/-- The decoder's side: writing the expansion of the next token behind the meaning of the stream before it. -/
theorem Stands.write_raw {wire raw : Memory} {m n k : Nat} {tok : Token} (h : Stands wire m raw n) (hwf : raw.wf)
    (hw : tok.wf = true) (hb : tok.bytes = wire.slice m k) :
    Stands wire (m + k) (writeBytes (tokenExpand tok) n raw) (n + (tokenExpand tok).length) :=
  (h.congr rfl (slice_writeBytes_before hwf _ _)).snoc hw hb (slice_writeBytes_same hwf _ _).symm

end Sys2Proof.Machine
end

section
/-! SUPPORT. The invariant `Inv`, part by part, and how a call's start, its writes and its end keep it. -/

namespace Sys2Proof.Machine

/-! ## The parts of the invariant -/

/-- What `CallInv` says of either engine's output: valid arguments, `out_len` within the capacity, DST beyond it as before
the call (R37). -/
def OutputInv (s : State) : Prop :=
  argsInvalid s.cmd.toCallArgs = false ∧ s.outLen ≤ s.cmd.dstCap ∧ ∀ a, s.outLen ≤ a → s.dst.read a = s.dstBefore.read a

theorem OutputInv.le_cap {s : State} (h : OutputInv s) : s.outLen ≤ s.cmd.dstCap := by
  obtain ⟨-, hout, -⟩ := h
  exact hout

theorem callInv_encode_iff {s : State} (ho : s.cmd.op = Config.opEncode) :
    CallInv s ↔ OutputInv s ∧ ScanInv s ∧ Stands s.dst s.outLen s.src s.segStart := by
  simp [CallInv, OutputInv, ho, and_assoc]

theorem callInv_decode_iff {s : State} (ho : s.cmd.op = Config.opDecode) :
    CallInv s ↔ OutputInv s ∧ s.rd ≤ s.cmd.srcLen ∧ Stands s.src s.rd s.dst s.outLen := by
  simp [CallInv, OutputInv, ho, opEncode_ne_opDecode.symm, and_assoc]

theorem MemoryInv.dst_wf {s : State} (h : MemoryInv s) : s.dst.wf := by
  obtain ⟨-, hdst, -⟩ := h
  exact hdst

theorem Inv.memoryInv {s : State} (h : Inv s) : MemoryInv s := by
  obtain ⟨hmem, -, -⟩ := h
  exact hmem

theorem Inv.callInv {s : State} (h : Inv s) (hb : s.busy = true) : CallInv s := by
  obtain ⟨-, -, hcall⟩ := h
  exact hcall hb

theorem Inv.outputInv {s : State} (h : Inv s) (hb : s.busy = true) : OutputInv s := by
  obtain ⟨hargs, hout, hbeyond, -⟩ := h.callInv hb
  exact ⟨hargs, hout, hbeyond⟩

theorem Inv.scanInv {s : State} (h : Inv s) (hb : s.busy = true) (ho : s.cmd.op = Config.opEncode) : ScanInv s := by
  obtain ⟨-, hscan, -⟩ := (callInv_encode_iff ho).1 (h.callInv hb)
  exact hscan

theorem inv_of_idle {s : State} (hb : s.busy = false) (hmem : MemoryInv s) (hres : ResultInv s) : Inv s :=
  ⟨hmem, hres, fun h => absurd (hb.symm.trans h) (by decide)⟩

theorem scanInv_inCopy_iff {s : State} (hm : s.mode = .inCopy) :
    ScanInv s ↔ 1 ≤ s.i ∧ s.i ≤ s.cmd.srcLen ∧ s.segStart ≤ s.i ∧ s.i ≤ s.segStart + 128 ∧
      ∀ a, s.segStart ≤ a → a + 1 < s.i → s.src.read a ≠ s.src.read (a + 1) := by
  simp [ScanInv, hm, Config.maxCopy]

theorem scanInv_inRun_iff {s : State} (hm : s.mode = .inRun) :
    ScanInv s ↔ 1 ≤ s.i ∧ s.i ≤ s.cmd.srcLen ∧ s.segStart + 2 ≤ s.i ∧ s.i + 1 ≤ s.segStart + 129 ∧
      ∀ a, s.segStart ≤ a → a < s.i → s.src.read a = s.src.read s.segStart := by
  simp [ScanInv, hm, Config.minRun, Config.maxRun]

/-- A copy segment with no confirmed byte, or with one. -/
theorem scanInv_short_copy {s : State} (hm : s.mode = .inCopy) (h1 : 1 ≤ s.i) (hi : s.i ≤ s.cmd.srcLen)
    (hle : s.segStart ≤ s.i) (hshort : s.i ≤ s.segStart + 1) : ScanInv s :=
  (scanInv_inCopy_iff hm).2 ⟨h1, hi, hle, by omega, fun a ha hlt => absurd hlt (by omega)⟩

/-! ## The end of a call -/

theorem inv_endCall {st : StatusBits} {len : Nat} {s : State} (hmem : MemoryInv s) (hst : statusOk st = true)
    (hlen : len ≤ s.cmd.dstCap) (hinv : st = Config.stInvalidArgument → len = 0)
    (henc : s.cmd.op = Config.opEncode → st ≠ Config.stSrcDecodeError) : Inv (endCall st len s) :=
  inv_of_idle rfl hmem ⟨hst, fun _ => ⟨rfl, hlen, hinv, henc⟩⟩

/-- The end of a call with success keeps the invariant (R76). -/
theorem inv_done {s : State} (hmem : MemoryInv s) (hout : s.outLen ≤ s.cmd.dstCap) : Inv (done s) :=
  inv_endCall hmem (by decide) hout (fun h => absurd h (by decide)) fun _ => by decide

/-- `raise` of any error but `INVALID_ARGUMENT` keeps the invariant (R144, R149). -/
theorem inv_raise {e : StatusBits} {s : State} (hmem : MemoryInv s) (hout : s.outLen ≤ s.cmd.dstCap)
    (he : e = Config.stDstWriteError ∨ e = Config.stSrcDecodeError ∧ s.cmd.op = Config.opDecode) : Inv (raise e s) := by
  rcases he with rfl | ⟨rfl, ho⟩
  · exact inv_endCall hmem (by decide) hout (fun h => absurd h (by decide)) fun _ => by decide
  · exact inv_endCall hmem (by decide) hout (fun h => absurd h (by decide)) fun h =>
      absurd (h.symm.trans ho) opEncode_ne_opDecode

theorem inv_raise_invalidArgument {s : State} (hmem : MemoryInv s) : Inv (raise Config.stInvalidArgument s) :=
  inv_endCall hmem (by decide) (Nat.zero_le _) (fun _ => rfl) fun _ => by decide

/-! ## The start of a call -/

@[simp] theorem initCall_status (s : State) : (initCall s).status = s.status := by unfold initCall; split <;> rfl
@[simp] theorem initCall_resultDefined (s : State) : (initCall s).resultDefined = s.resultDefined := by
  unfold initCall; split <;> rfl

theorem argsInvalid_eq_false {a : CallArgs} (h : argsInvalid a = false) : 1 ≤ a.srcLen ∧ 1 ≤ a.dstCap := by
  simp only [argsInvalid, Bool.or_eq_false_iff, beq_eq_false_iff_ne] at h
  omega

/-- A call that has just started meets the invariant of its engine (R25, R26). -/
theorem callInv_initCall {c : Command} (hargs : argsInvalid c.toCallArgs = false) (s : State) :
    CallInv (initCall (accept c s)) := by
  have hlen := (argsInvalid_eq_false hargs).1
  have hout : OutputInv (initCall (accept c s)) := ⟨by simpa using hargs, by simp, by simp⟩
  rcases op_cases c.op with ho | ho
  · have hstart : initCall (accept c s) =
        { accept c s with outLen := 0, segStart := 0, mode := .inCopy, i := 1 } := if_pos ho
    refine (callInv_encode_iff (by simpa using ho)).2 ⟨hout, ?_⟩
    rw [hstart]
    exact ⟨scanInv_short_copy rfl le_rfl hlen (Nat.zero_le _) le_rfl, stands_zero _ _⟩
  · have hstart : initCall (accept c s) = { accept c s with outLen := 0, rd := 0 } :=
      if_neg fun h => opEncode_ne_opDecode (h.symm.trans ho)
    refine (callInv_decode_iff (by simpa using ho)).2 ⟨hout, ?_⟩
    rw [hstart]
    exact ⟨Nat.zero_le _, stands_zero _ _⟩

theorem inv_initCall {c : Command} {s : State} (hs : Inv s) (hargs : argsInvalid c.toCallArgs = false) :
    Inv (initCall (accept c s)) := by
  obtain ⟨⟨hsrc, hdst, -⟩, ⟨hst, -⟩, -⟩ := hs
  refine ⟨⟨?_, ?_, ?_⟩, ⟨?_, ?_⟩, fun _ => callInv_initCall hargs s⟩
  · rwa [initCall_src]
  · rwa [initCall_dst]
  · rwa [initCall_dstBefore]
  · rwa [initCall_status]
  · rw [initCall_resultDefined]
    exact nofun

/-! ## Writes of a call -/

/-- Bytes that fit, written from `out_len` on, keep what `OutputInv` says. -/
theorem OutputInv.write {s t : State} {bs : List Byte} (h : OutputInv s) (hwf : s.dst.wf)
    (hroom : noRoom bs.length s = false) (hcmd : t.cmd = s.cmd) (hbefore : t.dstBefore = s.dstBefore)
    (hdst : t.dst = writeBytes bs s.outLen s.dst) (hlen : t.outLen = s.outLen + bs.length) : OutputInv t := by
  obtain ⟨hargs, hout, hbeyond⟩ := h
  refine ⟨by rw [hcmd, hargs], ?_, fun a ha => ?_⟩
  · rw [hcmd, hlen]
    rcases noRoom_eq_false hroom with h0 | h0 <;> omega
  · rw [hlen] at ha
    rw [hdst, hbefore, read_writeBytes_past hwf ha]
    exact hbeyond a (by omega)

end Sys2Proof.Machine
end

section
/-! SUPPORT. Every turn of the encoder engine keeps the invariant (R25, R87 to R95). -/

namespace Sys2Proof.Machine

/-! ## The open segment from one scan step to the next -/

theorem ScanInv.extend_copy {s : State} (h : ScanInv s) (hm : s.mode = .inCopy) (hi : s.i < s.cmd.srcLen)
    (hne : s.src.read s.i ≠ s.src.read (s.i - 1)) (hcap : s.i < s.segStart + 128) : ScanInv (setI (s.i + 1) s) := by
  obtain ⟨h1, -, hle, -, hpair⟩ := (scanInv_inCopy_iff hm).1 h
  refine Iff.mpr (scanInv_inCopy_iff hm) ⟨Nat.le_add_left _ _, hi, Nat.le_succ_of_le hle, hcap, fun a ha hlt => ?_⟩
  rcases Nat.lt_or_ge (a + 1) s.i with hold | hnew
  · exact hpair a ha hold
  · have hlt' : a + 1 < s.i + 1 := hlt
    obtain rfl : a = s.i - 1 := by omega
    rw [setI_src, Nat.sub_add_cancel h1]
    exact hne.symm

theorem ScanInv.extend_run {s : State} (h : ScanInv s) (hm : s.mode = .inRun) (hi : s.i < s.cmd.srcLen)
    (heq : s.src.read s.i = s.src.read (s.i - 1)) (hcap : s.i + 1 < s.segStart + 129) : ScanInv (setI (s.i + 1) s) := by
  obtain ⟨-, -, hle, -, hall⟩ := (scanInv_inRun_iff hm).1 h
  refine Iff.mpr (scanInv_inRun_iff hm) ⟨Nat.le_add_left _ _, hi, Nat.le_succ_of_le hle, hcap, fun a ha hlt => ?_⟩
  rcases Nat.lt_succ_iff_lt_or_eq.1 hlt with hold | rfl
  · exact hall a ha hold
  · exact heq.trans (hall (s.i - 1) (by omega) (by omega))

/-- A run of the two bytes that began it (R90). -/
theorem scanInv_new_run {s : State} (hm : s.mode = .inRun) (hi : s.i ≤ s.cmd.srcLen) (hlen : s.i = s.segStart + 2)
    (heq : s.src.read (s.segStart + 1) = s.src.read s.segStart) : ScanInv s := by
  refine (scanInv_inRun_iff hm).2 ⟨by omega, hi, by omega, by omega, fun a ha hlt => ?_⟩
  rcases Nat.eq_or_lt_of_le ha with rfl | ha
  · rfl
  · obtain rfl : a = s.segStart + 1 := by omega
    exact heq

/-! ## Emissions -/

theorem emitted_memoryInv {s : State} (h : MemoryInv s) (k : Kind) (a n : Nat) : MemoryInv (emitted k a n s) := by
  obtain ⟨hsrc, hdst, hbefore⟩ := h
  exact ⟨hsrc, writeBytes_wf hdst _ _, hbefore⟩

theorem emitted_outputInv {k : Kind} {a n : Nat} {s : State} (h : OutputInv s) (hwf : s.dst.wf)
    (hroom : noRoom (tokenSize k n) s = false) : OutputInv (emitted k a n s) :=
  h.write (bs := (tokenAt k a n s.src).bytes) hwf (by rwa [tokenAt_bytes_length]) rfl rfl
    (by rw [tokenAt_bytes, emitted_dst]) (by rw [tokenAt_bytes_length, emitted_outLen])

/-- After an emission of the open segment DST stands for SRC up to the segment's end (R25, item 2). -/
theorem emitted_stands {k : Kind} {n : Nat} {s : State} (h : Stands s.dst s.outLen s.src s.segStart) (hwf : s.dst.wf)
    (hn : lengthOk k n = true) (hseg : SegmentOf k s.segStart n s.src) :
    Stands (emitted k s.segStart n s).dst (emitted k s.segStart n s).outLen s.src (s.segStart + n) := by
  have hgrown := h.write_wire (tok := tokenAt k s.segStart n s.src) hwf (by rwa [tokenAt_wf]) hseg.expand
  rwa [tokenAt_bytes_length, tokenAt_bytes] at hgrown

/-- A scan step's emission keeps the invariant, when the segment it leaves open is as `ScanInv` says. -/
theorem emitThen_keeps_inv {k : Kind} {n seg : Nat} {m : Mode} {s t : State} (hs : Inv s) (hb : s.busy = true)
    (ho : s.cmd.op = Config.opEncode) (hn : lengthOk k n = true) (hsegment : SegmentOf k s.segStart n s.src)
    (hseg : seg = s.segStart + n) (hscan : ScanInv (setI (s.i + 1) (setSegment seg m s)))
    (h : emitThen k n seg m s = .next t) : Inv t := by
  obtain ⟨hmem, hres, hcall⟩ := hs
  obtain ⟨hout, -, hstands⟩ := (callInv_encode_iff ho).1 (hcall hb)
  unfold emitThen at h
  split at h
  · cases h
    exact inv_raise hmem hout.le_cap (.inl rfl)
  · next hroom =>
    cases h
    subst hseg
    refine ⟨emitted_memoryInv hmem _ _ _, hres, fun _ => Iff.mpr (callInv_encode_iff ho) ⟨?_, hscan, ?_⟩⟩
    · exact emitted_outputInv hout hmem.dst_wf (Bool.eq_false_iff.2 hroom)
    · exact emitted_stands hstands hmem.dst_wf hn hsegment

/-- The final flush keeps the invariant (R95). -/
theorem flushThen_keeps_inv {k : Kind} {n : Nat} {s t : State} (hs : Inv s) (hb : s.busy = true)
    (h : flushThen k n s = .next t) : Inv t := by
  have hout := hs.outputInv hb
  have hmem := hs.memoryInv
  unfold flushThen at h
  split at h
  · cases h
    exact inv_raise hmem hout.le_cap (.inl rfl)
  · next hroom =>
    cases h
    exact inv_done (emitted_memoryInv hmem _ _ _) (emitted_outputInv hout hmem.dst_wf (Bool.eq_false_iff.2 hroom)).le_cap

/-! ## The turns -/

/-- A scan step that emits nothing keeps the invariant, when the segment it leaves open is as `ScanInv` says. -/
theorem quiet_scan_keeps_inv {seg : Nat} {m : Mode} {e : Bool} {s : State} (hs : Inv s) (hb : s.busy = true)
    (ho : s.cmd.op = Config.opEncode) (hseg : seg = s.segStart)
    (hscan : ScanInv (setI (s.i + 1) (setSegment seg m s))) : Inv (setI (s.i + 1) (setSegment seg m (setEq e s))) := by
  obtain ⟨hmem, hres, hcall⟩ := hs
  obtain ⟨hout, -, hstands⟩ := (callInv_encode_iff ho).1 (hcall hb)
  subst hseg
  exact ⟨hmem, hres, fun _ => Iff.mpr (callInv_encode_iff ho) ⟨hout, hscan, hstands⟩⟩

section
variable {s t : State} (hs : Inv s) (hb : s.busy = true) (ho : s.cmd.op = Config.opEncode)
include hs hb ho

theorem encodeTick_inCopy_keeps_inv (hi : s.i < s.cmd.srcLen) (hm : s.mode = .inCopy)
    (h : encodeTick s = .next t) : Inv t := by
  have hscan := hs.scanInv hb ho
  obtain ⟨h1, -, hle, hcap, -⟩ := (scanInv_inCopy_iff hm).1 hscan
  have hpair : s.src.read s.i = s.src.read (s.i - 1) → s.src.read (s.i - 1 + 1) = s.src.read (s.i - 1) := by
    rw [Nat.sub_add_cancel h1]
    exact id
  rcases encodeTick_inCopy hb hi hscan hm with
    ⟨hne, hlt, e⟩ | ⟨-, hempty, e⟩ | ⟨heq, hone, e⟩ | ⟨heq, hmany, e⟩ | ⟨hne, hfull, e⟩ <;> rw [e] at h
  · cases h
    exact quiet_scan_keeps_inv hs hb ho rfl (hscan.extend_copy hm hi hne hlt)
  · cases h
    exact quiet_scan_keeps_inv hs hb ho rfl
      (scanInv_short_copy hm (Nat.le_add_left _ _) hi (Nat.le_succ_of_le hle) (by simp [hempty]))
  · cases h
    exact quiet_scan_keeps_inv hs hb ho (by omega)
      (scanInv_new_run rfl hi (by simp only [setI_i, setI_segStart, setSegment_segStart]; omega) (hpair heq))
  · refine emitThen_keeps_inv (s := setEq true s) hs hb ho ((Laws.lengthOk_copy _).2 (by omega)) segmentOf_copy
      (by rw [setEq_segStart]; omega) ?_ h
    exact scanInv_new_run rfl hi (by simp only [setI_i, setI_segStart, setSegment_segStart, setEq_i]; omega) (hpair heq)
  · refine emitThen_keeps_inv (s := setEq false s) hs hb ho (by decide) segmentOf_copy hfull ?_ h
    exact scanInv_short_copy rfl (Nat.le_add_left _ _) hi (Nat.le_succ _) le_rfl

theorem encodeTick_inRun_keeps_inv (hi : s.i < s.cmd.srcLen) (hm : s.mode = .inRun)
    (h : encodeTick s = .next t) : Inv t := by
  have hscan := hs.scanInv hb ho
  obtain ⟨-, -, hle, hcap, hall⟩ := (scanInv_inRun_iff hm).1 hscan
  rcases encodeTick_inRun hb hi hscan hm with ⟨heq, hlt, e⟩ | ⟨heq, hfull, e⟩ | ⟨-, e⟩ <;> rw [e] at h
  · cases h
    exact quiet_scan_keeps_inv hs hb ho rfl (hscan.extend_run hm hi heq hlt)
  · refine emitThen_keeps_inv (s := setEq true s) hs hb ho (by decide) (fun _ a ha hlt => ?_) hfull ?_ h
    · rcases Nat.lt_or_ge a s.i with hold | hnew
      · exact hall a ha hold
      · obtain rfl : a = s.i := by rw [setEq_segStart] at hlt; omega
        exact heq.trans (hall (s.i - 1) (by omega) (by omega))
    · exact scanInv_short_copy rfl (Nat.le_add_left _ _) hi le_rfl (Nat.le_succ _)
  · refine emitThen_keeps_inv (s := setEq false s) hs hb ho ((Laws.lengthOk_run _).2 (by omega))
      (fun _ a ha hlt => hall a ha (by rw [setEq_segStart] at hlt; omega)) (by rw [setEq_segStart]; omega) ?_ h
    exact scanInv_short_copy rfl (Nat.le_add_left _ _) hi (Nat.le_succ _) le_rfl

theorem encodeTick_flush_keeps_inv (hi : s.i = s.cmd.srcLen) (h : encodeTick s = .next t) : Inv t := by
  rcases encodeTick_flush hb hi (hs.scanInv hb ho) with ⟨-, e⟩ | ⟨-, -, e⟩ | ⟨-, -, e⟩ <;> rw [e] at h
  · exact flushThen_keeps_inv hs hb h
  · exact flushThen_keeps_inv hs hb h
  · cases h
    exact inv_done hs.memoryInv (hs.outputInv hb).le_cap

/-- One turn of an `ENCODE` call keeps the invariant. -/
theorem encodeTick_keeps_inv (h : encodeTick s = .next t) : Inv t := by
  obtain ⟨-, hi, -⟩ := hs.scanInv hb ho
  rcases Nat.lt_or_eq_of_le hi with hi | hi
  · cases hm : s.mode with
    | inCopy => exact encodeTick_inCopy_keeps_inv hs hb ho hi hm h
    | inRun => exact encodeTick_inRun_keeps_inv hs hb ho hi hm h
  · exact encodeTick_flush_keeps_inv hs hb ho hi h

end

end Sys2Proof.Machine
end

section
/-! SUPPORT. Every turn of the decoder engine keeps the invariant (R26, R121 to R125). -/

namespace Sys2Proof.Machine

/-- Either token at the cursor, in its three cases; nothing but the temporaries differs between the kinds. -/
theorem execToken_cases (k : Kind) (n : Nat) (s : State) :
    ∃ tmp,
      execToken (tokenInstr k n) s = .next (raise Config.stSrcDecodeError { s with tmp := tmp }) ∨
      execToken (tokenInstr k n) s = .next (raise Config.stDstWriteError { s with tmp := tmp }) ∨
      truncated k n s = false ∧ noRoom n s = false ∧
        execToken (tokenInstr k n) s = .next
          (tokenDone n (tokenSize k n) (tokenExpand (tokenAt k (s.rd + 1) n s.src)) { s with tmp := tmp }) := by
  cases k with
  | run =>
    rcases execRun_cases n s with ⟨-, e⟩ | ⟨-, -, e⟩ | ⟨h1, h2, e⟩
    · exact ⟨_, .inl e⟩
    · exact ⟨_, .inr (.inl e)⟩
    · exact ⟨_, .inr (.inr ⟨h1, h2, e⟩)⟩
  | copy =>
    rcases execCopy_cases n s with ⟨-, e⟩ | ⟨-, -, e⟩ | ⟨h1, h2, e⟩
    · exact ⟨_, .inl e⟩
    · exact ⟨_, .inr (.inl e)⟩
    · exact ⟨_, .inr (.inr ⟨h1, h2, e⟩)⟩

/-- A whole token that is there and fits keeps the invariant. -/
theorem tokenDone_keeps_inv {k : Kind} {n : Nat} {s : State} (hs : Inv s) (hb : s.busy = true)
    (ho : s.cmd.op = Config.opDecode) (hn : lengthOk k n = true) (hhdr : headerByte k n = s.src.read s.rd)
    (hthere : truncated k n s = false) (hroom : noRoom n s = false) :
    Inv (tokenDone n (tokenSize k n) (tokenExpand (tokenAt k (s.rd + 1) n s.src)) s) := by
  obtain ⟨⟨hsrc, hdst, hbefore⟩, hres, hcall⟩ := hs
  obtain ⟨hout, -, hstands⟩ := (callInv_decode_iff ho).1 (hcall hb)
  have hgrown := hstands.write_raw (tok := tokenAt k (s.rd + 1) n s.src) hdst (by rwa [tokenAt_wf])
    (tokenAt_bytes_eq_slice hhdr)
  rw [tokenAt_expand_length] at hgrown
  refine ⟨⟨hsrc, writeBytes_wf hdst _ _, hbefore⟩, hres, fun _ => Iff.mpr (callInv_decode_iff ho) ⟨?_, ?_, hgrown⟩⟩
  · exact hout.write (bs := tokenExpand (tokenAt k (s.rd + 1) n s.src)) hdst (by rwa [tokenAt_expand_length]) rfl rfl rfl
      (by rw [tokenAt_expand_length]; rfl)
  · exact truncated_eq_false hthere

theorem execToken_keeps_inv {k : Kind} {n : Nat} {s t : State} (hs : Inv s) (hb : s.busy = true)
    (ho : s.cmd.op = Config.opDecode) (hn : lengthOk k n = true) (hhdr : headerByte k n = s.src.read s.rd)
    (h : execToken (tokenInstr k n) s = .next t) : Inv t := by
  have hout := (hs.outputInv hb).le_cap
  obtain ⟨tmp, e | e | ⟨hthere, hroom, e⟩⟩ := execToken_cases k n s <;> rw [e] at h <;> cases h
  · exact inv_raise (s := { s with tmp := tmp }) hs.memoryInv hout (.inr ⟨rfl, ho⟩)
  · exact inv_raise (s := { s with tmp := tmp }) hs.memoryInv hout (.inl rfl)
  · exact tokenDone_keeps_inv (s := { s with tmp := tmp }) hs hb ho hn hhdr hthere hroom

/-- One turn of a `DECODE` call keeps the invariant. -/
theorem decodeTick_keeps_inv {s t : State} (hs : Inv s) (hb : s.busy = true) (ho : s.cmd.op = Config.opDecode)
    (h : decodeTick s = .next t) : Inv t := by
  rcases decodeTick_cases s with ⟨-, e⟩ | ⟨-, e⟩ <;> rw [e] at h
  · cases h
    exact inv_done hs.memoryInv (hs.outputInv hb).le_cap
  · obtain ⟨-, h⟩ := withSrc_eq_next.1 h
    exact execToken_keeps_inv (s := setH (s.src.read s.rd) s) hs hb ho (lengthOk_headerLength _)
      (headerByte_headerLength _) h

end Sys2Proof.Machine
end

section
/-! SUPPORT. Every step keeps the invariant: the block's own turn, a command presented in either handshake, reset, and the
other host moves. -/

namespace Sys2Proof.Machine

theorem engineStep_keeps_inv {s t : State} (hs : Inv s) (h : engineStep s = .next t) : Inv t := by
  cases hb : s.busy with
  | false =>
    rw [engineStep_idle hb] at h
    cases h
    exact hs
  | true =>
    rcases op_cases s.cmd.op with ho | ho
    · rw [engineStep_encode hb ho] at h
      exact encodeTick_keeps_inv hs hb ho h
    · rw [engineStep_decode hb ho] at h
      exact decodeTick_keeps_inv hs hb ho h

/-! ## Commands -/

/-- A whole run of an engine keeps the invariant, when its turns do. -/
theorem runCall_keeps_inv {engine : State → Answer} {o : OpBit} {fuel : Nat} {s t : State}
    (hset : ∀ u, Keeps u (engine u))
    (hturn : ∀ u v, Inv u → u.busy = true → u.cmd.op = o → engine u = .next v → Inv v)
    (hs : Inv s) (ho : s.cmd.op = o) (h : runCall engine fuel s = .next t) : Inv t := by
  refine (runCall_keeps (P := fun u => Inv u ∧ u.cmd.op = o) (fun u v hb hu hv => ?_) ⟨hs, ho⟩ h).1
  obtain ⟨hinv, hop⟩ := hu
  obtain ⟨hcmd, -⟩ := hset u v hv
  exact ⟨hturn u v hinv hb hop hv, by rw [hcmd, hop]⟩

theorem encodeBody_keeps_inv {s t : State} (hs : Inv s) (ho : s.cmd.op = Config.opEncode)
    (h : encodeBody s = .next t) : Inv t :=
  runCall_keeps_inv keeps_encodeTick (fun _ _ => encodeTick_keeps_inv) hs ho h

theorem decodeBody_keeps_inv {s t : State} (hs : Inv s) (ho : s.cmd.op = Config.opDecode)
    (h : decodeBody s = .next t) : Inv t :=
  runCall_keeps_inv keeps_decodeTick (fun _ _ => decodeTick_keeps_inv) hs ho h

/-- A command presented keeps the invariant, when its body does. -/
theorem issueCommand_keeps_inv {c : Command} {body : State → Answer} {s t : State} (hs : Inv s)
    (hbody : ∀ u, Inv u → u.cmd = c → body u = .next t → Inv t) (h : issueCommand c body s = .next t) : Inv t := by
  rcases issueCommand_cases c body s with ⟨-, e⟩ | ⟨-, -, e⟩ | ⟨-, -, -, e⟩ | ⟨-, hargs, -, e⟩ <;> rw [e] at h
  · cases h
    exact hs
  · cases h
    obtain ⟨⟨hsrc, hdst, -⟩, -, -⟩ := hs
    exact inv_raise_invalidArgument ⟨hsrc, hdst, hdst⟩
  · cases h
  · exact hbody _ (inv_initCall hs hargs) (by simp) h

theorem beginCall_keeps_inv {c : Command} {s t : State} (hs : Inv s) (h : beginCall c s = .next t) : Inv t :=
  issueCommand_keeps_inv hs (fun u hu _ e => by cases e; exact hu) h

theorem exec_decodeCommand_keeps_inv {c : Command} {s t : State} (hs : Inv s)
    (h : exec (decodeCommand c) s = .next t) : Inv t := by
  unfold decodeCommand at h
  split at h
  · exact issueCommand_keeps_inv hs (fun u hu hc => encodeBody_keeps_inv hu (by rw [hc])) h
  · exact issueCommand_keeps_inv hs (fun u hu hc => decodeBody_keeps_inv hu (by rw [hc])) h

/-! ## Reset -/

theorem mixDst_wf {old : Memory} (hold : old.wf) (final : Memory) (k n : Nat) : (mixDst final old k n).wf := by
  induction n with
  | zero => exact hold
  | succ n ih => exact Memory.write_wf ih _ _

/-- Reset keeps the invariant, whatever the free choices of R161 are. -/
theorem resetBlock_keeps_inv {s t : State} (hs : Inv s) (h : resetBlock s = .next t) : Inv t := by
  obtain ⟨⟨hsrc, hdst, hbefore⟩, -, -⟩ := hs
  unfold resetBlock at h
  split at h
  · obtain ⟨u, -, h⟩ := andThen_eq_next.1 h
    cases h
    exact inv_of_idle rfl ⟨hsrc, mixDst_wf hbefore _ _ _, Memory.wf_nil⟩ ⟨rfl, nofun⟩
  · cases h
    exact inv_of_idle rfl ⟨hsrc, hdst, Memory.wf_nil⟩ ⟨rfl, nofun⟩

/-! ## The host's moves -/

theorem whenIdle_eq_next {r : Refusal} {s t : State} {f : State → Answer} :
    whenIdle r s f = .next t ↔ s.busy = false ∧ f s = .next t := by
  unfold whenIdle
  cases s.busy <;> simp

theorem hostStep_keeps_inv {m : HostMove} {s t : State} (hs : Inv s) (h : hostStep m s = .next t) : Inv t := by
  cases m with
  | issue hsk c =>
    cases hsk with
    | blocking => exact exec_decodeCommand_keeps_inv hs h
    | start => exact beginCall_keeps_inv hs h
  | writeSrc a b =>
    simp only [hostStep, whenIdle_eq_next] at h
    obtain ⟨hb, h⟩ := h
    cases h
    obtain ⟨⟨hsrc, hdst, hbefore⟩, hres, -⟩ := hs
    exact inv_of_idle hb ⟨Memory.write_wf hsrc a b, hdst, hbefore⟩ hres
  | writeDst a b =>
    simp only [hostStep, whenIdle_eq_next] at h
    obtain ⟨hb, h⟩ := h
    cases h
    obtain ⟨⟨hsrc, hdst, hbefore⟩, hres, -⟩ := hs
    exact inv_of_idle hb ⟨hsrc, Memory.write_wf hdst a b, hbefore⟩ hres
  | placeBuffers o =>
    simp only [hostStep, whenIdle_eq_next] at h
    obtain ⟨-, h⟩ := h
    cases h
    exact hs
  | readResult =>
    simp only [hostStep, whenIdle_eq_next] at h
    obtain ⟨-, h⟩ := h
    split at h <;> cases h <;> exact hs
  | readDst a =>
    simp only [hostStep, whenIdle_eq_next] at h
    obtain ⟨-, h⟩ := h
    cases h
    exact hs
  | readSrc a =>
    cases h
    exact hs
  | readBusy =>
    cases h
    exact hs
  | reset => exact resetBlock_keeps_inv hs h
  | pass => exact engineStep_keeps_inv hs h

/-- Settles O42, by cases on the step: the host's next move, or a turn of the engine whose call is in progress. -/
theorem stepKeepsInv : Obligations.StepKeepsInv := by
  intro s t hs h
  cases hhost : s.host with
  | nil =>
    rw [step_host_nil hhost] at h
    exact engineStep_keeps_inv hs h
  | cons m rest =>
    rw [step_host_cons hhost] at h
    exact hostStep_keeps_inv (s := { s with host := rest }) hs h

end Sys2Proof.Machine
end

section
/-! SUPPORT. A whole call as the block's own turns: every command, and the call that a reset abandons, is `engineSteps`. -/

namespace Sys2Proof.Machine

/-- The call in progress, run to its end, is `src_len` turns of the block (R74). -/
theorem finishCall_eq_engineSteps (s : State) : finishCall s = engineSteps s.cmd.srcLen s := by
  unfold finishCall
  split
  · next ho => exact ((engineSteps_eq_runCall _).1 ho).symm
  · next ho => exact ((engineSteps_eq_runCall _).2 ((op_cases _).resolve_left ho)).symm

/-- A command that is carried out runs its body from the state call start leaves, and from no other. -/
theorem issueCommand_congr {c : Command} {body body' : State → Answer} {s : State}
    (h : body (initCall (accept c s)) = body' (initCall (accept c s))) :
    issueCommand c body s = issueCommand c body' s := by
  unfold issueCommand
  rcases startCall_cases c s with ⟨-, e⟩ | ⟨-, -, e⟩ | ⟨-, -, e⟩ <;> rw [e]
  · simp [thenIfBusy_next]
  · rfl
  · simp [thenIfBusy_next, h]

/-- Either command presented by a waiting host: the call starts and runs to its end (R79). -/
theorem exec_decodeCommand (c : Command) (s : State) : exec (decodeCommand c) s = issueCommand c finishCall s := by
  obtain ⟨a, o⟩ := c
  rcases op_cases o with rfl | rfl
  · exact issueCommand_congr (by simp [finishCall])
  · exact issueCommand_congr (by simp [finishCall, opEncode_ne_opDecode.symm])

end Sys2Proof.Machine
end

section
/-! SUPPORT. From a sound state no step faults (R35, R36): every turn of either engine answers a next state. -/

namespace Sys2Proof.Machine

/-! ## The turns of the engines -/

theorem emitThen_answers (k : Kind) (n seg : Nat) (m : Mode) (s : State) : ∃ t, emitThen k n seg m s = .next t := by
  unfold emitThen
  split <;> exact ⟨_, rfl⟩

theorem flushThen_answers (k : Kind) (n : Nat) (s : State) : ∃ t, flushThen k n s = .next t := by
  unfold flushThen
  split <;> exact ⟨_, rfl⟩

/-- With its open segment inside SRC, a turn of the encoder answers a next state: an emission checks the room itself. -/
theorem encodeTick_answers {s : State} (hb : s.busy = true) (hs : ScanInv s) : ∃ t, encodeTick s = .next t := by
  have ⟨_, hi, _⟩ := hs
  rcases Nat.lt_or_eq_of_le hi with hi | hi
  · cases hm : s.mode with
    | inCopy =>
      rcases encodeTick_inCopy hb hi hs hm with
        ⟨-, -, e⟩ | ⟨-, -, e⟩ | ⟨-, -, e⟩ | ⟨-, -, e⟩ | ⟨-, -, e⟩ <;> rw [e]
      · exact ⟨_, rfl⟩
      · exact ⟨_, rfl⟩
      · exact ⟨_, rfl⟩
      · exact emitThen_answers _ _ _ _ _
      · exact emitThen_answers _ _ _ _ _
    | inRun =>
      rcases encodeTick_inRun hb hi hs hm with ⟨-, -, e⟩ | ⟨-, -, e⟩ | ⟨-, e⟩ <;> rw [e]
      · exact ⟨_, rfl⟩
      · exact emitThen_answers _ _ _ _ _
      · exact emitThen_answers _ _ _ _ _
  · rcases encodeTick_flush hb hi hs with ⟨-, e⟩ | ⟨-, -, e⟩ | ⟨-, -, e⟩ <;> rw [e]
    · exact flushThen_answers _ _ _
    · exact flushThen_answers _ _ _
    · exact ⟨_, rfl⟩

theorem execToken_answers (k : Kind) (n : Nat) (s : State) : ∃ t, execToken (tokenInstr k n) s = .next t := by
  obtain ⟨tmp, e | e | ⟨-, -, e⟩⟩ := execToken_cases k n s <;> exact ⟨_, e⟩

/-- With its cursor inside SRC, a turn of the decoder answers a next state: a token checks source and room itself. -/
theorem decodeTick_answers {s : State} (h : s.rd ≤ s.cmd.srcLen) : ∃ t, decodeTick s = .next t := by
  rcases decodeTick_cases s with ⟨-, e⟩ | ⟨hne, e⟩ <;> rw [e]
  · exact ⟨_, rfl⟩
  · rw [withSrc_of_lt (Nat.lt_of_le_of_ne h hne)]
    exact execToken_answers _ _ _

/-- From a sound state a turn of the block answers a next state. -/
theorem engineStep_answers {s : State} (hs : Inv s) : ∃ t, engineStep s = .next t := by
  cases hb : s.busy with
  | false => exact ⟨s, engineStep_idle hb⟩
  | true =>
    rcases op_cases s.cmd.op with ho | ho
    · rw [engineStep_encode hb ho]
      exact encodeTick_answers hb (hs.scanInv hb ho)
    · obtain ⟨-, hrd, -⟩ := (callInv_decode_iff ho).1 (hs.callInv hb)
      rw [engineStep_decode hb ho]
      exact decodeTick_answers hrd

theorem engineSteps_answers (k : Nat) {s : State} (hs : Inv s) : ∃ t, engineSteps k s = .next t := by
  induction k generalizing s with
  | zero => exact ⟨s, rfl⟩
  | succ k ih =>
    obtain ⟨u, hu⟩ := engineStep_answers hs
    rw [engineSteps, hu, andThen_next]
    exact ih (engineStep_keeps_inv hs hu)

theorem finishCall_answers {s : State} (hs : Inv s) : ∃ t, finishCall s = .next t := by
  rw [finishCall_eq_engineSteps]
  exact engineSteps_answers _ hs

/-! ## No fault -/

theorem ne_fault_of_answers {x : Answer} (h : ∃ t, x = .next t) (r : Fault) : x ≠ .fault r := by
  obtain ⟨t, rfl⟩ := h
  exact nofun

/-- Presenting a command in a sound state does not fault, when its body answers from every sound state. -/
theorem issueCommand_ne_fault {c : Command} {body : State → Answer} {s : State} (hs : Inv s)
    (hbody : ∀ u, Inv u → ∃ t, body u = .next t) (r : Fault) : issueCommand c body s ≠ .fault r := by
  rcases issueCommand_cases c body s with ⟨-, e⟩ | ⟨-, -, e⟩ | ⟨-, -, -, e⟩ | ⟨-, hargs, -, e⟩ <;> rw [e]
  · exact nofun
  · exact nofun
  · exact nofun
  · exact ne_fault_of_answers (hbody _ (inv_initCall hs hargs)) r

/-- Reset answers a next state from a sound one, during a call too: the abandoned call could have been finished (R161). -/
theorem resetBlock_answers {s : State} (hs : Inv s) : ∃ t, resetBlock s = .next t := by
  obtain ⟨u, hu⟩ := finishCall_answers hs
  unfold resetBlock
  rw [hu]
  split <;> exact ⟨_, rfl⟩

theorem whenIdle_eq_fault {q : Refusal} {s : State} {f : State → Answer} {r : Fault} :
    whenIdle q s f = .fault r ↔ s.busy = false ∧ f s = .fault r := by
  unfold whenIdle
  cases s.busy <;> simp

theorem hostStep_ne_fault {s : State} (hs : Inv s) (m : HostMove) (r : Fault) : hostStep m s ≠ .fault r := by
  cases m with
  | issue hsk c =>
    cases hsk with
    | blocking =>
      rw [hostStep, exec_decodeCommand]
      exact issueCommand_ne_fault hs (fun _ => finishCall_answers) r
    | start => exact issueCommand_ne_fault hs (fun u _ => ⟨u, rfl⟩) r
  | writeSrc a b => simp [hostStep, whenIdle_eq_fault]
  | writeDst a b => simp [hostStep, whenIdle_eq_fault]
  | placeBuffers o => simp [hostStep, whenIdle_eq_fault]
  | readResult => cases hd : s.resultDefined <;> simp [hostStep, whenIdle_eq_fault, hd, drawResult]
  | readDst a => simp [hostStep, whenIdle_eq_fault]
  | readSrc a => exact nofun
  | readBusy => exact nofun
  | reset => exact ne_fault_of_answers (resetBlock_answers hs) r
  | pass => exact ne_fault_of_answers (engineStep_answers hs) r

/-- Settles O43, by cases on the step: the host's next move, or a turn of the engine whose call is in progress. -/
theorem soundStepNeverFaults : Obligations.SoundStepNeverFaults := by
  intro s r hs
  cases hhost : s.host with
  | nil =>
    rw [step_host_nil hhost]
    exact ne_fault_of_answers (engineStep_answers hs) r
  | cons m rest =>
    rw [step_host_cons hhost]
    exact hostStep_ne_fault (s := { s with host := rest }) hs m r

end Sys2Proof.Machine
end

section
/-! SUPPORT. Which steps are refused (R32, R45, R165, R166). `Yields` says what an answer can be when nothing is known of
the state: no refusal, and if a next state, one that meets a predicate. -/

namespace Sys2Proof.Machine

/-! ## Answers that are not refusals -/

/-- The answer is not a refusal; if it is a next state, that state meets `P`. -/
def Yields (P : State → Prop) : Answer → Prop
  | .next t => P t
  | .fault _ => True
  | .refused _ => False

@[simp] theorem yields_next {P : State → Prop} {t : State} : Yields P (.next t) ↔ P t := Iff.rfl

theorem Yields.next {P : State → Prop} {x : Answer} {t : State} (h : Yields P x) (e : x = .next t) : P t := by
  rwa [e, yields_next] at h

theorem Yields.ne_refused {P : State → Prop} {x : Answer} (h : Yields P x) (r : Refusal) : x ≠ .refused r := by
  rintro rfl
  exact h

theorem Yields.andThen {P Q : State → Prop} {x : Answer} {f : State → Answer} (hx : Yields P x)
    (hf : ∀ u, P u → Yields Q (f u)) : Yields Q (andThen x f) := by
  cases x with
  | next u => exact hf u hx
  | fault r => trivial
  | refused r => exact hx

theorem Yields.mono {P Q : State → Prop} {x : Answer} (hx : Yields P x) (h : ∀ u, P u → Q u) : Yields Q x := by
  cases x with
  | next u => exact h u hx
  | fault r => trivial
  | refused r => exact hx

/-- Going on while the call is in progress: `P` holds when it has ended, and what follows yields it when not. -/
theorem Yields.thenIfBusy {P Q : State → Prop} {x : Answer} {f : State → Answer} (hx : Yields P x)
    (hf : ∀ u, P u → u.busy = true → Yields Q (f u)) (hend : ∀ u, P u → u.busy = false → Q u) :
    Yields Q (thenIfBusy x f) := by
  refine hx.andThen fun u hu => ?_
  cases hb : u.busy with
  | false => simpa using hend u hu hb
  | true => simpa using hf u hu hb

theorem yields_withSrc {P : State → Prop} {s : State} {a : Nat} {f : Byte → Answer} (hf : ∀ b, Yields P (f b)) :
    Yields P (withSrc s a f) := by
  unfold withSrc
  split
  · exact hf _
  · trivial

theorem yields_writeDst (a : Nat) (v : Byte) (s : State) :
    Yields (fun t => t = setDst (s.dst.write a v) s) (writeDst a v s) := by
  unfold writeDst
  split
  · rfl
  · trivial

/-! ## Emissions in any state -/

theorem yields_copyToDst (n a dest : Nat) (s : State) :
    Yields (fun t => t = setDst (writeBytes (s.src.slice a n) dest s.dst) s) (copyToDst n a dest s) := by
  induction n generalizing a dest s with
  | zero => rfl
  | succ n ih =>
    unfold copyToDst withSrc
    split
    · refine (yields_writeDst dest (s.src.read a) s).andThen ?_
      rintro _ rfl
      rw [Memory.slice_succ]
      exact ih (a + 1) (dest + 1) _
    · trivial

theorem yields_emitBytes (k : Kind) (a n : Nat) (s : State) :
    Yields
      (fun t => t = setDst (writeBytes (headerByte k n :: segmentPayload k a n s) s.outLen s.dst)
        (setHdr (headerByte k n) s))
      (emitBytes k a n s) := by
  cases k with
  | run =>
    refine (yields_writeDst _ _ _).andThen ?_
    rintro _ rfl
    unfold withSrc
    split
    · exact yields_writeDst _ _ _
    · trivial
  | copy =>
    refine (yields_writeDst _ _ _).andThen ?_
    rintro _ rfl
    exact yields_copyToDst _ _ _ _

/-- Whatever the state, an emission that answers a next state has raised the error or written the whole token (R96). -/
theorem yields_emit (k : Kind) (a n : Nat) (s : State) :
    Yields (fun t => t = raise Config.stDstWriteError (setEmit k a n s) ∨ t = emitted k a n s) (emit k a n s) := by
  simp only [emit]
  split
  · exact .inl rfl
  · refine (yields_emitBytes k a n _).andThen ?_
    rintro _ rfl
    exact .inr rfl

/-! ## The turns of the engines, in any state -/

/-- What ENC does not write (R24): the registers of DEC. -/
def EncodeFrame (s t : State) : Prop := t.rd = s.rd ∧ t.tmp.h = s.tmp.h ∧ t.tmp.sym = s.tmp.sym

/-- What DEC does not write (R24): the registers of ENC. -/
def DecodeFrame (s t : State) : Prop :=
  t.mode = s.mode ∧ t.i = s.i ∧ t.segStart = s.segStart ∧ t.tmp.kind = s.tmp.kind ∧ t.tmp.s = s.tmp.s ∧
    t.tmp.hdr = s.tmp.hdr ∧ t.tmp.eq = s.tmp.eq

/-- DST beyond `out_len` is as before the call (R37), and a call that has ended has answered `out_len`. -/
def OutputKept (s : State) : Prop :=
  s.dst.wf ∧ (∀ x, s.outLen ≤ x → s.dst.read x = s.dstBefore.read x) ∧ (s.busy = false → s.outputLength = s.outLen)

theorem OutputKept.endCall {st : StatusBits} {s : State} (h : OutputKept s) : OutputKept (endCall st s.outLen s) := by
  obtain ⟨hwf, hbeyond, -⟩ := h
  exact ⟨hwf, hbeyond, fun _ => rfl⟩

/-- Bytes written from `out_len` on, which advances past them. -/
theorem OutputKept.write {s t : State} {bs : List Byte} (h : OutputKept s) (hb : s.busy = true)
    (hbusy : t.busy = s.busy) (hbefore : t.dstBefore = s.dstBefore) (hdst : t.dst = writeBytes bs s.outLen s.dst)
    (hlen : t.outLen = s.outLen + bs.length) : OutputKept t := by
  obtain ⟨hwf, hbeyond, -⟩ := h
  refine ⟨hdst ▸ writeBytes_wf hwf _ _, fun x hx => ?_, fun hend => ?_⟩
  · rw [hdst, hbefore, read_writeBytes_past hwf (by omega)]
    exact hbeyond x (by omega)
  · exact absurd (hbusy.trans hb) (ne_true_of_eq_false hend)

/-- What holds between the start of a scan step or flush and every state inside it. -/
def ScanKept (s t : State) : Prop := EncodeFrame s t ∧ t.i = s.i ∧ (OutputKept s → OutputKept t)

theorem ScanKept.refl (s : State) : ScanKept s s := ⟨⟨rfl, rfl, rfl⟩, rfl, id⟩

theorem ScanKept.done {s u : State} (h : ScanKept s u) : ScanKept s (done u) := by
  obtain ⟨hframe, hi, hout⟩ := h
  exact ⟨hframe, hi, fun hs => (hout hs).endCall⟩

theorem ScanKept.emit {s u : State} (h : ScanKept s u) (hb : u.busy = true) (k : Kind) (a n : Nat) :
    Yields (ScanKept s) (emit k a n u) := by
  obtain ⟨hframe, hi, hout⟩ := h
  refine (yields_emit k a n u).mono ?_
  rintro _ (rfl | rfl)
  · exact ⟨hframe, hi, fun hs => (hout hs).endCall (st := Config.stDstWriteError)⟩
  · refine ⟨hframe, hi, fun hs => (hout hs).write hb rfl rfl (emitted_dst k a n u) ?_⟩
    rw [emitted_outLen, List.length_cons, segmentPayload_length]

/-- An emission and a new segment behind it. -/
theorem ScanKept.emit_segment {s u : State} (h : ScanKept s u) (hb : u.busy = true) (k : Kind) (a n : Nat)
    (start : State → Nat) (m : Mode) :
    Yields (ScanKept s) (thenIfBusy (Machine.emit k a n u) fun t => .next (setSegment (start t) m t)) :=
  (h.emit hb k a n).thenIfBusy (fun _ hv _ => hv) fun _ hv _ => hv

theorem ScanKept.transition {s u : State} (h : ScanKept s u) (hb : u.busy = true) :
    Yields (ScanKept s) (transition u) := by
  unfold Machine.transition
  split
  · split
    · unfold copyToRun
      split
      · exact h.emit_segment hb _ _ _ (fun t => t.i - 1) _
      · rw [thenIfBusy_busy hb]
        exact h
    · exact h
  · split
    · exact h
    · exact h.emit_segment hb _ _ _ (fun t => t.i) _

theorem ScanKept.capCheck {s u : State} (h : ScanKept s u) (hb : u.busy = true) :
    Yields (ScanKept s) (capCheck u) := by
  unfold Machine.capCheck
  split
  · exact h.emit_segment hb _ _ _ (fun t => t.i) _
  · split
    · exact h.emit_segment hb _ _ _ (fun t => t.i + 1) _
    · exact h

theorem yields_scanStep {s : State} (hb : s.busy = true) : Yields (ScanKept s) (scanStep s) := by
  unfold scanStep compare
  refine yields_withSrc fun cur => yields_withSrc fun prev => ?_
  have hstart : ScanKept s (setEq (cur == prev) s) := ScanKept.refl s
  exact (hstart.transition hb).thenIfBusy (fun _ hu hbu => hu.capCheck hbu) fun _ hu _ => hu

theorem yields_flush {s : State} (hb : s.busy = true) : Yields (fun t => t.busy = false ∧ ScanKept s t) (flush s) := by
  refine Yields.thenIfBusy (P := ScanKept s) ?_ (fun _ hu _ => ⟨rfl, hu.done⟩) fun _ hu hend => ⟨hend, hu⟩
  split
  · exact (ScanKept.refl s).emit hb _ _ _
  · split
    · exact (ScanKept.refl s).emit hb _ _ _
    · exact ScanKept.refl s

/-- A turn of the encoder: the call has ended, or the scan index has moved on by one. -/
def EncodeTurn (s t : State) : Prop :=
  EncodeFrame s t ∧ (OutputKept s → OutputKept t) ∧ (t.busy = true → s.i < s.cmd.srcLen ∧ t.i = s.i + 1)

theorem yields_encodeTick {s : State} (hb : s.busy = true) : Yields (EncodeTurn s) (encodeTick s) := by
  unfold encodeTick
  split
  · next hi =>
    refine (yields_scanStep hb).thenIfBusy ?_ ?_
    · rintro u ⟨hframe, hiu, hout⟩ -
      exact ⟨hframe, hout, fun _ => ⟨hi, congrArg (· + 1) hiu⟩⟩
    · rintro u ⟨hframe, -, hout⟩ hend
      exact ⟨hframe, hout, fun h => absurd h (ne_true_of_eq_false hend)⟩
  · refine (yields_flush hb).mono ?_
    rintro t ⟨hend, hframe, -, hout⟩
    exact ⟨hframe, hout, fun h => absurd h (ne_true_of_eq_false hend)⟩

/-- A turn of the decoder: the call has ended, or the cursor has moved past a whole token, two bytes or more (R54). -/
def DecodeTurn (s t : State) : Prop :=
  DecodeFrame s t ∧ (OutputKept s → OutputKept t) ∧ (t.busy = true → s.rd + 2 ≤ t.rd ∧ t.rd ≤ s.cmd.srcLen)

theorem execToken_decodeFrame {k : Kind} {n : Nat} {s t : State} (h : execToken (tokenInstr k n) s = .next t) :
    DecodeFrame s t := by
  cases k with
  | run =>
    rcases execRun_cases n s with ⟨-, e⟩ | ⟨-, -, e⟩ | ⟨-, -, e⟩ <;> cases e.symm.trans h <;>
      exact ⟨rfl, rfl, rfl, rfl, rfl, rfl, rfl⟩
  | copy =>
    rcases execCopy_cases n s with ⟨-, e⟩ | ⟨-, -, e⟩ | ⟨-, -, e⟩ <;> cases e.symm.trans h <;>
      exact ⟨rfl, rfl, rfl, rfl, rfl, rfl, rfl⟩

theorem two_le_tokenSize {k : Kind} {n : Nat} (hn : 1 ≤ n) : 2 ≤ tokenSize k n := by
  cases k with
  | run => exact le_rfl
  | copy => exact Nat.succ_le_succ hn

theorem yields_execToken {k : Kind} {n : Nat} {s : State} (hb : s.busy = true) (hn : 1 ≤ n) :
    Yields (DecodeTurn s) (execToken (tokenInstr k n) s) := by
  obtain ⟨tmp, e | e | ⟨hthere, -, e⟩⟩ := execToken_cases k n s
  all_goals
    have hframe := execToken_decodeFrame e
    rw [e]
  · exact ⟨hframe, fun hs => OutputKept.endCall (s := { s with tmp := tmp }) hs, nofun⟩
  · exact ⟨hframe, fun hs => OutputKept.endCall (s := { s with tmp := tmp }) hs, nofun⟩
  · refine ⟨hframe, fun hs => hs.write hb rfl rfl rfl ?_, fun _ => ⟨?_, truncated_eq_false hthere⟩⟩
    · rw [tokenAt_expand_length]
      rfl
    · exact Nat.add_le_add_left (two_le_tokenSize hn) s.rd

theorem yields_decodeTick {s : State} (hb : s.busy = true) : Yields (DecodeTurn s) (decodeTick s) := by
  rcases decodeTick_cases s with ⟨-, e⟩ | ⟨-, e⟩ <;> rw [e]
  · exact ⟨⟨rfl, rfl, rfl, rfl, rfl, rfl, rfl⟩, fun hs => hs.endCall, nofun⟩
  · exact yields_withSrc fun h => yields_execToken (s := setH h s) hb (one_le_of_lengthOk (lengthOk_headerLength h))

/-! ## No turn of the block is refused -/

theorem yields_engineStep (s : State) : Yields (fun _ => True) (engineStep s) := by
  cases hb : s.busy with
  | false =>
    rw [engineStep_idle hb]
    trivial
  | true =>
    rcases op_cases s.cmd.op with ho | ho
    · rw [engineStep_encode hb ho]
      exact (yields_encodeTick hb).mono fun _ _ => trivial
    · rw [engineStep_decode hb ho]
      exact (yields_decodeTick hb).mono fun _ _ => trivial

/-- What every turn takes from one number of turns left to the next, a row of turns takes to none. -/
theorem yields_engineSteps {P : Nat → State → Prop} (hturn : ∀ k u, P (k + 1) u → Yields (P k) (engineStep u)) {k : Nat}
    {s : State} (hs : P k s) : Yields (P 0) (engineSteps k s) := by
  induction k generalizing s with
  | zero => exact hs
  | succ k ih => exact (hturn k s hs).andThen fun _ => ih

theorem finishCall_ne_refused (s : State) (r : Refusal) : finishCall s ≠ .refused r := by
  rw [finishCall_eq_engineSteps]
  exact (yields_engineSteps (P := fun _ _ => True) (fun _ u _ => yields_engineStep u) trivial).ne_refused r

/-! ## Refused moves of the host -/

theorem whenIdle_eq_refused {q r : Refusal} {s : State} {f : State → Answer} :
    whenIdle q s f = .refused r ↔ s.busy = true ∧ q = r ∨ s.busy = false ∧ f s = .refused r := by
  unfold whenIdle
  cases s.busy <;> simp

/-- A command is refused exactly when it is valid, the block idle and the buffers overlap (R32). -/
theorem issueCommand_refused_iff {c : Command} {body : State → Answer} {s : State}
    (hbody : ∀ u r, body u ≠ .refused r) :
    (∃ r, issueCommand c body s = .refused r) ↔
      s.busy = false ∧ argsInvalid c.toCallArgs = false ∧ s.overlap = true := by
  rcases issueCommand_cases c body s with ⟨hb, e⟩ | ⟨hb, ha, e⟩ | ⟨hb, ha, ho, e⟩ | ⟨hb, ha, ho, e⟩ <;> rw [e]
  · simp [hb]
  · simp [hb, ha]
  · simp [hb, ha, ho]
  · simp [hb, ha, ho, hbody]

theorem resetBlock_ne_refused (s : State) (r : Refusal) : resetBlock s ≠ .refused r := by
  unfold resetBlock
  split
  · simp [andThen_eq_refused, finishCall_ne_refused]
  · exact nofun

theorem hostStep_refused_iff (m : HostMove) (s : State) : (∃ r, hostStep m s = .refused r) ↔ BreaksDuty m s := by
  cases m with
  | issue hsk c =>
    cases hsk with
    | blocking =>
      rw [hostStep, exec_decodeCommand]
      exact issueCommand_refused_iff finishCall_ne_refused
    | start => exact issueCommand_refused_iff fun _ _ => nofun
  | writeSrc a b => simp [hostStep, whenIdle_eq_refused, BreaksDuty]
  | writeDst a b => simp [hostStep, whenIdle_eq_refused, BreaksDuty]
  | placeBuffers o => simp [hostStep, whenIdle_eq_refused, BreaksDuty]
  | readResult => cases hd : s.resultDefined <;> simp [hostStep, whenIdle_eq_refused, BreaksDuty, hd, drawResult]
  | readDst a => simp [hostStep, whenIdle_eq_refused, BreaksDuty]
  | readSrc a => simp [BreaksDuty]
  | readBusy => simp [BreaksDuty]
  | reset => simp [hostStep, resetBlock_ne_refused, BreaksDuty]
  | pass => simp [hostStep, (yields_engineStep s).ne_refused, BreaksDuty]

/-- Settles O44: the block's own turns are never refused; each move of the host is, exactly when it breaks its duty. -/
theorem refusalsAreHostBreaches : Obligations.RefusalsAreHostBreaches := by
  intro s
  cases hhost : s.host with
  | nil => simp [step_host_nil hhost, (yields_engineStep s).ne_refused]
  | cons m rest =>
    rw [step_host_cons hhost, hostStep_refused_iff]
    constructor
    · intro h
      exact ⟨m, rest, rfl, h⟩
    · rintro ⟨_, _, ⟨⟩, h⟩
      exact h

end Sys2Proof.Machine
end

section
/-! SUPPORT. No step of the block writes SRC (R33); what a command leaves unchanged (R37, R71), and that it ends (R74). -/

namespace Sys2Proof.Machine

theorem keeps_engineSteps (k : Nat) {s u : State} (h : SameSetting s u) : Keeps s (engineSteps k u) := by
  induction k generalizing u with
  | zero => exact keeps_next h
  | succ k ih => exact keeps_andThen (fun t ht => h.trans (keeps_engineStep u t ht)) fun _ => ih

theorem keeps_finishCall (s : State) : Keeps s (finishCall s) := by
  rw [finishCall_eq_engineSteps]
  exact keeps_engineSteps _ (SameSetting.refl s)

theorem sameSetting_initCall (s : State) : SameSetting s (initCall s) := by
  unfold initCall
  split <;> exact SameSetting.refl s

theorem initCall_encode {c : Command} (ho : c.op = Config.opEncode) (s : State) :
    initCall (accept c s) = { accept c s with outLen := 0, segStart := 0, mode := .inCopy, i := 1 } := if_pos ho

theorem initCall_decode {c : Command} (ho : c.op = Config.opDecode) (s : State) :
    initCall (accept c s) = { accept c s with outLen := 0, rd := 0 } :=
  if_neg fun h => opEncode_ne_opDecode (h.symm.trans ho)

/-- A command presented that answers a next state had no effect, was invalid, or was carried out. -/
theorem issueCommand_eq_next {c : Command} {body : State → Answer} {s t : State}
    (h : issueCommand c body s = .next t) :
    (s.busy = true ∧ t = s) ∨
    (s.busy = false ∧ t = raise Config.stInvalidArgument (accept c s)) ∨
    (s.busy = false ∧ argsInvalid c.toCallArgs = false ∧ body (initCall (accept c s)) = .next t) := by
  rcases issueCommand_cases c body s with ⟨hb, e⟩ | ⟨hb, -, e⟩ | ⟨-, -, -, e⟩ | ⟨hb, ha, -, e⟩ <;> rw [e] at h
  · cases h
    exact .inl ⟨hb, rfl⟩
  · cases h
    exact .inr (.inl ⟨hb, rfl⟩)
  · cases h
  · exact .inr (.inr ⟨hb, ha, h⟩)

/-! ## SRC -/

/-- SRC and what belongs to the host, which no command changes. -/
def HostKept (s t : State) : Prop :=
  t.src = s.src ∧ t.overlap = s.overlap ∧ t.lastRead = s.lastRead ∧ t.host = s.host ∧ t.freeIndex = s.freeIndex

theorem SameSetting.hostKept {s t : State} (h : SameSetting s t) : HostKept s t := by
  obtain ⟨-, hsrc, -, hover, hread, hhost, hfree⟩ := h
  exact ⟨hsrc, hover, hread, hhost, hfree⟩

theorem issueCommand_hostKept {c : Command} {body : State → Answer} {s t : State} (hbody : ∀ u, Keeps u (body u))
    (h : issueCommand c body s = .next t) : HostKept s t := by
  rcases issueCommand_eq_next h with ⟨-, rfl⟩ | ⟨-, rfl⟩ | ⟨-, -, h⟩
  · exact ⟨rfl, rfl, rfl, rfl, rfl⟩
  · exact ⟨rfl, rfl, rfl, rfl, rfl⟩
  · exact ((sameSetting_initCall (accept c s)).trans (hbody _ t h)).hostKept

theorem resetBlock_src {s t : State} (h : resetBlock s = .next t) : t.src = s.src := by
  unfold resetBlock at h
  split at h
  · obtain ⟨u, -, h⟩ := andThen_eq_next.1 h
    cases h
    rfl
  · cases h
    rfl

theorem hostStep_src {m : HostMove} {s t : State} (hm : ∀ a b, m ≠ .writeSrc a b) (h : hostStep m s = .next t) :
    t.src = s.src := by
  cases m with
  | issue hsk c =>
    cases hsk with
    | blocking =>
      rw [hostStep, exec_decodeCommand] at h
      exact (issueCommand_hostKept keeps_finishCall h).1
    | start => exact (issueCommand_hostKept (fun u => keeps_next (SameSetting.refl u)) h).1
  | writeSrc a b => exact absurd rfl (hm a b)
  | writeDst a b =>
    simp only [hostStep, whenIdle_eq_next] at h
    obtain ⟨-, ⟨⟩⟩ := h
    rfl
  | placeBuffers o =>
    simp only [hostStep, whenIdle_eq_next] at h
    obtain ⟨-, ⟨⟩⟩ := h
    rfl
  | readResult =>
    simp only [hostStep, whenIdle_eq_next] at h
    obtain ⟨-, h⟩ := h
    split at h <;> cases h <;> rfl
  | readDst a =>
    simp only [hostStep, whenIdle_eq_next] at h
    obtain ⟨-, ⟨⟩⟩ := h
    rfl
  | readSrc a =>
    cases h
    rfl
  | readBusy =>
    cases h
    rfl
  | reset => exact resetBlock_src h
  | pass =>
    obtain ⟨-, hsrc, -⟩ := keeps_engineStep s t h
    exact hsrc

/-- Settles O48, by cases on the step: a turn of the block keeps SRC, and so does every host move but its own write. -/
theorem sourceIsNeverWritten : Obligations.SourceIsNeverWritten := by
  intro s t h hm
  cases hhost : s.host with
  | nil =>
    rw [step_host_nil hhost] at h
    obtain ⟨-, hsrc, -⟩ := keeps_engineStep s t h
    exact hsrc
  | cons m rest =>
    rw [step_host_cons hhost] at h
    exact hostStep_src (s := { s with host := rest }) (fun a b hab => hm a b (by rw [hhost, hab]; rfl)) h

/-! ## A whole call -/

/-- The registers that the engine of the call in progress does not write. -/
def OtherEngineKept (o : OpBit) (s t : State) : Prop :=
  (o = Config.opEncode → EncodeFrame s t) ∧ (o = Config.opDecode → DecodeFrame s t)

theorem OtherEngineKept.refl (o : OpBit) (s : State) : OtherEngineKept o s s :=
  ⟨fun _ => ⟨rfl, rfl, rfl⟩, fun _ => ⟨rfl, rfl, rfl, rfl, rfl, rfl, rfl⟩⟩

theorem OtherEngineKept.trans {o : OpBit} {s t u : State} (h : OtherEngineKept o s t) (k : OtherEngineKept o t u) :
    OtherEngineKept o s u := by
  obtain ⟨henc, hdec⟩ := h
  obtain ⟨kenc, kdec⟩ := k
  constructor
  · intro ho
    obtain ⟨h1, h2, h3⟩ := henc ho
    obtain ⟨k1, k2, k3⟩ := kenc ho
    exact ⟨k1.trans h1, k2.trans h2, k3.trans h3⟩
  · intro ho
    obtain ⟨h1, h2, h3, h4, h5, h6, h7⟩ := hdec ho
    obtain ⟨k1, k2, k3, k4, k5, k6, k7⟩ := kdec ho
    exact ⟨k1.trans h1, k2.trans h2, k3.trans h3, k4.trans h4, k5.trans h5, k6.trans h6, k7.trans h7⟩

/-- `k` turns are enough to end the call: ENC makes one for each byte left and one for the flush; DEC moves on by two
bytes or more each turn, and needs one turn for the end of the stream. -/
def TurnsSuffice (k : Nat) (s : State) : Prop :=
  (s.cmd.op = Config.opEncode → s.i ≤ s.cmd.srcLen ∧ s.cmd.srcLen < s.i + k) ∧
  (s.cmd.op = Config.opDecode → s.rd ≤ s.cmd.srcLen ∧ s.cmd.srcLen ≤ s.rd + k ∧ 1 ≤ k)

theorem not_turnsSuffice_zero (s : State) : ¬ TurnsSuffice 0 s := by
  rintro ⟨henc, hdec⟩
  rcases op_cases s.cmd.op with ho | ho
  · have := henc ho
    omega
  · have := hdec ho
    omega

theorem turnsSuffice_initCall {c : Command} (hargs : argsInvalid c.toCallArgs = false) (s : State) :
    TurnsSuffice c.srcLen (initCall (accept c s)) := by
  obtain ⟨hlen, -⟩ := argsInvalid_eq_false hargs
  unfold TurnsSuffice
  rw [initCall_cmd, accept_cmd]
  constructor
  · intro ho
    rw [initCall_encode ho]
    exact ⟨hlen, Nat.lt_add_of_pos_left Nat.one_pos⟩
  · intro ho
    rw [initCall_decode ho]
    exact ⟨Nat.zero_le _, Nat.le_add_left _ _, hlen⟩

/-- One turn of the block: the setting, the other engine's registers and DST beyond `out_len` stay, and a call that goes
on needs one turn less. -/
def BlockTurn (s t : State) : Prop :=
  SameSetting s t ∧ OtherEngineKept s.cmd.op s t ∧ (OutputKept s → OutputKept t) ∧
    ∀ k, (s.busy = true → TurnsSuffice (k + 1) s) → t.busy = true → TurnsSuffice k t

theorem EncodeTurn.blockTurn {s t : State} (h : EncodeTurn s t) (hset : SameSetting s t) (hb : s.busy = true)
    (ho : s.cmd.op = Config.opEncode) : BlockTurn s t := by
  obtain ⟨hframe, hout, hnext⟩ := h
  have ⟨hcmd, _⟩ := hset
  refine ⟨hset, ⟨fun _ => hframe, fun h => absurd (ho.symm.trans h) opEncode_ne_opDecode⟩, hout, fun k hk htb => ?_⟩
  obtain ⟨hlt, hi⟩ := hnext htb
  obtain ⟨-, hleft⟩ := (hk hb).1 ho
  unfold TurnsSuffice
  rw [hcmd, hi]
  exact ⟨fun _ => by omega, fun h => absurd (ho.symm.trans h) opEncode_ne_opDecode⟩

theorem DecodeTurn.blockTurn {s t : State} (h : DecodeTurn s t) (hset : SameSetting s t) (hb : s.busy = true)
    (ho : s.cmd.op = Config.opDecode) : BlockTurn s t := by
  obtain ⟨hframe, hout, hnext⟩ := h
  have ⟨hcmd, _⟩ := hset
  refine ⟨hset, ⟨fun h => absurd (h.symm.trans ho) opEncode_ne_opDecode, fun _ => hframe⟩, hout, fun k hk htb => ?_⟩
  obtain ⟨hmoved, hle⟩ := hnext htb
  obtain ⟨-, hleft, -⟩ := (hk hb).2 ho
  unfold TurnsSuffice
  rw [hcmd]
  exact ⟨fun h => absurd (h.symm.trans ho) opEncode_ne_opDecode, fun _ => by omega⟩

theorem engineStep_blockTurn {s t : State} (h : engineStep s = .next t) : BlockTurn s t := by
  have hset := keeps_engineStep s t h
  cases hb : s.busy with
  | false =>
    rw [engineStep_idle hb] at h
    cases h
    exact ⟨hset, OtherEngineKept.refl _ _, id, fun _ _ htb => absurd htb (ne_true_of_eq_false hb)⟩
  | true =>
    rcases op_cases s.cmd.op with ho | ho
    · rw [engineStep_encode hb ho] at h
      exact ((yields_encodeTick hb).next h).blockTurn hset hb ho
    · rw [engineStep_decode hb ho] at h
      exact ((yields_decodeTick hb).next h).blockTurn hset hb ho

/-- Enough turns of the block end the call and keep what one turn keeps. -/
theorem engineSteps_end {k : Nat} {s t : State} (hk : s.busy = true → TurnsSuffice k s) (h : engineSteps k s = .next t) :
    t.busy = false ∧ OtherEngineKept s.cmd.op s t ∧ (OutputKept s → OutputKept t) := by
  induction k generalizing s with
  | zero =>
    cases h
    exact ⟨Bool.eq_false_iff.2 fun hb => not_turnsSuffice_zero _ (hk hb), OtherEngineKept.refl _ _, id⟩
  | succ k ih =>
    obtain ⟨u, hu, ht⟩ := andThen_eq_next.1 h
    obtain ⟨⟨hcmd, -⟩, hother, hout, hless⟩ := engineStep_blockTurn hu
    obtain ⟨hend, hother', hout'⟩ := ih (hless k hk) ht
    exact ⟨hend, hother.trans (hcmd ▸ hother'), fun hs => hout' (hout hs)⟩

/-! ## Commands -/

theorem otherEngineKept_initCall (c : Command) (s : State) : OtherEngineKept c.op s (initCall (accept c s)) := by
  constructor
  · intro ho
    rw [initCall_encode ho]
    exact ⟨rfl, rfl, rfl⟩
  · intro ho
    rw [initCall_decode ho]
    exact ⟨rfl, rfl, rfl, rfl, rfl, rfl, rfl⟩

theorem outputKept_initCall {c : Command} {s : State} (h : s.dst.wf) : OutputKept (initCall (accept c s)) :=
  ⟨by rwa [initCall_dst], by simp, by simp⟩

/-- What a command does to an idle block, whatever it answers: the call is over, the record is the one presented, and DST
beyond `output_length` is as before (R37). -/
def CallOver (c : Command) (s t : State) : Prop :=
  t.busy = false ∧ t.cmd = c ∧ ∀ x, t.outputLength ≤ x → t.dst.read x = s.dst.read x

/-- A call carried out: it ends, and keeps the other engine's registers and DST beyond `output_length`. -/
theorem finishCall_frame {c : Command} {s t : State} (hdst : s.dst.wf) (hargs : argsInvalid c.toCallArgs = false)
    (h : finishCall (initCall (accept c s)) = .next t) : OtherEngineKept c.op s t ∧ CallOver c s t := by
  obtain ⟨hcmd, -, hbefore, -⟩ := keeps_finishCall _ t h
  rw [initCall_cmd, accept_cmd] at hcmd
  rw [initCall_dstBefore, accept_dstBefore] at hbefore
  rw [finishCall_eq_engineSteps, initCall_cmd, accept_cmd] at h
  obtain ⟨hend, hother, hout⟩ := engineSteps_end (fun _ => turnsSuffice_initCall hargs s) h
  rw [initCall_cmd, accept_cmd] at hother
  obtain ⟨-, hbeyond, hlen⟩ := hout (outputKept_initCall hdst)
  refine ⟨(otherEngineKept_initCall c s).trans hother, hend, hcmd, fun x hx => ?_⟩
  rw [hbeyond x (by rwa [hlen hend] at hx), hbefore]

/-- Either command in its three cases: without effect, ended by invalid arguments, or carried out. -/
theorem exec_decodeCommand_frame {c : Command} {s t : State} (hdst : s.dst.wf)
    (h : exec (decodeCommand c) s = .next t) :
    HostKept s t ∧ OtherEngineKept c.op s t ∧ (s.busy = true → t = s) ∧ (s.busy = false → CallOver c s t) := by
  rw [exec_decodeCommand] at h
  refine ⟨issueCommand_hostKept keeps_finishCall h, ?_⟩
  rcases issueCommand_eq_next h with ⟨hb, rfl⟩ | ⟨hb, rfl⟩ | ⟨hb, hargs, h⟩
  · exact ⟨OtherEngineKept.refl _ _, fun _ => rfl, fun h => absurd hb (ne_true_of_eq_false h)⟩
  · exact ⟨OtherEngineKept.refl _ s, fun h => absurd h (ne_true_of_eq_false hb), fun _ => ⟨rfl, rfl, fun _ _ => rfl⟩⟩
  · obtain ⟨hother, hover⟩ := finishCall_frame hdst hargs h
    exact ⟨hother, fun h => absurd h (ne_true_of_eq_false hb), fun _ => hover⟩

/-- Settles O18, from the frame of either command. -/
theorem commandFrame : Obligations.CommandFrame := by
  intro a s t hdst
  constructor
  · intro h
    obtain ⟨⟨hsrc, hover, hread, hhost, hfree⟩, ⟨hframe, -⟩, hbusy, hidle⟩ :=
      exec_decodeCommand_frame (c := { toCallArgs := a, op := Config.opEncode }) hdst h
    obtain ⟨hrd, hh, hsym⟩ := hframe rfl
    exact ⟨hsrc, hrd, hh, hsym, hover, hread, hhost, hfree, hbusy, hidle⟩
  · intro h
    obtain ⟨⟨hsrc, hover, hread, hhost, hfree⟩, ⟨-, hframe⟩, hbusy, hidle⟩ :=
      exec_decodeCommand_frame (c := { toCallArgs := a, op := Config.opDecode }) hdst h
    obtain ⟨hmode, hi, hseg, hkind, hs, hhdr, heq⟩ := hframe rfl
    exact ⟨hsrc, hmode, hi, hseg, hkind, hs, hhdr, heq, hover, hread, hhost, hfree, hbusy, hidle⟩

end Sys2Proof.Machine
end

section
/-! SUPPORT. The header byte read and written: each kind and length has one header and each header one kind and length
(R50 to R56); the two commands and their records likewise (R61). -/

namespace Sys2Proof.Machine

/-! ## A header's fields -/

theorem headerKind_eq_run_iff_bit (h : Byte) : headerKind h = .run ↔ h.getLsbD 7 = true := by
  simp [headerKind]

theorem headerKind_eq_copy_iff_bit (h : Byte) : headerKind h = .copy ↔ h.getLsbD 7 = false := by
  simp [headerKind]

theorem sint8_byte {v : Int} (lo : -128 ≤ v) (hi : v ≤ 127) : sint8 (byte v) = v :=
  BitVec.toInt_ofInt_eq_self (by decide) (by simpa using lo) (by simpa using Int.lt_add_one_of_le hi)

theorem uint8_lt (h : Byte) : uint8 h < 256 := h.isLt

/-- The unsigned reading of a byte from the signed one (R7). -/
theorem uint8_eq_sint8 (h : Byte) : (uint8 h : Int) = if sint8 h < 0 then sint8 h + 256 else sint8 h := by
  have hlt := uint8_lt h
  have hcond : sint8 h = if 2 * uint8 h < 2 ^ 8 then (uint8 h : Int) else (uint8 h : Int) - (2 ^ 8 : Nat) :=
    BitVec.toInt_eq_toNat_cond h
  split at hcond <;> split <;> omega

theorem headerMag_eq_mod (h : Byte) : headerMag h = uint8 h % 128 := by
  simp [headerMag, uint8]

/-- The length of a RUN header in the three forms R52 gives it. -/
theorem headerLength_run_forms {h : Byte} (hk : headerKind h = .run) :
    (headerLength .run h : Int) = 1 - sint8 h ∧ headerLength .run h + uint8 h = 257 ∧
      headerLength .run h + headerMag h = 129 := by
  have hneg := (headerKind_eq_run_iff h).1 hk
  have hlo : -128 ≤ sint8 h := BitVec.le_toInt h
  have hu := uint8_eq_sint8 h
  rw [if_pos hneg] at hu
  rw [headerMag_eq_mod, headerLength]
  omega

/-- The length of a COPY header in the three forms R53 gives it. -/
theorem headerLength_copy_forms {h : Byte} (hk : headerKind h = .copy) :
    (headerLength .copy h : Int) = sint8 h + 1 ∧ headerLength .copy h = uint8 h + 1 ∧
      headerLength .copy h = headerMag h + 1 := by
  have hnonneg := (headerKind_eq_copy_iff h).1 hk
  have hhi : sint8 h < 128 := BitVec.toInt_lt
  have hu := uint8_eq_sint8 h
  rw [if_neg (by omega)] at hu
  rw [headerMag_eq_mod, headerLength]
  omega

/-! ## Reading a header that was written -/

/-- The signed value of a written header: `1 - n` for a run, `n - 1` for a copy, neither of them cut off (R52, R53). -/
theorem sint8_headerByte_run {n : Nat} (h : lengthOk .run n = true) : sint8 (headerByte .run n) = 1 - n := by
  have := (Laws.lengthOk_run n).1 h
  exact sint8_byte (by omega) (by omega)

theorem sint8_headerByte_copy {n : Nat} (h : lengthOk .copy n = true) : sint8 (headerByte .copy n) = n - 1 := by
  have := (Laws.lengthOk_copy n).1 h
  exact sint8_byte (by omega) (by omega)

theorem headerKind_headerByte {k : Kind} {n : Nat} (h : lengthOk k n = true) : headerKind (headerByte k n) = k := by
  cases k with
  | run =>
    have := (Laws.lengthOk_run n).1 h
    rw [headerKind_eq_run_iff, sint8_headerByte_run h]
    omega
  | copy =>
    have := (Laws.lengthOk_copy n).1 h
    rw [headerKind_eq_copy_iff, sint8_headerByte_copy h]
    omega

theorem headerLength_headerByte {k : Kind} {n : Nat} (h : lengthOk k n = true) :
    headerLength k (headerByte k n) = n := by
  cases k with
  | run => rw [headerLength, sint8_headerByte_run h]; omega
  | copy => rw [headerLength, sint8_headerByte_copy h]; omega

/-! ## Token instructions -/

@[simp] theorem tokenInstr_wf (k : Kind) (n : Nat) : (tokenInstr k n).wf = lengthOk k n := by
  cases k <;> rfl

@[simp] theorem encode_tokenInstr (k : Kind) (n : Nat) : encode (tokenInstr k n) = .bytes [headerByte k n] := by
  cases k <;> rfl

theorem decodeHeader_of_kind {k : Kind} {h : Byte} (hk : headerKind h = k) :
    decodeHeader h = tokenInstr k (headerLength k h) := by
  rw [decodeHeader, hk]

theorem decodeHeader_headerByte {k : Kind} {n : Nat} (h : lengthOk k n = true) :
    decodeHeader (headerByte k n) = tokenInstr k n := by
  rw [decodeHeader_of_kind (headerKind_headerByte h), headerLength_headerByte h]

/-- Every byte is the header of a well-formed token (R56). -/
theorem decodeHeader_wf (h : Byte) : (decodeHeader h).wf = true := by
  rw [decodeHeader, tokenInstr_wf, lengthOk_headerLength]

theorem encode_decodeHeader (h : Byte) : encode (decodeHeader h) = .bytes [h] := by
  rw [decodeHeader, encode_tokenInstr, headerByte_headerLength]

theorem decode_encode_tokenInstr {k : Kind} {n : Nat} (h : lengthOk k n = true) :
    decode (encode (tokenInstr k n)) = .instr (tokenInstr k n) [] := by
  rw [encode_tokenInstr, decode, decodeToken, decodeHeader_headerByte h]

/-! ## Commands -/

/-- Every command record is written from the command it stands for (R61). -/
theorem encode_decodeCommand (c : Command) : encode (decodeCommand c) = .record c := by
  obtain ⟨a, op⟩ := c
  rcases op_cases op with rfl | rfl <;> rfl

theorem decodeCommand_wf (c : Command) : (decodeCommand c).wf = true := by
  unfold decodeCommand
  split <;> rfl

end Sys2Proof.Machine
end

section
/-! SUPPORT. The statements about single headers and records. -/

namespace Sys2Proof.Machine

/-- Settles O4, by cases on the instruction: a token's header carries its kind and length, a command's `op` its mnemonic. -/
theorem decodeUndoesEncode : Obligations.DecodeUndoesEncode := by
  intro i hwf
  cases i with
  | copy n => exact decode_encode_tokenInstr (k := .copy) hwf
  | run n => exact decode_encode_tokenInstr (k := .run) hwf
  | encode args => rfl
  | decode args => rfl

/-- Settles O5: the instruction a header decodes to is the only one it encodes, for decoding undoes encoding. -/
theorem everyEncodingIsOneInstruction : Obligations.EveryEncodingIsOneInstruction := by
  refine ⟨fun h rest => ⟨decodeHeader h, rfl, decodeHeader_wf h, encode_decodeHeader h, fun j hwf hj => ?_⟩,
    fun c => ⟨decodeCommand c, rfl, decodeCommand_wf c, encode_decodeCommand c⟩, fun bs why => ?_⟩
  · have hdec := decodeUndoesEncode j hwf
    rw [hj] at hdec
    cases hdec
    rfl
  · cases bs <;> simp [decode, decodeToken]

/-- Settles O1: both directions from the signed value of the header, `1 - n`. -/
theorem runHeaderCarriesLength : Obligations.RunHeaderCarriesLength := by
  refine ⟨fun h hbit => ?_, fun n lo hi => ?_, by decide, by decide⟩
  · have hk := (headerKind_eq_run_iff_bit h).2 hbit
    obtain ⟨hsint, huint, hmag⟩ := headerLength_run_forms hk
    have henc := encode_decodeHeader h
    have hwf := decodeHeader_wf h
    rw [decodeHeader_of_kind hk] at henc hwf
    obtain ⟨lo, hi⟩ := (Laws.lengthOk_run _).1 hwf
    exact ⟨headerLength .run h, decodeHeader_of_kind hk, lo, hi, hsint, huint, hmag, henc⟩
  · have hok := (Laws.lengthOk_run n).2 ⟨lo, hi⟩
    have hk := headerKind_headerByte hok
    obtain ⟨-, huint, -⟩ := headerLength_run_forms hk
    rw [headerLength_headerByte hok, Nat.add_comm] at huint
    exact ⟨headerByte .run n, rfl, rfl, huint, (headerKind_eq_run_iff_bit _).1 hk, decodeHeader_headerByte hok⟩

/-- Settles O2: both directions from the signed value of the header, `n - 1`. -/
theorem copyHeaderCarriesLength : Obligations.CopyHeaderCarriesLength := by
  refine ⟨fun h hbit => ?_, fun n lo hi => ?_, by decide, by decide⟩
  · have hk := (headerKind_eq_copy_iff_bit h).2 hbit
    obtain ⟨hsint, huint, hmag⟩ := headerLength_copy_forms hk
    have henc := encode_decodeHeader h
    have hwf := decodeHeader_wf h
    rw [decodeHeader_of_kind hk] at henc hwf
    obtain ⟨lo, hi⟩ := (Laws.lengthOk_copy _).1 hwf
    exact ⟨headerLength .copy h, decodeHeader_of_kind hk, lo, hi, hsint, huint, hmag, henc⟩
  · have hok := (Laws.lengthOk_copy n).2 ⟨lo, hi⟩
    exact ⟨headerByte .copy n, rfl, rfl, (headerKind_eq_copy_iff_bit _).1 (headerKind_headerByte hok),
      decodeHeader_headerByte hok⟩

/-! ## The table of R55 -/

/-- The table in one line: the copies of 1 to 128, then the runs of 129 down to 2. -/
theorem headerTable_eq :
    headerTable = (List.range 128).map (fun v => (Kind.copy, v + 1)) ++
      (List.range 128).map (fun v => (Kind.run, 129 - v)) := by
  decide +kernel

theorem headerTable_getElem? (h : Byte) :
    headerTable[uint8 h]? = some (headerKind h, headerLength (headerKind h) h) := by
  have hlt := uint8_lt h
  have hu := uint8_eq_sint8 h
  rw [headerTable_eq]
  cases hk : headerKind h with
  | copy =>
    obtain ⟨-, hlen, -⟩ := headerLength_copy_forms hk
    have hnonneg := (headerKind_eq_copy_iff h).1 hk
    have hhi : sint8 h < 128 := BitVec.toInt_lt
    rw [if_neg (by omega)] at hu
    rw [List.getElem?_append_left (by simp; omega), List.getElem?_map, List.getElem?_range (by omega), hlen]
    rfl
  | run =>
    obtain ⟨-, hlen, -⟩ := headerLength_run_forms hk
    have hneg := (headerKind_eq_run_iff h).1 hk
    have hlo : -128 ≤ sint8 h := BitVec.le_toInt h
    rw [if_pos hneg] at hu
    rw [List.getElem?_append_right (by simp; omega), List.getElem?_map, List.length_map, List.length_range,
      List.getElem?_range (by omega), Option.map_some, show 129 - (uint8 h - 128) = headerLength .run h by omega]

/-- What the mask of R55 leaves of a header. -/
theorem and_signBit (h : Byte) : h &&& 0x80#8 = if headerKind h = .run then 0x80#8 else 0x00#8 := by
  revert h
  decide

/-- Settles O3, the table from its one-line form, the masks from the bit they leave. -/
theorem headerTableIsTheSpecs : Obligations.HeaderTableIsTheSpecs := by
  refine ⟨by rw [headerTable_eq]; simp, fun h => ⟨?_, ?_⟩⟩
  · rw [headerTable_getElem?]
    rfl
  · rw [and_signBit]
    cases headerKind h <;> decide

/-- Settles O6: the decoder run on each word. -/
theorem wordsWrittenOutDecode : Obligations.WordsWrittenOutDecode := by
  unfold Obligations.WordsWrittenOutDecode
  decide

end Sys2Proof.Machine
end

section
/-! SUPPORT. Whole tokens as bytes, and how a byte list begins: with a whole token, or with a truncated one (R54, R57,
R58). -/

namespace Sys2Proof.Machine

/-! ## A token's kind and length -/

/-- The kind a token's header tells. -/
def tokenKind : Token → Kind
  | .run _ _ => .run
  | .copy _ => .copy

/-- The length a token's header carries. -/
def tokenLength : Token → Nat
  | .run n _ => n
  | .copy data => data.length

theorem token_wf_iff (t : Token) : t.wf = true ↔ lengthOk (tokenKind t) (tokenLength t) = true := by
  cases t <;> rfl

theorem one_le_tokenLength {t : Token} (h : t.wf = true) : 1 ≤ tokenLength t :=
  one_le_of_lengthOk ((token_wf_iff t).1 h)

theorem tokenLength_le {t : Token} (h : t.wf = true) : tokenLength t ≤ 129 := by
  rw [token_wf_iff] at h
  cases t with
  | run n sym => exact ((Laws.lengthOk_run n).1 h).2
  | copy data => exact ((Laws.lengthOk_copy _).1 h).2.trans (by decide)

@[simp] theorem tokenExpand_length (t : Token) : (tokenExpand t).length = tokenLength t := by
  cases t <;> simp [tokenExpand, tokenLength]

@[simp] theorem token_bytes_length (t : Token) : t.bytes.length = tokenSize (tokenKind t) (tokenLength t) := by
  cases t <;> simp [Token.bytes, tokenKind, tokenLength]

theorem token_bytes_head? (t : Token) : t.bytes.head? = some (headerByte (tokenKind t) (tokenLength t)) := by
  cases t <;> rfl

theorem tokenSize_le_129 {t : Token} (h : t.wf = true) : tokenSize (tokenKind t) (tokenLength t) ≤ 129 := by
  rw [token_wf_iff] at h
  cases t with
  | run n sym => exact (by decide : 2 ≤ 129)
  | copy data => exact Nat.succ_le_succ ((Laws.lengthOk_copy _).1 h).2

/-- Settles O7, from the range of a well-formed token's length. -/
theorem tokenSizes : Obligations.TokenSizes := fun t hwf =>
  ⟨tokenKind t, tokenLength t, token_bytes_head? t, token_bytes_length t, tokenExpand_length t,
    by rw [token_bytes_length]; exact two_le_tokenSize (one_le_tokenLength hwf),
    by rw [token_bytes_length]; exact tokenSize_le_129 hwf, tokenLength_le hwf⟩

/-! ## Streams of tokens -/

@[simp] theorem streamBytes_nil : streamBytes [] = [] := rfl
@[simp] theorem streamBytes_cons (t : Token) (ts : List Token) : streamBytes (t :: ts) = t.bytes ++ streamBytes ts := rfl
@[simp] theorem streamMeaning_nil : streamMeaning [] = [] := rfl
@[simp] theorem streamMeaning_cons (t : Token) (ts : List Token) :
    streamMeaning (t :: ts) = tokenExpand t ++ streamMeaning ts := rfl

theorem length_le_streamBytes (ts : List Token) : ts.length ≤ (streamBytes ts).length := by
  induction ts with
  | nil => exact Nat.zero_le 0
  | cons t ts ih =>
    have : 1 ≤ tokenSize (tokenKind t) (tokenLength t) := by cases tokenKind t <;> simp
    rw [streamBytes_cons, List.length_append, List.length_cons, token_bytes_length]
    omega

/-- The fuel of parser and decoder, one for each byte, covers all the tokens at the front. -/
theorem exists_fuel_for_tokens (ts : List Token) (rest : List Byte) :
    ∃ fuel, (streamBytes ts ++ rest).length = ts.length + fuel := by
  refine Nat.exists_eq_add_of_le ?_
  rw [List.length_append]
  exact Nat.le_add_right_of_le (length_le_streamBytes ts)

/-- No byte of a stream stands for more than 129. -/
theorem streamMeaning_length_le {ts : List Token} (h : ∀ t ∈ ts, t.wf = true) :
    (streamMeaning ts).length ≤ 129 * (streamBytes ts).length := by
  induction ts with
  | nil => exact Nat.zero_le _
  | cons t ts ih =>
    obtain ⟨ht, hts⟩ := List.forall_mem_cons.1 h
    have hlen := tokenLength_le ht
    have hsize := two_le_tokenSize (k := tokenKind t) (one_le_tokenLength ht)
    have := ih hts
    simp only [streamBytes_cons, streamMeaning_cons, List.length_append, tokenExpand_length, token_bytes_length]
    omega

/-! ## The front of a byte list -/

/-- The stream ends inside the token with the header `h`: fewer bytes than the token takes (R58). -/
def TruncatedToken (h : Byte) (tail : List Byte) : Prop :=
  tail.length + 1 < tokenSize (headerKind h) (headerLength (headerKind h) h)

/-- The two ways of R58 to end inside a token. -/
theorem truncatedToken_iff (h : Byte) (tail : List Byte) :
    TruncatedToken h tail ↔
      headerKind h = .run ∧ tail = [] ∨ headerKind h = .copy ∧ tail.length < headerLength .copy h := by
  unfold TruncatedToken
  cases headerKind h with
  | run => simp
  | copy => simp

/-- A header whose payload is there begins a whole token. -/
theorem exists_token_of_not_truncated {h : Byte} {tail : List Byte} (hwhole : ¬ TruncatedToken h tail) :
    ∃ (t : Token) (rest : List Byte), t.wf = true ∧ h :: tail = t.bytes ++ rest := by
  have hok := lengthOk_headerLength h
  have hhdr := headerByte_headerLength h
  rw [truncatedToken_iff] at hwhole
  cases hk : headerKind h with
  | run =>
    rw [hk] at hok hhdr
    cases tail with
    | nil => simp [hk] at hwhole
    | cons sym rest => exact ⟨.run (headerLength .run h) sym, rest, hok, by simp [Token.bytes, hhdr]⟩
  | copy =>
    rw [hk] at hok hhdr
    have hlen : (tail.take (headerLength .copy h)).length = headerLength .copy h := by simpa [hk] using hwhole
    exact ⟨.copy (tail.take (headerLength .copy h)), tail.drop (headerLength .copy h), by rwa [Token.wf, hlen],
      by simp [Token.bytes, hlen, hhdr]⟩

/-- Every byte list is whole tokens, or whole tokens and then a truncated one (R57, R58). -/
theorem exists_tokens_and_tail (bs : List Byte) :
    ∃ ts : List Token, (∀ t ∈ ts, t.wf = true) ∧
      (bs = streamBytes ts ∨ ∃ h tail, bs = streamBytes ts ++ h :: tail ∧ TruncatedToken h tail) := by
  induction hn : bs.length using Nat.strong_induction_on generalizing bs with
  | _ n ih =>
    cases bs with
    | nil => exact ⟨[], by simp, .inl rfl⟩
    | cons h tail =>
      by_cases htrunc : TruncatedToken h tail
      · exact ⟨[], by simp, .inr ⟨h, tail, rfl, htrunc⟩⟩
      · obtain ⟨t, rest, ht, e⟩ := exists_token_of_not_truncated htrunc
        have hsize := two_le_tokenSize (k := tokenKind t) (one_le_tokenLength ht)
        have hlt : rest.length < n := by
          rw [← hn, e, List.length_append, token_bytes_length]
          omega
        obtain ⟨ts, hts, hrest⟩ := ih _ hlt rest rfl
        refine ⟨t :: ts, List.forall_mem_cons.2 ⟨ht, hts⟩, ?_⟩
        rw [e]
        rcases hrest with rfl | ⟨h', tail', rfl, htrunc'⟩
        · exact .inl rfl
        · exact .inr ⟨h', tail', by simp, htrunc'⟩

end Sys2Proof.Machine
end

section
/-! SUPPORT. What the parser answers on whole tokens and on a truncated one, and so on every byte list (R57, R58). -/

namespace Sys2Proof.Machine

theorem parseTokens_nil (fuel : Nat) : parseTokens fuel [] = some [] := by
  cases fuel <;> rfl

theorem parseTokens_token {t : Token} (h : t.wf = true) (fuel : Nat) (rest : List Byte) :
    parseTokens (fuel + 1) (t.bytes ++ rest) = (parseTokens fuel rest).map (t :: ·) := by
  rw [token_wf_iff] at h
  cases t with
  | run n sym =>
    simp only [tokenKind, tokenLength] at h
    simp [Token.bytes, parseTokens, headerKind_headerByte h, headerLength_headerByte h]
  | copy data =>
    simp only [tokenKind, tokenLength] at h
    simp [Token.bytes, parseTokens, headerKind_headerByte h, headerLength_headerByte h]

theorem parseTokens_truncated {h : Byte} {tail : List Byte} (htrunc : TruncatedToken h tail) (fuel : Nat) :
    parseTokens fuel (h :: tail) = none := by
  cases fuel with
  | zero => rfl
  | succ fuel =>
    rcases (truncatedToken_iff h tail).1 htrunc with ⟨hk, rfl⟩ | ⟨hk, hlt⟩
    · simp [parseTokens, hk]
    · simp [parseTokens, hk, hlt]

/-- Whole tokens at the front are parsed one by one, whatever follows them. -/
theorem parseTokens_streamBytes_append {ts : List Token} (h : ∀ t ∈ ts, t.wf = true) (fuel : Nat) (rest : List Byte) :
    parseTokens (ts.length + fuel) (streamBytes ts ++ rest) = (parseTokens fuel rest).map (ts ++ ·) := by
  induction ts with
  | nil => simp
  | cons t ts ih =>
    obtain ⟨ht, hts⟩ := List.forall_mem_cons.1 h
    rw [streamBytes_cons, List.append_assoc, List.length_cons, Nat.add_right_comm, parseTokens_token ht, ih hts,
      Option.map_map]
    rfl

theorem parseStream_streamBytes_append {ts : List Token} (h : ∀ t ∈ ts, t.wf = true) (rest : List Byte) :
    ∃ fuel, parseStream (streamBytes ts ++ rest) = (parseTokens fuel rest).map (ts ++ ·) := by
  obtain ⟨fuel, hfuel⟩ := exists_fuel_for_tokens ts rest
  exact ⟨fuel, by rw [parseStream, hfuel, parseTokens_streamBytes_append h]⟩

theorem parseStream_streamBytes {ts : List Token} (h : ∀ t ∈ ts, t.wf = true) :
    parseStream (streamBytes ts) = some ts := by
  obtain ⟨fuel, e⟩ := parseStream_streamBytes_append h []
  simpa [parseTokens_nil] using e

theorem parseStream_truncated {ts : List Token} {h : Byte} {tail : List Byte} (hts : ∀ t ∈ ts, t.wf = true)
    (htrunc : TruncatedToken h tail) : parseStream (streamBytes ts ++ h :: tail) = none := by
  obtain ⟨fuel, e⟩ := parseStream_streamBytes_append hts (h :: tail)
  rw [e, parseTokens_truncated htrunc, Option.map_none]

/-- Settles O8: a list of bytes that parses is whole tokens, for one that ends inside a token does not. -/
theorem wireGrammarParses : Obligations.WireGrammarParses := by
  refine ⟨fun ts hts => parseStream_streamBytes hts, fun bs ts hparse => ?_⟩
  obtain ⟨us, hus, rfl | ⟨h, tail, rfl, htrunc⟩⟩ := exists_tokens_and_tail bs
  · rw [parseStream_streamBytes hus] at hparse
    cases hparse
    exact ⟨rfl, hus⟩
  · rw [parseStream_truncated hus htrunc] at hparse
    cases hparse

/-- A list of bytes does not parse exactly when it ends inside a token. -/
theorem parseStream_eq_none_iff (bs : List Byte) :
    parseStream bs = none ↔
      ∃ (ts : List Token) (h : Byte) (tail : List Byte),
        (∀ t ∈ ts, t.wf = true) ∧ bs = streamBytes ts ++ h :: tail ∧ TruncatedToken h tail := by
  constructor
  · intro hnone
    obtain ⟨ts, hts, rfl | ⟨h, tail, e, htrunc⟩⟩ := exists_tokens_and_tail bs
    · rw [parseStream_streamBytes hts] at hnone
      cases hnone
    · exact ⟨ts, h, tail, hts, e, htrunc⟩
  · rintro ⟨ts, h, tail, hts, rfl, htrunc⟩
    exact parseStream_truncated hts htrunc

end Sys2Proof.Machine
end

section
/-! SUPPORT. What the decoder function `dec` (R126) answers at the end of a stream, on a token that fits, on one that does
not, and on a truncated one. -/

namespace Sys2Proof.Machine

theorem decGo_nil (cap fuel : Nat) (out : List Byte) : decGo cap fuel [] out = resultOf Config.stOk out := by
  cases fuel <;> rfl

theorem decGo_truncated {h : Byte} {tail : List Byte} (htrunc : TruncatedToken h tail) (cap fuel : Nat)
    (out : List Byte) : decGo cap fuel (h :: tail) out = resultOf Config.stSrcDecodeError out := by
  cases fuel with
  | zero => rfl
  | succ fuel => exact if_pos htrunc

/-- A whole token that does not fit. -/
theorem decGo_noRoom {h : Byte} {tail : List Byte} {cap : Nat} {out : List Byte} (hwhole : ¬ TruncatedToken h tail)
    (hroom : cap - out.length < headerLength (headerKind h) h) (fuel : Nat) :
    decGo cap (fuel + 1) (h :: tail) out = resultOf Config.stDstWriteError out :=
  (if_neg hwhole).trans (if_pos hroom)

/-- A whole token that fits: its expansion goes out. -/
theorem decGo_token {t : Token} {cap : Nat} {out : List Byte} (h : t.wf = true) (hroom : tokenLength t ≤ cap - out.length)
    (fuel : Nat) (rest : List Byte) :
    decGo cap (fuel + 1) (t.bytes ++ rest) out = decGo cap fuel rest (out ++ tokenExpand t) := by
  rw [token_wf_iff] at h
  cases t with
  | run n sym =>
    simp only [tokenKind, tokenLength] at h hroom
    simp [Token.bytes, tokenExpand, decGo, headerKind_headerByte h, headerLength_headerByte h, Nat.not_lt.2 hroom]
  | copy data =>
    simp only [tokenKind, tokenLength] at h hroom
    simp [Token.bytes, tokenExpand, decGo, headerKind_headerByte h, headerLength_headerByte h, Nat.not_lt.2 hroom]

/-- Whole tokens at the front with room for their meaning are expanded one by one, whatever follows them. -/
theorem decGo_streamBytes_append {ts : List Token} {cap : Nat} {out : List Byte} (h : ∀ t ∈ ts, t.wf = true)
    (hroom : out.length + (streamMeaning ts).length ≤ cap) (fuel : Nat) (rest : List Byte) :
    decGo cap (ts.length + fuel) (streamBytes ts ++ rest) out = decGo cap fuel rest (out ++ streamMeaning ts) := by
  induction ts generalizing out with
  | nil => simp
  | cons t ts ih =>
    obtain ⟨ht, hts⟩ := List.forall_mem_cons.1 h
    rw [streamMeaning_cons, List.length_append, tokenExpand_length] at hroom
    rw [streamBytes_cons, List.append_assoc, List.length_cons, Nat.add_right_comm, decGo_token ht (by omega),
      ih hts (by rw [List.length_append, tokenExpand_length]; omega), streamMeaning_cons, List.append_assoc]

theorem dec_streamBytes_append {ts : List Token} {cap : Nat} (h : ∀ t ∈ ts, t.wf = true)
    (hroom : (streamMeaning ts).length ≤ cap) (rest : List Byte) :
    ∃ fuel, dec (streamBytes ts ++ rest) cap = decGo cap fuel rest (streamMeaning ts) := by
  obtain ⟨fuel, hfuel⟩ := exists_fuel_for_tokens ts rest
  exact ⟨fuel, by rw [dec, hfuel, decGo_streamBytes_append h (by simpa using hroom), List.nil_append]⟩

/-- A well-formed stream with room for its meaning decodes to its meaning (R59, R128). -/
theorem dec_streamBytes {ts : List Token} {cap : Nat} (h : ∀ t ∈ ts, t.wf = true)
    (hroom : (streamMeaning ts).length ≤ cap) : dec (streamBytes ts) cap = resultOf Config.stOk (streamMeaning ts) := by
  obtain ⟨fuel, e⟩ := dec_streamBytes_append h hroom []
  rw [List.append_nil] at e
  rw [e, decGo_nil]

/-- A stream that ends inside a token, with room for all before it, ends with `SRC_DECODE_ERROR` (R127). -/
theorem dec_truncated {ts : List Token} {cap : Nat} {h : Byte} {tail : List Byte} (hts : ∀ t ∈ ts, t.wf = true)
    (hroom : (streamMeaning ts).length ≤ cap) (htrunc : TruncatedToken h tail) :
    dec (streamBytes ts ++ h :: tail) cap = resultOf Config.stSrcDecodeError (streamMeaning ts) := by
  obtain ⟨fuel, e⟩ := dec_streamBytes_append hts hroom (h :: tail)
  rw [e, decGo_truncated htrunc]

@[simp] theorem resultOf_status (st : StatusBits) (out : List Byte) : (resultOf st out).status = st := rfl

/-- With 129 bytes of room for each byte of the source, the decoder's error is the parser's. -/
theorem dec_srcDecodeError_iff {bs : List Byte} {cap : Nat} (hcap : 129 * bs.length ≤ cap) :
    (dec bs cap).status = Config.stSrcDecodeError ↔ parseStream bs = none := by
  obtain ⟨ts, hts, rfl | ⟨h, tail, rfl, htrunc⟩⟩ := exists_tokens_and_tail bs
  · rw [dec_streamBytes hts ((streamMeaning_length_le hts).trans hcap), parseStream_streamBytes hts, resultOf_status]
    exact iff_of_false (by decide) nofun
  · have hroom : (streamMeaning ts).length ≤ cap := by
      have := streamMeaning_length_le hts
      rw [List.length_append] at hcap
      omega
    rw [dec_truncated hts hroom htrunc, parseStream_truncated hts htrunc, resultOf_status]
    exact iff_of_true rfl rfl

/-- Settles O9: every byte list is whole tokens, or whole tokens and a truncated one; parser and decoder tell which. -/
theorem truncationIsTheOnlyMalformation : Obligations.TruncationIsTheOnlyMalformation := by
  refine fun bs => ⟨?_, fun cap hcap => dec_srcDecodeError_iff hcap⟩
  rw [parseStream_eq_none_iff]
  simp only [truncatedToken_iff]

end Sys2Proof.Machine
end

section
/-! SUPPORT. The decoder engine computes `dec` (R126): each turn is one call of `go`. -/

namespace Sys2Proof.Machine

/-! ## The result a state holds -/

theorem result_done (s : State) : (done s).result = resultOf Config.stOk (s.dst.slice 0 s.outLen) := by
  simp [State.result, resultOf]

theorem result_raise {e : StatusBits} (he : e ≠ Config.stInvalidArgument) (s : State) :
    (raise e s).result = resultOf e (s.dst.slice 0 s.outLen) := by
  simp [State.result, resultOf, he]

/-- A call that has ended with the result `r`. -/
def EndsWith (r : CallResult) (t : State) : Prop := t.busy = false ∧ t.resultDefined = true ∧ t.result = r

theorem endsWith_done (s : State) : EndsWith (resultOf Config.stOk (s.dst.slice 0 s.outLen)) (done s) :=
  ⟨rfl, rfl, result_done s⟩

theorem endsWith_raise {e : StatusBits} (he : e ≠ Config.stInvalidArgument) (s : State) :
    EndsWith (resultOf e (s.dst.slice 0 s.outLen)) (raise e s) :=
  ⟨rfl, rfl, result_raise he s⟩

/-! ## One token -/

/-- What a token of kind `k` and length `n` at the cursor comes to, the step's temporaries being `tmp` (R123, R124). -/
def tokenOutcome (k : Kind) (n : Nat) (tmp : Temps) (s : State) : State :=
  if truncated k n s then raise Config.stSrcDecodeError { s with tmp := tmp }
  else if noRoom n s then raise Config.stDstWriteError { s with tmp := tmp }
  else tokenDone n (tokenSize k n) (tokenExpand (tokenAt k (s.rd + 1) n s.src)) { s with tmp := tmp }

theorem execToken_eq (k : Kind) (n : Nat) (s : State) :
    ∃ tmp, execToken (tokenInstr k n) s = .next (tokenOutcome k n tmp s) := by
  unfold tokenOutcome
  cases k with
  | run =>
    rcases execRun_cases n s with ⟨h1, e⟩ | ⟨h1, h2, e⟩ | ⟨h1, h2, e⟩
    · exact ⟨_, by rw [h1]; exact e⟩
    · exact ⟨_, by rw [h1, h2]; exact e⟩
    · exact ⟨_, by rw [h1, h2]; exact e⟩
  | copy =>
    rcases execCopy_cases n s with ⟨h1, e⟩ | ⟨h1, h2, e⟩ | ⟨h1, h2, e⟩
    · exact ⟨_, by rw [h1]; exact e⟩
    · exact ⟨_, by rw [h1, h2]; exact e⟩
    · exact ⟨_, by rw [h1, h2]; exact e⟩

theorem decodeTick_at_end {s : State} (h : s.rd = s.cmd.srcLen) : decodeTick s = .next (done s) := by
  rcases decodeTick_cases s with ⟨-, e⟩ | ⟨hne, -⟩
  · exact e
  · exact absurd h hne

/-- One turn before the end of SRC: the token whose header is at the cursor. -/
theorem decodeTick_before_end {s : State} (h : s.rd < s.cmd.srcLen) :
    ∃ tmp, decodeTick s = .next
      (tokenOutcome (headerKind (s.src.read s.rd)) (headerLength (headerKind (s.src.read s.rd)) (s.src.read s.rd))
        tmp s) := by
  rcases decodeTick_cases s with ⟨hend, -⟩ | ⟨-, e⟩
  · exact absurd hend h.ne
  · rw [e, withSrc_of_lt h]
    exact execToken_eq _ _ (setH (s.src.read s.rd) s)

/-- The output after a token: its expansion stands behind what was there. -/
theorem tokenDone_output {n size : Nat} {out : List Byte} {s : State} (hwf : s.dst.wf) (hn : out.length = n) :
    (tokenDone n size out s).dst.slice 0 (tokenDone n size out s).outLen = s.dst.slice 0 s.outLen ++ out := by
  subst hn
  show (writeBytes out s.outLen s.dst).slice 0 (s.outLen + out.length) = _
  rw [Memory.slice_add, slice_writeBytes_before hwf, Nat.zero_add, slice_writeBytes_same hwf]

/-! ## What is still to be read -/

/-- The bytes of SRC from the cursor on. -/
def unread (s : State) : List Byte := s.src.slice s.rd (remaining s)

theorem unread_eq_nil {s : State} (h : s.rd = s.cmd.srcLen) : unread s = [] := by
  simp [unread, remaining, h]

theorem one_le_remaining {s : State} (h : s.rd < s.cmd.srcLen) : 1 ≤ remaining s := Nat.sub_pos_of_lt h

/-- Before the end of SRC the next byte is a header. -/
theorem unread_eq_cons {s : State} (h : s.rd < s.cmd.srcLen) :
    unread s = s.src.read s.rd :: s.src.slice (s.rd + 1) (remaining s - 1) := by
  rw [unread, ← Memory.slice_succ, Nat.sub_add_cancel (one_le_remaining h)]

/-- The source check of a token asks whether the stream ends inside it. -/
theorem truncatedToken_iff_truncated {s : State} (h : s.rd < s.cmd.srcLen) :
    TruncatedToken (s.src.read s.rd) (s.src.slice (s.rd + 1) (remaining s - 1)) ↔
      truncated (headerKind (s.src.read s.rd)) (headerLength (headerKind (s.src.read s.rd)) (s.src.read s.rd)) s
        = true := by
  rw [TruncatedToken, Memory.slice_length, Nat.sub_add_cancel (one_le_remaining h), truncated, decide_eq_true_iff]

/-- A whole token at the cursor is the front of what is unread. -/
theorem unread_eq_token {k : Kind} {n : Nat} {s : State} (hhdr : headerByte k n = s.src.read s.rd)
    (hthere : truncated k n s = false) :
    unread s =
      (tokenAt k (s.rd + 1) n s.src).bytes ++ s.src.slice (s.rd + tokenSize k n) (remaining s - tokenSize k n) := by
  have hle : tokenSize k n ≤ remaining s := Nat.not_lt.1 (of_decide_eq_false hthere)
  rw [tokenAt_bytes_eq_slice hhdr, ← Memory.slice_add, Nat.add_sub_cancel' hle, unread]

@[simp] theorem tokenKind_tokenAt (k : Kind) (a n : Nat) (m : Memory) : tokenKind (tokenAt k a n m) = k := by
  cases k <;> rfl

@[simp] theorem tokenLength_tokenAt (k : Kind) (a n : Nat) (m : Memory) : tokenLength (tokenAt k a n m) = n := by
  rw [← tokenExpand_length, tokenAt_expand_length]

/-! ## The loop -/

/-- What `go` of R126 answers from here, its source the unread bytes and its output what DST holds. -/
def decRest (fuel : Nat) (s : State) : CallResult :=
  decGo s.cmd.dstCap fuel (unread s) (s.dst.slice 0 s.outLen)

/-- A `DECODE` call between two turns. -/
def Decoding (s : State) : Prop := s.busy = true ∧ s.dst.wf ∧ s.rd ≤ s.cmd.srcLen

/-- One turn, `s` to `t`, agrees with one call of `go`: it ends the call with its answer, or goes on as it does, with the
cursor two bytes or more further on. -/
def TurnAgrees (s t : State) : Prop :=
  (∀ fuel, EndsWith (decRest (fuel + 1) s) t) ∨
    Decoding t ∧ remaining t + 2 ≤ remaining s ∧ ∀ fuel, decRest (fuel + 1) s = decRest fuel t

/-- A whole token that fits. -/
theorem tokenDone_agrees {k : Kind} {n : Nat} {s : State} (hs : Decoding s) (hok : lengthOk k n = true)
    (hhdr : headerByte k n = s.src.read s.rd) (hthere : truncated k n s = false) (hroom : noRoom n s = false) :
    TurnAgrees s (tokenDone n (tokenSize k n) (tokenExpand (tokenAt k (s.rd + 1) n s.src)) s) := by
  obtain ⟨hb, hwf, -⟩ := hs
  have hsize := two_le_tokenSize (k := k) (one_le_of_lengthOk hok)
  have hle := truncated_eq_false hthere
  refine .inr ⟨⟨hb, writeBytes_wf hwf _ _, hle⟩, ?_, fun fuel => ?_⟩
  · show s.cmd.srcLen - (s.rd + tokenSize k n) + 2 ≤ s.cmd.srcLen - s.rd
    omega
  · have hfits : tokenLength (tokenAt k (s.rd + 1) n s.src) ≤ s.cmd.dstCap - (s.dst.slice 0 s.outLen).length := by
      rw [tokenLength_tokenAt, Memory.slice_length]
      exact Nat.not_lt.1 (of_decide_eq_false hroom)
    rw [decRest, unread_eq_token hhdr hthere, decGo_token (by rwa [tokenAt_wf]) hfits, decRest,
      tokenDone_output hwf (tokenAt_expand_length ..), remaining, Nat.sub_sub]
    rfl

/-- One turn before the end of SRC. -/
theorem decodeTick_agrees {s : State} (hs : Decoding s) (hlt : s.rd < s.cmd.srcLen) :
    ∃ t, decodeTick s = .next t ∧ TurnAgrees s t := by
  obtain ⟨tmp, e⟩ := decodeTick_before_end hlt
  refine ⟨_, e, ?_⟩
  have htrunc := truncatedToken_iff_truncated hlt
  unfold tokenOutcome
  split
  · next hthere =>
    refine .inl fun fuel => ?_
    rw [decRest, unread_eq_cons hlt, decGo_truncated (htrunc.2 hthere)]
    exact endsWith_raise (by decide) { s with tmp := tmp }
  · next hthere =>
    split
    · next hroom =>
      refine .inl fun fuel => ?_
      rw [decRest, unread_eq_cons hlt, decGo_noRoom (mt htrunc.1 hthere)]
      · exact endsWith_raise (by decide) { s with tmp := tmp }
      · rw [Memory.slice_length]
        exact of_decide_eq_true hroom
    · next hroom =>
      exact tokenDone_agrees (s := { s with tmp := tmp }) hs (lengthOk_headerLength _) (headerByte_headerLength _)
        (Bool.eq_false_iff.2 hthere) (Bool.eq_false_iff.2 hroom)

/-- The loop of DEC from any cursor: enough turns end the call with what `go` answers from there. -/
theorem runCall_decodeTick {turns fuel : Nat} {s : State} (hs : Decoding s) (hturns : 1 ≤ turns)
    (hleft : remaining s ≤ turns) (hfuel : remaining s ≤ fuel) :
    ∃ t, runCall decodeTick turns s = .next t ∧ EndsWith (decRest fuel s) t := by
  induction turns generalizing s fuel with
  | zero => exact absurd hturns (by decide)
  | succ turns ih =>
    have ⟨hb, _, hrd⟩ := hs
    rw [runCall_succ hb]
    rcases hrd.eq_or_lt with hend | hlt
    · refine ⟨done s, ?_, ?_⟩
      · rw [decodeTick_at_end hend, andThen_next, runCall_ended rfl]
      · rw [decRest, unread_eq_nil hend, decGo_nil]
        exact endsWith_done s
    · obtain ⟨fuel, rfl⟩ := Nat.exists_eq_succ_of_ne_zero (Nat.ne_of_gt ((one_le_remaining hlt).trans hfuel))
      obtain ⟨t, e, hends | ⟨ht, hless, hgo⟩⟩ := decodeTick_agrees hs hlt
      · have ⟨hended, _⟩ := hends fuel
        exact ⟨t, by rw [e, andThen_next, runCall_ended hended], hends fuel⟩
      · rw [e, andThen_next, hgo]
        exact ih ht (by omega) (by omega) (by omega)

/-! ## The command -/

/-- A ready command is carried out: its body runs from the state call start leaves (R70 to R73). -/
theorem issueCommand_ready {c : Command} {s : State} (h : Ready c.toCallArgs s) (body : State → Answer) :
    issueCommand c body s = body (initCall (accept c s)) := by
  obtain ⟨hidle, hargs, hover, -⟩ := h
  rcases issueCommand_cases c body s with ⟨hb, -⟩ | ⟨-, hinv, -⟩ | ⟨-, -, ho, -⟩ | ⟨-, -, -, e⟩
  · exact absurd hb (ne_true_of_eq_false hidle)
  · exact absurd hinv (ne_true_of_eq_false hargs)
  · exact absurd ho (ne_true_of_eq_false hover)
  · exact e

section
variable {c : Command} (ho : c.op = Config.opDecode) (s : State)
include ho

theorem decoding_initCall (hwf : s.dst.wf) : Decoding (initCall (accept c s)) := by
  rw [initCall_decode ho]
  exact ⟨rfl, hwf, Nat.zero_le _⟩

theorem remaining_initCall : remaining (initCall (accept c s)) = c.srcLen := by
  rw [initCall_decode ho]
  rfl

theorem decRest_initCall : decRest c.srcLen (initCall (accept c s)) = dec (sourceBytes c.toCallArgs s) c.dstCap := by
  rw [initCall_decode ho, dec, sourceBytes, Memory.slice_length]
  rfl

end

/-- `DECODE` of a ready call ends with the result of `dec` (R126). -/
theorem exec_decode_endsWith_dec {a : CallArgs} {s : State} (h : Ready a s) :
    ∃ t, exec (.decode a) s = .next t ∧ EndsWith (dec (sourceBytes a s) a.dstCap) t := by
  have ⟨_, hargs, _, hwf⟩ := h
  obtain ⟨hlen, -⟩ := argsInvalid_eq_false hargs
  rw [← decRest_initCall (c := { toCallArgs := a, op := Config.opDecode }) rfl]
  have hrem := remaining_initCall (c := { toCallArgs := a, op := Config.opDecode }) rfl s
  show ∃ t, issueCommand { toCallArgs := a, op := Config.opDecode } decodeBody s = .next t ∧ _
  rw [issueCommand_ready h, decodeBody, initCall_cmd, accept_cmd]
  exact runCall_decodeTick (decoding_initCall rfl s hwf) hlen hrem.le hrem.le

/-- Settles O38: the machine computes `dec`, and `dec` expands a well-formed stream token by token. -/
theorem wellFormedStreamsDecode : Obligations.WellFormedStreamsDecode := by
  intro a s ts hready hts hsrc hroom
  obtain ⟨t, e, -, -, hres⟩ := exec_decode_endsWith_dec hready
  rw [hsrc, dec_streamBytes hts hroom] at hres
  exact ⟨t, e, hres⟩

end Sys2Proof.Machine
end

section
/-! SUPPORT. The encoder's segmentation `seg` (R104), one segment at a time, and what R60 says of its tokens. -/

namespace Sys2Proof.Machine

/-! ## The run at the front of a list -/

theorem runLength_cons (b : Byte) (rest : List Byte) :
    runLength (b :: rest) = 1 + min 128 (rest.takeWhile (· == b)).length := rfl

theorem one_le_runLength (b : Byte) (rest : List Byte) : 1 ≤ runLength (b :: rest) := Nat.le_add_right _ _

theorem runLength_le (b : Byte) (rest : List Byte) : runLength (b :: rest) ≤ 129 := by
  rw [runLength_cons]
  omega

theorem length_takeWhile_cons_self (b : Byte) (l : List Byte) :
    ((b :: l).takeWhile (· == b)).length = (l.takeWhile (· == b)).length + 1 := by
  simp

theorem two_le_runLength_pair (b : Byte) (rest : List Byte) : 2 ≤ runLength (b :: b :: rest) := by
  rw [runLength_cons, length_takeWhile_cons_self]
  omega

/-- The front of a stretch of equal bytes is copies of its byte. -/
theorem take_of_le_takeWhile {b : Byte} {l : List Byte} {n : Nat} (h : n ≤ (l.takeWhile (· == b)).length) :
    l.take n = List.replicate n b := by
  induction l generalizing n with
  | nil => simp_all
  | cons c l ih =>
    cases n with
    | zero => rfl
    | succ n =>
      by_cases hc : c = b
      · subst hc
        rw [length_takeWhile_cons_self] at h
        rw [List.take_succ_cons, ih (Nat.le_of_succ_le_succ h), List.replicate_succ]
      · simp [hc] at h

/-- Behind a stretch of equal bytes stands another byte, or none. -/
theorem head?_drop_takeWhile (b : Byte) (l : List Byte) :
    (l.drop (l.takeWhile (· == b)).length).head? ≠ some b := by
  induction l with
  | nil => simp
  | cons c l ih =>
    by_cases hc : c = b
    · subst hc
      rwa [length_takeWhile_cons_self, List.drop_succ_cons]
    · simp [hc]

theorem take_runLength (b : Byte) (rest : List Byte) :
    (b :: rest).take (runLength (b :: rest)) = List.replicate (runLength (b :: rest)) b := by
  rw [runLength_cons, Nat.add_comm, List.take_succ_cons, List.replicate_succ,
    take_of_le_takeWhile (Nat.min_le_right _ _)]

/-- A run below the cap ends where the bytes end or differ. -/
theorem head?_drop_runLength {b : Byte} {rest : List Byte} (h : runLength (b :: rest) ≠ 129) :
    ((b :: rest).drop (runLength (b :: rest))).head? ≠ some b := by
  rw [runLength_cons] at h ⊢
  rw [Nat.min_eq_right (by omega), Nat.add_comm, List.drop_succ_cons]
  exact head?_drop_takeWhile b rest

/-! ## The copy at the front of a list -/

theorem copyLength_cons (b : Byte) (rest : List Byte) : copyLength (b :: rest) = 1 + min 127 (beforePair rest) := rfl

theorem one_le_copyLength (b : Byte) (rest : List Byte) : 1 ≤ copyLength (b :: rest) := Nat.le_add_right _ _

theorem copyLength_le (b : Byte) (rest : List Byte) : copyLength (b :: rest) ≤ 128 := by
  rw [copyLength_cons]
  omega

@[simp] theorem beforePair_pair (a : Byte) (rest : List Byte) : beforePair (a :: a :: rest) = 0 := if_pos rfl

theorem beforePair_cons_cons {a b : Byte} (h : a ≠ b) (rest : List Byte) :
    beforePair (a :: b :: rest) = beforePair (b :: rest) + 1 := (if_neg h).trans (Nat.add_comm ..)

theorem beforePair_le_length (l : List Byte) : beforePair l ≤ l.length := by
  induction l using beforePair.induct with
  | case1 => exact le_rfl
  | case2 a => exact le_rfl
  | case3 a rest => simp
  | case4 a b rest hne ih =>
    rw [beforePair_cons_cons hne]
    exact Nat.succ_le_succ ih

theorem noPair_take_beforePair {l : List Byte} {n : Nat} (h : n ≤ beforePair l) : noPair (l.take n) = true := by
  induction l using beforePair.induct generalizing n with
  | case1 => simp [noPair]
  | case2 a => cases n <;> simp [noPair]
  | case3 a rest =>
    rw [beforePair_pair, Nat.le_zero] at h
    subst h
    rfl
  | case4 a b rest hne ih =>
    rw [beforePair_cons_cons hne] at h
    match n with
    | 0 => rfl
    | 1 => rfl
    | n + 2 =>
      have := ih (n := n + 1) (Nat.le_of_succ_le_succ h)
      rw [List.take_succ_cons] at this
      simp [noPair, hne, this]

/-- What stands behind `beforePair` bytes: nothing, or two equal bytes. -/
theorem drop_beforePair (l : List Byte) :
    l.drop (beforePair l) = [] ∨ ∃ a rest, l.drop (beforePair l) = a :: a :: rest := by
  induction l using beforePair.induct with
  | case1 => exact .inl rfl
  | case2 a => exact .inl rfl
  | case3 a rest => exact .inr ⟨a, rest, by rw [beforePair_pair, List.drop_zero]⟩
  | case4 a b rest hne ih => rwa [beforePair_cons_cons hne, List.drop_succ_cons]

theorem length_take_copyLength (b : Byte) (rest : List Byte) :
    ((b :: rest).take (copyLength (b :: rest))).length = copyLength (b :: rest) := by
  have := beforePair_le_length rest
  rw [List.length_take, copyLength_cons, List.length_cons]
  omega

/-- A copy below the cap ends where the bytes end or a run begins. -/
theorem drop_copyLength {b : Byte} {rest : List Byte} (h : copyLength (b :: rest) ≠ 128) :
    (b :: rest).drop (copyLength (b :: rest)) = [] ∨
      ∃ c more, (b :: rest).drop (copyLength (b :: rest)) = c :: c :: more := by
  rw [copyLength_cons] at h ⊢
  rw [Nat.min_eq_right (by omega), Nat.add_comm, List.drop_succ_cons]
  exact drop_beforePair rest

theorem noPair_cons {b : Byte} {l : List Byte} (hb : l.head? ≠ some b) (h : noPair l = true) :
    noPair (b :: l) = true := by
  cases l with
  | nil => rfl
  | cons c l =>
    have hne : b ≠ c := fun e => hb (by rw [e]; rfl)
    simp [noPair, hne, h]

theorem head?_ne_of_runLength_lt_two {b : Byte} {rest : List Byte} (h : runLength (b :: rest) < 2) :
    rest.head? ≠ some b := by
  cases rest with
  | nil => exact nofun
  | cons c rest =>
    rintro ⟨⟩
    exact absurd (two_le_runLength_pair b rest) (Nat.not_le.2 h)

/-- Where no run begins, the copy at the front holds no two equal neighbours. -/
theorem noPair_take_copyLength {b : Byte} {rest : List Byte} (h : runLength (b :: rest) < 2) :
    noPair ((b :: rest).take (copyLength (b :: rest))) = true := by
  rw [copyLength_cons, Nat.add_comm, List.take_succ_cons]
  refine noPair_cons ?_ (noPair_take_beforePair (Nat.min_le_right _ _))
  rw [List.head?_take]
  split
  · exact nofun
  · exact head?_ne_of_runLength_lt_two h

/-! ## The segmentation, one segment at a time -/

theorem length_drop_lt {x : List Byte} {n : Nat} (hn : 1 ≤ n) (hx : x ≠ []) : (x.drop n).length < x.length := by
  have := List.length_pos_iff.2 hx
  rw [List.length_drop]
  omega

theorem segTokens_nil (fuel : Nat) : segTokens fuel [] = [] := by
  cases fuel <;> rfl

/-- Fuel of one token or more for each byte gives the same tokens, however much there is. -/
theorem segTokens_congr {fuel fuel' : Nat} {x : List Byte} (h : x.length ≤ fuel) (h' : x.length ≤ fuel') :
    segTokens fuel x = segTokens fuel' x := by
  induction fuel generalizing fuel' x with
  | zero => rw [List.eq_nil_of_length_eq_zero (Nat.le_zero.1 h), segTokens_nil, segTokens_nil]
  | succ fuel ih =>
    cases x with
    | nil => rw [segTokens_nil, segTokens_nil]
    | cons b rest =>
      obtain ⟨fuel', rfl⟩ := Nat.exists_eq_add_of_le' (Nat.le_of_add_left_le h' : 1 ≤ fuel')
      have hrest : ∀ n, 1 ≤ n → segTokens fuel ((b :: rest).drop n) = segTokens fuel' ((b :: rest).drop n) := by
        intro n hn
        have hlt := length_drop_lt hn (List.cons_ne_nil b rest)
        exact ih (by omega) (by omega)
      rw [segTokens, segTokens, hrest _ (one_le_runLength b rest), hrest _ (one_le_copyLength b rest)]

theorem segTokens_eq_seg {fuel : Nat} {x : List Byte} (h : x.length ≤ fuel) : segTokens fuel x = seg x :=
  segTokens_congr h le_rfl

@[simp] theorem seg_nil : seg [] = [] := rfl

theorem seg_of_run {b : Byte} {rest : List Byte} (h : 2 ≤ runLength (b :: rest)) :
    seg (b :: rest) = .run (runLength (b :: rest)) b :: seg ((b :: rest).drop (runLength (b :: rest))) := by
  have hfuel := length_drop_lt (one_le_runLength b rest) (List.cons_ne_nil b rest)
  rw [← segTokens_eq_seg (Nat.le_of_lt_succ hfuel)]
  exact if_pos h

theorem seg_of_copy {b : Byte} {rest : List Byte} (h : runLength (b :: rest) < 2) :
    seg (b :: rest) =
      .copy ((b :: rest).take (copyLength (b :: rest))) :: seg ((b :: rest).drop (copyLength (b :: rest))) := by
  have hfuel := length_drop_lt (one_le_copyLength b rest) (List.cons_ne_nil b rest)
  rw [← segTokens_eq_seg (Nat.le_of_lt_succ hfuel)]
  exact if_neg (Nat.not_le.2 h)

/-- Induction along the segments of an input. -/
theorem seg_induction {P : List Byte → Prop} (nil : P [])
    (run : ∀ b rest, 2 ≤ runLength (b :: rest) → P ((b :: rest).drop (runLength (b :: rest))) → P (b :: rest))
    (copy : ∀ b rest, runLength (b :: rest) < 2 → P ((b :: rest).drop (copyLength (b :: rest))) → P (b :: rest))
    (x : List Byte) : P x := by
  induction hn : x.length using Nat.strong_induction_on generalizing x with
  | _ n ih =>
    subst hn
    cases x with
    | nil => exact nil
    | cons b rest =>
      rcases Nat.lt_or_ge (runLength (b :: rest)) 2 with h | h
      · exact copy b rest h (ih _ (length_drop_lt (one_le_copyLength b rest) (List.cons_ne_nil _ _)) _ rfl)
      · exact run b rest h (ih _ (length_drop_lt (one_le_runLength b rest) (List.cons_ne_nil _ _)) _ rfl)

theorem seg_eq_nil_iff (x : List Byte) : seg x = [] ↔ x = [] := by
  induction x using seg_induction with
  | nil => simp
  | run b rest h _ => simp [seg_of_run h]
  | copy b rest h _ => simp [seg_of_copy h]

/-- The tokens of an input stand for the input (R60 (a)). -/
theorem streamMeaning_seg (x : List Byte) : streamMeaning (seg x) = x := by
  induction x using seg_induction with
  | nil => rfl
  | run b rest h ih =>
    rw [seg_of_run h, streamMeaning_cons, ih, tokenExpand, ← take_runLength, List.take_append_drop]
  | copy b rest h ih => rw [seg_of_copy h, streamMeaning_cons, ih, tokenExpand, List.take_append_drop]

/-! ## Canonical streams -/

theorem canonical_cons (t : Token) (ts : List Token) :
    canonical (t :: ts) = true ↔
      tokenCanonical t = true ∧ (∀ u ∈ ts.head?, followOk t u = true) ∧ canonical ts = true := by
  cases ts <;> simp [canonical, and_assoc]

/-- The first token begins with the first byte. -/
theorem tokenFirst_of_mem_head?_seg {x : List Byte} {u : Token} (h : u ∈ (seg x).head?) : tokenFirst u = x.head? := by
  cases x with
  | nil => cases h
  | cons b rest =>
    rcases Nat.lt_or_ge (runLength (b :: rest)) 2 with hr | hr
    · rw [seg_of_copy hr] at h
      cases h
      rw [tokenFirst, tokenExpand, List.head?_take, if_neg (Nat.ne_of_gt (one_le_copyLength b rest))]
    · rw [seg_of_run hr] at h
      cases h
      rw [tokenFirst, tokenExpand, ← take_runLength, List.head?_take, if_neg (Nat.ne_of_gt (one_le_runLength b rest))]

/-- A run below the cap is not followed by its own symbol (R60 (d)). -/
theorem followOk_run (b : Byte) (rest : List Byte) {u : Token}
    (hu : u ∈ (seg ((b :: rest).drop (runLength (b :: rest)))).head?) :
    followOk (.run (runLength (b :: rest)) b) u = true := by
  by_cases hcap : runLength (b :: rest) = 129
  · simp [followOk, hcap, Config.maxRun]
  · have := head?_drop_runLength hcap
    rw [← tokenFirst_of_mem_head?_seg hu] at this
    simp [followOk, this]

/-- A copy below the cap is followed by a run, or by nothing (R60 (c)). -/
theorem followOk_copy (b : Byte) (rest : List Byte) {u : Token}
    (hu : u ∈ (seg ((b :: rest).drop (copyLength (b :: rest)))).head?) :
    followOk (.copy ((b :: rest).take (copyLength (b :: rest)))) u = true := by
  by_cases hcap : copyLength (b :: rest) = 128
  · have hlen := length_take_copyLength b rest
    cases u with
    | run n sym => rfl
    | copy data => rw [followOk, hlen, hcap]; rfl
  · rcases drop_copyLength hcap with e | ⟨c, more, e⟩ <;> rw [e] at hu
    · cases hu
    · rw [seg_of_run (two_le_runLength_pair c more)] at hu
      cases hu
      rfl

theorem canonical_seg (x : List Byte) : canonical (seg x) = true := by
  induction x using seg_induction with
  | nil => rfl
  | run b rest h ih =>
    rw [seg_of_run h, canonical_cons]
    exact ⟨(Laws.lengthOk_run _).2 ⟨h, runLength_le b rest⟩, fun u => followOk_run b rest, ih⟩
  | copy b rest h ih =>
    rw [seg_of_copy h, canonical_cons]
    refine ⟨?_, fun u => followOk_copy b rest, ih⟩
    rw [tokenCanonical, noPair_take_copyLength h, Token.wf, length_take_copyLength, Bool.and_true, Laws.lengthOk_copy]
    exact ⟨one_le_copyLength b rest, copyLength_le b rest⟩

/-- Settles O32, by induction along the segments of the input. -/
theorem encoderStreamsAreCanonical : Obligations.EncoderStreamsAreCanonical := fun x =>
  ⟨streamMeaning_seg x, canonical_seg x, seg_eq_nil_iff x⟩

end Sys2Proof.Machine
end

section
/-! SUPPORT. The segmentation `seg` (R104) of a list whose first segment is known, and of the bytes of a buffer. -/

namespace Sys2Proof.Machine

/-! ## The first segment of a list -/

theorem runLength_replicate_append (n : Nat) (b : Byte) (rest : List Byte) :
    runLength (List.replicate (n + 1) b ++ rest) = 1 + min 128 (n + (rest.takeWhile (· == b)).length) := by
  rw [List.replicate_succ, List.cons_append, runLength_cons, List.takeWhile_append_of_pos (by simp), List.length_append,
    List.length_replicate]

theorem length_takeWhile_of_head?_ne {b : Byte} {l : List Byte} (h : l.head? ≠ some b) :
    (l.takeWhile (· == b)).length = 0 := by
  cases l with
  | nil => rfl
  | cons c l => simpa using h

/-- A stretch of equal bytes that is at the cap, or that another byte or the end follows, is a run. -/
theorem seg_replicate_append {n : Nat} {b : Byte} {rest : List Byte} (hlo : 2 ≤ n) (hhi : n ≤ 129)
    (hend : n = 129 ∨ rest.head? ≠ some b) : seg (List.replicate n b ++ rest) = .run n b :: seg rest := by
  obtain ⟨n, rfl⟩ := Nat.exists_eq_add_of_le' (Nat.one_le_of_lt hlo)
  have hlen : runLength (List.replicate (n + 1) b ++ rest) = n + 1 := by
    rw [runLength_replicate_append]
    rcases hend with hcap | hhead
    · omega
    · rw [length_takeWhile_of_head?_ne hhead]
      omega
  rw [List.replicate_succ, List.cons_append] at hlen ⊢
  rw [seg_of_run (by omega), hlen, ← List.cons_append, ← List.replicate_succ, List.drop_left' (List.length_replicate ..)]

theorem noPair_cons_iff {b : Byte} {l : List Byte} : noPair (b :: l) = true ↔ l.head? ≠ some b ∧ noPair l = true := by
  cases l with
  | nil => simp [noPair]
  | cons c l => simp [noPair, eq_comm (a := b)]

theorem beforePair_cons {b : Byte} {l : List Byte} (h : l.head? ≠ some b) : beforePair (b :: l) = beforePair l + 1 := by
  cases l with
  | nil => rfl
  | cons c l => exact beforePair_cons_cons (fun e => h (by rw [e]; rfl)) l

theorem head?_append_take_one (xs rest : List Byte) : (xs ++ rest.take 1).head? = (xs ++ rest).head? := by
  cases xs <;> cases rest <;> rfl

/-- No pair begins in `xs`, its last byte and the first after it among them. -/
theorem beforePair_append {xs rest : List Byte} (h : noPair (xs ++ rest.take 1) = true) :
    beforePair (xs ++ rest) = xs.length + beforePair rest := by
  induction xs with
  | nil => simp
  | cons x xs ih =>
    rw [List.cons_append, noPair_cons_iff, head?_append_take_one] at h
    obtain ⟨hne, hpair⟩ := h
    rw [List.cons_append, beforePair_cons hne, ih hpair, List.length_cons, Nat.add_right_comm]

/-- Bytes without a pair that are at the cap, or that a pair or the end follows, are a copy. -/
theorem seg_copy_append {xs rest : List Byte} (hlo : 1 ≤ xs.length) (hhi : xs.length ≤ 128)
    (hpair : noPair (xs ++ rest.take 1) = true) (hend : xs.length = 128 ∨ beforePair rest = 0) :
    seg (xs ++ rest) = .copy xs :: seg rest := by
  cases xs with
  | nil => cases hlo
  | cons x xs =>
    rw [List.cons_append, noPair_cons_iff, head?_append_take_one] at hpair
    obtain ⟨hne, hpair⟩ := hpair
    have hrun : runLength (x :: (xs ++ rest)) < 2 := by
      rw [runLength_cons, length_takeWhile_of_head?_ne hne]
      decide
    have hcopy : copyLength (x :: (xs ++ rest)) = (x :: xs).length := by
      rw [copyLength_cons, beforePair_append hpair]
      rw [List.length_cons] at hend hhi ⊢
      omega
    rw [List.cons_append, seg_of_copy hrun, hcopy, ← List.cons_append, List.take_left, List.drop_left]

/-! ## The first segment of a buffer's bytes -/

theorem Memory.head?_slice (m : Memory) (a n : Nat) : (m.slice a n).head? = if n = 0 then none else some (m.read a) := by
  cases n with
  | zero => rfl
  | succ n => rw [Memory.slice_succ]; rfl

theorem Memory.slice_take_min (m : Memory) (a n k : Nat) : (m.slice a n).take k = m.slice a (min k n) := by
  rw [List.take_eq_take_min, Memory.slice_length, Memory.slice_take _ _ _ _ (Nat.min_le_right k n)]

theorem noPair_slice {m : Memory} {a n : Nat} (h : ∀ x, a ≤ x → x + 1 < a + n → m.read x ≠ m.read (x + 1)) :
    noPair (m.slice a n) = true := by
  induction n generalizing a with
  | zero => rfl
  | succ n ih =>
    rw [Memory.slice_succ, noPair_cons_iff, Memory.head?_slice]
    refine ⟨?_, ih fun x hx hlt => h x (by omega) (by omega)⟩
    split
    · exact nofun
    · rw [Ne, Option.some_inj]
      exact (h a le_rfl (by omega)).symm

/-- Of the bytes of `m` below `len`, those from `a` on begin with a segment of kind `k` and length `n` (R104). -/
def SegmentAt (k : Kind) (a n len : Nat) (m : Memory) : Prop :=
  seg (m.slice a (len - a)) = tokenAt k a n m :: seg (m.slice (a + n) (len - (a + n)))

theorem slice_split (m : Memory) {a n len : Nat} (h : a + n ≤ len) :
    m.slice a (len - a) = m.slice a n ++ m.slice (a + n) (len - (a + n)) := by
  rw [← Memory.slice_add, Nat.sub_add_eq, Nat.add_sub_cancel' (by omega)]

theorem segmentAt_run {a n len : Nat} {m : Memory} (hn : lengthOk .run n = true) (hle : a + n ≤ len)
    (heq : SegmentOf .run a n m) (hend : n = 129 ∨ a + n = len ∨ m.read (a + n) ≠ m.read a) :
    SegmentAt .run a n len m := by
  obtain ⟨hlo, hhi⟩ := (Laws.lengthOk_run n).1 hn
  rw [SegmentAt, slice_split m hle, ← heq.expand]
  refine seg_replicate_append hlo hhi (hend.imp_right fun hend => ?_)
  rw [Memory.head?_slice]
  split
  · exact nofun
  · rw [Ne, Option.some_inj]
    exact hend.resolve_left (by omega)

theorem segmentAt_copy {a n len : Nat} {m : Memory} (hn : lengthOk .copy n = true) (hle : a + n ≤ len)
    (hpair : ∀ x, a ≤ x → x < a + n → x + 1 < len → m.read x ≠ m.read (x + 1))
    (hend : n = 128 ∨ a + n = len ∨ a + n + 1 < len ∧ m.read (a + n) = m.read (a + n + 1)) :
    SegmentAt .copy a n len m := by
  obtain ⟨hlo, hhi⟩ := (Laws.lengthOk_copy n).1 hn
  rw [SegmentAt, slice_split m hle]
  refine seg_copy_append ?_ ?_ ?_ ?_
  · rwa [Memory.slice_length]
  · rwa [Memory.slice_length]
  · rw [Memory.slice_take_min, ← Memory.slice_add]
    exact noPair_slice fun x hx hlt => hpair x hx (by omega) (by omega)
  · rw [Memory.slice_length]
    refine hend.imp_right fun hend => ?_
    rcases hend with rfl | ⟨hlt, hread⟩
    · rw [Nat.sub_self, Memory.slice_zero]
      rfl
    · obtain ⟨r, hr⟩ := Nat.exists_eq_add_of_lt hlt
      rw [show len - (a + n) = r + 1 + 1 by omega, Memory.slice_succ, Memory.slice_succ, hread, beforePair_pair]

end Sys2Proof.Machine
end

section
/-! SUPPORT. The encoder engine computes `enc` (R105): each turn emits the next tokens of the segmentation or none, and
leaves the rest of it. -/

namespace Sys2Proof.Machine

/-! ## The tokens still to be written -/

/-- What the encoder answers with the bytes `out` written, `room` left, and the tokens `ts` to come (R103, R105). -/
def encFrom (room : Nat) (ts : List Token) (out : List Byte) : CallResult :=
  resultOf (if (fitTokens room ts).length = ts.length then Config.stOk else Config.stDstWriteError)
    (out ++ streamBytes (fitTokens room ts))

theorem enc_eq_encFrom (x : List Byte) (cap : Nat) : enc x cap = encFrom cap (seg x) [] := by
  unfold enc encFrom
  split <;> rfl

theorem encFrom_nil (room : Nat) (out : List Byte) : encFrom room [] out = resultOf Config.stOk out := by
  simp [encFrom, fitTokens]

theorem encFrom_fits {room : Nat} {t : Token} (h : t.bytes.length ≤ room) (ts : List Token) (out : List Byte) :
    encFrom room (t :: ts) out = encFrom (room - t.bytes.length) ts (out ++ t.bytes) := by
  simp only [encFrom, fitTokens, if_pos h, List.length_cons, Nat.add_right_cancel_iff, streamBytes_cons,
    List.append_assoc]

theorem encFrom_misfit {room : Nat} {t : Token} (h : room < t.bytes.length) (ts : List Token) (out : List Byte) :
    encFrom room (t :: ts) out = resultOf Config.stDstWriteError out := by
  simp only [encFrom, fitTokens, if_neg (Nat.not_le.2 h)]
  simp

/-! ## One turn -/

/-- What `enc` answers from here: its source the bytes from the open segment on, its output what DST holds. -/
def encRest (s : State) : CallResult :=
  encFrom (room s) (seg (s.src.slice s.segStart (s.cmd.srcLen - s.segStart))) (s.dst.slice 0 s.outLen)

theorem encRest_at_end {s : State} (h : s.segStart = s.cmd.srcLen) :
    encRest s = resultOf Config.stOk (s.dst.slice 0 s.outLen) := by
  rw [encRest, h, Nat.sub_self, Memory.slice_zero, seg_nil, encFrom_nil]

/-- An `ENCODE` call between two turns. -/
def Encoding (s : State) : Prop := s.busy = true ∧ s.dst.wf ∧ ScanInv s

/-- One turn, `s` to `t`, agrees with `enc`: it ends the call with its answer, or moves on by one byte and leaves the
answer as it was. -/
def ScanAgrees (s t : State) : Prop :=
  EndsWith (encRest s) t ∨ Encoding t ∧ t.cmd = s.cmd ∧ t.i = s.i + 1 ∧ encRest t = encRest s

theorem emitted_output {k : Kind} {a n : Nat} {s : State} (hwf : s.dst.wf) :
    (emitted k a n s).dst.slice 0 (emitted k a n s).outLen = s.dst.slice 0 s.outLen ++ (tokenAt k a n s.src).bytes := by
  rw [emitted_dst, emitted_outLen, ← tokenAt_bytes, ← tokenAt_bytes_length k a n s.src, Memory.slice_add,
    slice_writeBytes_before hwf, Nat.zero_add, slice_writeBytes_same hwf]

section
variable {k : Kind} {n : Nat} {s : State} (hcut : SegmentAt k s.segStart n s.cmd.srcLen s.src)
include hcut

/-- The next segment's token does not fit. -/
theorem encRest_of_noRoom (hroom : noRoom (tokenSize k n) s = true) :
    encRest s = resultOf Config.stDstWriteError (s.dst.slice 0 s.outLen) := by
  rw [encRest, hcut, encFrom_misfit]
  rw [tokenAt_bytes_length]
  exact of_decide_eq_true hroom

/-- The next segment's token fits: what is left is the answer from the state after it. -/
theorem encRest_of_room (hwf : s.dst.wf) (hroom : noRoom (tokenSize k n) s = false) :
    encRest s = encRest (setSegment (s.segStart + n) .inCopy (emitted k s.segStart n s)) := by
  have hfits : (tokenAt k s.segStart n s.src).bytes.length ≤ room s := by
    rw [tokenAt_bytes_length]
    exact Nat.not_lt.1 (of_decide_eq_false hroom)
  rw [encRest, hcut, encFrom_fits hfits, ← emitted_output hwf, tokenAt_bytes_length, room, Nat.sub_sub]
  rfl

/-- A scan step that emits the next segment. -/
theorem emitThen_agrees {seg : Nat} {m : Mode} (hs : Encoding s) (hseg : seg = s.segStart + n)
    (hscan : ScanInv (setI (s.i + 1) (setSegment seg m s))) : ∃ t, emitThen k n seg m s = .next t ∧ ScanAgrees s t := by
  obtain ⟨hb, hwf, -⟩ := hs
  subst hseg
  unfold emitThen
  split
  · next hroom =>
    refine ⟨_, rfl, .inl ?_⟩
    rw [encRest_of_noRoom hcut hroom]
    exact endsWith_raise (by decide) (setEmit k s.segStart n s)
  · next hroom =>
    refine ⟨_, rfl, .inr ⟨⟨hb, writeBytes_wf hwf _ _, hscan⟩, rfl, rfl, ?_⟩⟩
    rw [encRest_of_room hcut hwf (Bool.eq_false_iff.2 hroom)]
    rfl

/-- A flush that emits the last segment. -/
theorem flushThen_agrees (hwf : s.dst.wf) (hlast : s.segStart + n = s.cmd.srcLen) :
    ∃ t, flushThen k n s = .next t ∧ EndsWith (encRest s) t := by
  unfold flushThen
  split
  · next hroom =>
    refine ⟨_, rfl, ?_⟩
    rw [encRest_of_noRoom hcut hroom]
    exact endsWith_raise (by decide) (setEmit k s.segStart n s)
  · next hroom =>
    refine ⟨_, rfl, ?_⟩
    rw [encRest_of_room hcut hwf (Bool.eq_false_iff.2 hroom), encRest_at_end hlast]
    exact endsWith_done (emitted k s.segStart n s)

end

/-- A scan step that emits nothing. -/
theorem quiet_scan_agrees {seg : Nat} {m : Mode} {e : Bool} {s : State} (hs : Encoding s) (hseg : seg = s.segStart)
    (hscan : ScanInv (setI (s.i + 1) (setSegment seg m s))) :
    ScanAgrees s (setI (s.i + 1) (setSegment seg m (setEq e s))) := by
  obtain ⟨hb, hwf, -⟩ := hs
  subst hseg
  exact .inr ⟨⟨hb, hwf, hscan⟩, rfl, rfl, rfl⟩

section
variable {s : State} (hs : Encoding s)
include hs

/-- A scan step in `InCopy`: the copy segment goes out where a pair begins, or at the cap. -/
theorem encodeTick_inCopy_agrees (hi : s.i < s.cmd.srcLen) (hm : s.mode = .inCopy) :
    ∃ t, encodeTick s = .next t ∧ ScanAgrees s t := by
  have ⟨hb, _, hscan⟩ := hs
  obtain ⟨h1, -, hle, hcap, hpair⟩ := (scanInv_inCopy_iff hm).1 hscan
  have hprev : s.i - 1 + 1 = s.i := Nat.sub_add_cancel h1
  have hbegin : s.src.read s.i = s.src.read (s.i - 1) → s.src.read (s.i - 1 + 1) = s.src.read (s.i - 1) := by
    rw [hprev]
    exact id
  rcases encodeTick_inCopy hb hi hscan hm with
    ⟨hne, hlt, e⟩ | ⟨-, hempty, e⟩ | ⟨heq, hone, e⟩ | ⟨heq, hmany, e⟩ | ⟨hne, hfull, e⟩ <;> rw [e]
  · exact ⟨_, rfl, quiet_scan_agrees hs rfl (hscan.extend_copy hm hi hne hlt)⟩
  · exact ⟨_, rfl, quiet_scan_agrees hs rfl
      (scanInv_short_copy hm (Nat.le_add_left _ _) hi (Nat.le_succ_of_le hle) (by simp [hempty]))⟩
  · refine ⟨_, rfl, quiet_scan_agrees hs (by omega) (scanInv_new_run rfl hi ?_ (hbegin heq))⟩
    simp only [setI_i, setI_segStart, setSegment_segStart]
    omega
  · have hend : s.segStart + (s.i - 1 - s.segStart) = s.i - 1 := by omega
    have hcut : SegmentAt .copy s.segStart (s.i - 1 - s.segStart) s.cmd.srcLen s.src := by
      refine segmentAt_copy ((Laws.lengthOk_copy _).2 (by omega)) (by omega)
        (fun x hx hlt _ => hpair x hx (by omega)) (.inr (.inr ?_))
      rw [hend, hprev]
      exact ⟨hi, heq.symm⟩
    refine emitThen_agrees (s := setEq true s) hcut hs hend.symm (scanInv_new_run rfl hi ?_ (hbegin heq))
    simp only [setI_i, setI_segStart, setSegment_segStart, setEq_i]
    omega
  · have hcut : SegmentAt .copy s.segStart 128 s.cmd.srcLen s.src := by
      refine segmentAt_copy (by decide) (by omega) (fun x hx hlt _ => ?_) (.inl rfl)
      rcases Nat.lt_or_ge (x + 1) s.i with hold | hnew
      · exact hpair x hx hold
      · obtain rfl : x = s.i - 1 := by omega
        rw [hprev]
        exact hne.symm
    exact emitThen_agrees (s := setEq false s) hcut hs hfull
      (scanInv_short_copy rfl (Nat.le_add_left _ _) hi (Nat.le_succ _) le_rfl)

/-- A scan step in `InRun`: the run goes out where it ends, or at the cap. -/
theorem encodeTick_inRun_agrees (hi : s.i < s.cmd.srcLen) (hm : s.mode = .inRun) :
    ∃ t, encodeTick s = .next t ∧ ScanAgrees s t := by
  have ⟨hb, _, hscan⟩ := hs
  obtain ⟨-, -, hle, hcap, hall⟩ := (scanInv_inRun_iff hm).1 hscan
  have hprev : s.src.read (s.i - 1) = s.src.read s.segStart := hall (s.i - 1) (by omega) (by omega)
  rcases encodeTick_inRun hb hi hscan hm with ⟨heq, hlt, e⟩ | ⟨heq, hfull, e⟩ | ⟨hne, e⟩ <;> rw [e]
  · exact ⟨_, rfl, quiet_scan_agrees hs rfl (hscan.extend_run hm hi heq hlt)⟩
  · have hcut : SegmentAt .run s.segStart 129 s.cmd.srcLen s.src := by
      refine segmentAt_run (by decide) (by omega) (fun _ x hx hlt => ?_) (.inl rfl)
      rcases Nat.lt_or_ge x s.i with hold | hnew
      · exact hall x hx hold
      · obtain rfl : x = s.i := by omega
        exact heq.trans hprev
    exact emitThen_agrees (s := setEq true s) hcut hs hfull
      (scanInv_short_copy rfl (Nat.le_add_left _ _) hi le_rfl (Nat.le_succ _))
  · have hend : s.segStart + (s.i - s.segStart) = s.i := by omega
    have hcut : SegmentAt .run s.segStart (s.i - s.segStart) s.cmd.srcLen s.src := by
      refine segmentAt_run ((Laws.lengthOk_run _).2 (by omega)) (by omega)
        (fun _ x hx hlt => hall x hx (by omega)) (.inr (.inr ?_))
      rw [hend, ← hprev]
      exact hne
    exact emitThen_agrees (s := setEq false s) hcut hs hend.symm
      (scanInv_short_copy rfl (Nat.le_add_left _ _) hi (Nat.le_succ _) le_rfl)

/-- The flush: what is open is the last segment, or there is none. -/
theorem encodeTick_flush_agrees (hi : s.i = s.cmd.srcLen) : ∃ t, encodeTick s = .next t ∧ EndsWith (encRest s) t := by
  have ⟨hb, hwf, hscan⟩ := hs
  rcases encodeTick_flush hb hi hscan with ⟨hm, e⟩ | ⟨hm, hopen, e⟩ | ⟨-, hempty, e⟩ <;> rw [e]
  · obtain ⟨-, -, hle, hcap, hall⟩ := (scanInv_inRun_iff hm).1 hscan
    have hlast : s.segStart + (s.cmd.srcLen - s.segStart) = s.cmd.srcLen := by omega
    exact flushThen_agrees (segmentAt_run ((Laws.lengthOk_run _).2 (by omega)) hlast.le
      (fun _ x hx hlt => hall x hx (by omega)) (.inr (.inl hlast))) hwf hlast
  · obtain ⟨-, -, hle, hcap, hpair⟩ := (scanInv_inCopy_iff hm).1 hscan
    have hlast : s.segStart + (s.cmd.srcLen - s.segStart) = s.cmd.srcLen := by omega
    exact flushThen_agrees (segmentAt_copy ((Laws.lengthOk_copy _).2 (by omega)) hlast.le
      (fun x hx _ hlt => hpair x hx (by omega)) (.inr (.inl hlast))) hwf hlast
  · refine ⟨_, rfl, ?_⟩
    rw [encRest_at_end hempty]
    exact endsWith_done s

/-- One turn of an `ENCODE` call. -/
theorem encodeTick_agrees : ∃ t, encodeTick s = .next t ∧ ScanAgrees s t := by
  have ⟨_, _, _, hi, _⟩ := hs
  rcases hi.lt_or_eq with hi | hi
  · cases hm : s.mode with
    | inCopy => exact encodeTick_inCopy_agrees hs hi hm
    | inRun => exact encodeTick_inRun_agrees hs hi hm
  · obtain ⟨t, e, hends⟩ := encodeTick_flush_agrees hs hi
    exact ⟨t, e, .inl hends⟩

end

/-! ## The call -/

/-- The loop of ENC from any scan index: enough turns end the call with what `enc` answers from there. -/
theorem runCall_encodeTick {turns : Nat} {s : State} (hs : Encoding s) (hleft : s.cmd.srcLen < s.i + turns) :
    ∃ t, runCall encodeTick turns s = .next t ∧ EndsWith (encRest s) t := by
  induction turns generalizing s with
  | zero =>
    obtain ⟨-, -, -, hi, -⟩ := hs
    exact absurd hi (Nat.not_le.2 hleft)
  | succ turns ih =>
    have ⟨hb, _, _⟩ := hs
    obtain ⟨t, e, hends | ⟨ht, hcmd, hmoved, hrest⟩⟩ := encodeTick_agrees hs
    · have ⟨hended, _⟩ := hends
      exact ⟨t, by rw [runCall_succ hb, e, andThen_next, runCall_ended hended], hends⟩
    · rw [runCall_succ hb, e, andThen_next, ← hrest]
      exact ih ht (by rw [hcmd, hmoved]; omega)

/-- `ENCODE` of a ready call ends with the result of `enc` (R105). -/
theorem exec_encode_endsWith_enc {a : CallArgs} {s : State} (h : Ready a s) :
    ∃ t, exec (.encode a) s = .next t ∧ EndsWith (enc (sourceBytes a s) a.dstCap) t := by
  have ⟨_, hargs, _, hwf⟩ := h
  obtain ⟨hlen, -⟩ := argsInvalid_eq_false hargs
  show ∃ t, issueCommand { toCallArgs := a, op := Config.opEncode } encodeBody s = .next t ∧ _
  rw [issueCommand_ready h, initCall_encode rfl, enc_eq_encFrom]
  exact runCall_encodeTick
    ⟨rfl, hwf, scanInv_short_copy rfl le_rfl hlen (Nat.zero_le _) le_rfl⟩ (Nat.lt_add_of_pos_left Nat.one_pos)

end Sys2Proof.Machine
end

section
/-! SUPPORT. The shell of a call: how a step reaches an instruction, how a call starts, that it ends, and that its result is
a function of the command and the source bytes (R70 to R78). -/

namespace Sys2Proof.Machine

/-! ## The end of a call -/

/-- From a sound state `src_len` turns end the call: ENC's scan index is 1 or more, and a token takes DEC a turn. -/
theorem engineSteps_endsWith {s : State} (hs : Inv s) (hb : s.busy = true) :
    ∃ r t, engineSteps s.cmd.srcLen s = .next t ∧ EndsWith r t := by
  have hwf := hs.memoryInv.dst_wf
  obtain ⟨hrunEnc, hrunDec⟩ := engineSteps_eq_runCall (s := s) s.cmd.srcLen
  rcases op_cases s.cmd.op with ho | ho
  · have hscan := hs.scanInv hb ho
    have ⟨hi, _⟩ := hscan
    rw [hrunEnc ho]
    exact ⟨_, runCall_encodeTick ⟨hb, hwf, hscan⟩ (Nat.lt_add_of_pos_left hi)⟩
  · obtain ⟨⟨hargs, -⟩, hrd, -⟩ := (callInv_decode_iff ho).1 (hs.callInv hb)
    obtain ⟨hlen, -⟩ := argsInvalid_eq_false hargs
    rw [hrunDec ho]
    exact ⟨_, runCall_decodeTick ⟨hb, hwf, hrd⟩ hlen (Nat.sub_le _ _) le_rfl⟩

/-- Settles O45: a sound state meets what either engine's loop needs to run to its end. -/
theorem callEndsWithinSourceLength : Obligations.CallEndsWithinSourceLength := by
  intro s hs hb
  obtain ⟨r, t, e, hend, hdef, -⟩ := engineSteps_endsWith hs hb
  exact ⟨t, e, hend, hdef⟩

/-! ## The result of a command -/

/-- An invalid command on an idle block ends at once, whatever its body (R72). -/
theorem issueCommand_invalid {c : Command} {s : State} (hidle : s.busy = false) (hargs : argsInvalid c.toCallArgs = true)
    (body : State → Answer) : issueCommand c body s = .next (raise Config.stInvalidArgument (accept c s)) := by
  rcases issueCommand_cases c body s with ⟨hb, -⟩ | ⟨-, -, e⟩ | ⟨-, ha, -⟩ | ⟨-, ha, -⟩
  · exact absurd hb (ne_true_of_eq_false hidle)
  · exact e
  · exact absurd hargs (ne_true_of_eq_false ha)
  · exact absurd hargs (ne_true_of_eq_false ha)

theorem result_raise_invalidArgument (s : State) :
    (raise Config.stInvalidArgument s).result = resultOf Config.stInvalidArgument [] := rfl

/-- What a command answers for the source bytes `x`: nothing of the block enters but these. -/
def commandResult (c : Command) (x : List Byte) : CallResult :=
  if argsInvalid c.toCallArgs then resultOf Config.stInvalidArgument []
  else if c.op = Config.opEncode then enc x c.dstCap else dec x c.dstCap

/-- Either command on an idle block with the buffers apart answers `commandResult` of its source bytes. -/
theorem exec_decodeCommand_result (c : Command) {s : State} (hidle : s.busy = false) (hover : s.overlap = false)
    (hwf : s.dst.wf) :
    ∃ t, exec (decodeCommand c) s = .next t ∧ t.result = commandResult c (sourceBytes c.toCallArgs s) := by
  unfold commandResult
  cases hargs : argsInvalid c.toCallArgs with
  | true =>
    rw [exec_decodeCommand, issueCommand_invalid hidle hargs]
    exact ⟨_, rfl, result_raise_invalidArgument _⟩
  | false =>
    have hready : Ready c.toCallArgs s := ⟨hidle, hargs, hover, hwf⟩
    unfold decodeCommand
    split
    · obtain ⟨t, e, -, -, hres⟩ := exec_encode_endsWith_enc hready
      exact ⟨t, e, hres⟩
    · obtain ⟨t, e, -, -, hres⟩ := exec_decode_endsWith_dec hready
      exact ⟨t, e, hres⟩

/-- Either command is what a command record with the same arguments decodes to. -/
theorem exists_decodeCommand {a : CallArgs} {i : Instr} (h : i = .encode a ∨ i = .decode a) :
    ∃ c : Command, decodeCommand c = i ∧ c.toCallArgs = a := by
  rcases h with rfl | rfl
  · exact ⟨{ toCallArgs := a, op := Config.opEncode }, rfl, rfl⟩
  · exact ⟨{ toCallArgs := a, op := Config.opDecode }, rfl, rfl⟩

/-- Settles O47: both results are `commandResult` of the same source bytes. -/
theorem resultDependsOnlyOnInputs : Obligations.ResultDependsOnlyOnInputs := by
  intro a s u i hi hs hu hos hou hws hwu hsrc
  obtain ⟨c, rfl, rfl⟩ := exists_decodeCommand hi
  obtain ⟨t, et, ht⟩ := exec_decodeCommand_result c hs hos hws
  obtain ⟨v, ev, hv⟩ := exec_decodeCommand_result c hu hou hwu
  exact ⟨t, v, et, ev, by rw [ht, hv, hsrc]⟩

/-! ## The start of a call -/

theorem argsInvalid_iff (a : CallArgs) :
    argsInvalid a = true ↔ a.srcNull = true ∨ a.srcLen = 0 ∨ a.dstNull = true ∨ a.dstCap = 0 := by
  simp [argsInvalid, or_assoc]

/-- Settles O12: each of the four conditions is enough for validation to fail, and then `raise` ends the call at once. -/
theorem invalidArgumentsEndTheCall : Obligations.InvalidArgumentsEndTheCall := by
  intro a s hidle hargs i hi
  obtain ⟨c, rfl, rfl⟩ := exists_decodeCommand hi
  refine ⟨raise Config.stInvalidArgument (accept c s), ?_, rfl, rfl, rfl, rfl, rfl, ?_⟩
  · rw [exec_decodeCommand, issueCommand_invalid hidle ((argsInvalid_iff _).2 hargs)]
  · show { s with busy := false } = s
    rw [← hidle]

/-- Settles O15: a ready command leaves the state call start sets, and that writes the registers of the command's engine. -/
theorem callStartSetsWorkingRegisters : Obligations.CallStartSetsWorkingRegisters := by
  intro c s rest hready hhost
  refine ⟨initCall (accept c { s with host := rest }), ?_, by simp, by simp, by simp, ?_⟩
  · rw [step_host_cons hhost]
    exact issueCommand_ready (s := { s with host := rest }) hready _
  · rcases op_cases c.op with ho | ho
    · rw [initCall_encode ho]
      exact ⟨rfl, fun _ => ⟨rfl, rfl, rfl, rfl⟩, fun h => absurd (ho.symm.trans h) opEncode_ne_opDecode, rfl⟩
    · rw [initCall_decode ho]
      exact ⟨rfl, fun h => absurd (h.symm.trans ho) opEncode_ne_opDecode, fun _ => ⟨rfl, rfl, rfl, rfl⟩, rfl⟩

/-! ## The step of an instruction -/

/-- When the host passes or has no move, the step is a turn of the block (R85, R120). -/
theorem step_of_no_move {s : State} {rest : List HostMove} (h : s.host = .pass :: rest ∨ s.host = [] ∧ rest = []) :
    step s = engineStep { s with host := rest } := by
  rcases h with h | ⟨h, rfl⟩
  · exact step_host_cons h
  · rw [step_host_nil h, ← h]

/-- A turn of a `DECODE` call before the end of SRC runs what the header at the cursor decodes to (R122). -/
theorem engineStep_decode_header {s : State} (hb : s.busy = true) (ho : s.cmd.op = Config.opDecode)
    (hrd : s.rd < s.cmd.srcLen) :
    engineStep s = exec (decodeHeader (s.src.read s.rd)) (setH (s.src.read s.rd) s) := by
  rw [engineStep_decode hb ho, ← fetchToken_exec, fetchToken, if_neg hrd.ne, withSrc_of_lt hrd]

theorem decode_bytes_unread {s : State} (hrd : s.rd < s.cmd.srcLen) :
    decode (.bytes (unread s)) =
      .instr (decodeHeader (s.src.read s.rd)) (s.src.slice (s.rd + 1) (remaining s - 1)) := by
  rw [unread_eq_cons hrd]
  rfl

/-- Settles O10: the host's command, the token at the cursor, and the idle block. -/
theorem stepRunsDecodedInstruction : Obligations.StepRunsDecodedInstruction := by
  refine ⟨fun s c rest i hhost hdec => ?_, fun s rest i more hhost hb ho hrd hdec => ?_, fun s hhost hidle => ?_⟩
  · cases hdec
    exact step_host_cons hhost
  · cases (decode_bytes_unread hrd).symm.trans hdec
    rw [step_of_no_move hhost]
    exact engineStep_decode_header (s := { s with host := rest }) hb ho hrd
  · rw [step_host_nil hhost, engineStep_idle hidle]

end Sys2Proof.Machine
end

section
/-! SUPPORT. Where the capacity cuts the encoder's tokens (R103), and so what `ENCODE` answers (R105) and that `DECODE`
undoes it (R107). -/

namespace Sys2Proof.Machine

/-! ## The tokens that fit -/

/-- All tokens fit, or those before the first that does not. -/
theorem fitTokens_cases (cap : Nat) (ts : List Token) :
    ((streamBytes ts).length ≤ cap ∧ fitTokens cap ts = ts) ∨
    ∃ k, k < ts.length ∧ (streamBytes (ts.take k)).length ≤ cap ∧ cap < (streamBytes (ts.take (k + 1))).length ∧
      fitTokens cap ts = ts.take k := by
  induction ts generalizing cap with
  | nil => exact .inl ⟨Nat.zero_le cap, rfl⟩
  | cons t ts ih =>
    unfold fitTokens
    split
    · next hfits =>
      simp only [streamBytes_cons, List.length_append]
      rcases ih (cap - t.bytes.length) with ⟨hall, e⟩ | ⟨k, hk, hbefore, hafter, e⟩
      · exact .inl ⟨by omega, by rw [e]⟩
      · refine .inr ⟨k + 1, Nat.succ_lt_succ hk, ?_, ?_, by rw [e, List.take_succ_cons]⟩
        · rw [List.take_succ_cons, streamBytes_cons, List.length_append]
          omega
        · rw [List.take_succ_cons, streamBytes_cons, List.length_append]
          omega
    · next hmisfit =>
      refine .inr ⟨0, Nat.succ_pos _, Nat.zero_le cap, ?_, rfl⟩
      rw [List.take_succ_cons, List.take_zero, streamBytes_cons, streamBytes_nil, List.append_nil]
      exact Nat.not_le.1 hmisfit

theorem streamBytes_append (ts us : List Token) : streamBytes (ts ++ us) = streamBytes ts ++ streamBytes us :=
  List.flatMap_append

theorem streamBytes_length_take_le (ts : List Token) (k : Nat) :
    (streamBytes (ts.take k)).length ≤ (streamBytes ts).length := by
  conv_rhs => rw [← List.take_append_drop k ts, streamBytes_append, List.length_append]
  exact Nat.le_add_right _ _

/-- With room for all its tokens the encoder writes them all. -/
theorem enc_of_fits {x : List Byte} {cap : Nat} (h : (streamBytes (seg x)).length ≤ cap) :
    enc x cap = resultOf Config.stOk (streamBytes (seg x)) := by
  rcases fitTokens_cases cap (seg x) with ⟨-, e⟩ | ⟨k, -, -, hafter, -⟩
  · rw [enc, e, if_pos rfl]
  · exact absurd ((streamBytes_length_take_le _ _).trans h) (Nat.not_le.2 hafter)

/-- With less room the encoder writes the tokens before the first that does not fit. -/
theorem enc_of_misfit {x : List Byte} {cap : Nat} (h : cap < (streamBytes (seg x)).length) :
    ∃ k, k < (seg x).length ∧ (streamBytes ((seg x).take k)).length ≤ cap ∧
      cap < (streamBytes ((seg x).take (k + 1))).length ∧
      enc x cap = resultOf Config.stDstWriteError (streamBytes ((seg x).take k)) := by
  rcases fitTokens_cases cap (seg x) with ⟨hall, -⟩ | ⟨k, hk, hbefore, hafter, e⟩
  · exact absurd hall (Nat.not_le.2 h)
  · refine ⟨k, hk, hbefore, hafter, ?_⟩
    rw [enc, e, if_neg]
    rw [List.length_take_of_le hk.le]
    exact hk.ne

theorem enc_status_ok_iff (x : List Byte) (cap : Nat) :
    (enc x cap).status = Config.stOk ↔ (streamBytes (seg x)).length ≤ cap := by
  rcases Nat.lt_or_ge cap (streamBytes (seg x)).length with h | h
  · obtain ⟨k, -, -, -, e⟩ := enc_of_misfit h
    rw [e, resultOf_status]
    exact iff_of_false (by decide) (Nat.not_le.2 h)
  · rw [enc_of_fits h]
    exact iff_of_true rfl h

/-! ## The command -/

/-- Settles O28: the engine computes `enc`, and no command touches DST beyond its `output_length`. -/
theorem encodeComputesEnc : Obligations.EncodeComputesEnc := by
  intro a s hready
  have ⟨hidle, _, _, hwf⟩ := hready
  obtain ⟨t, e, hend, hdef, hres⟩ := exec_encode_endsWith_enc hready
  obtain ⟨-, -, -, hover⟩ := exec_decodeCommand_frame (c := { toCallArgs := a, op := Config.opEncode }) hwf e
  obtain ⟨-, -, hbeyond⟩ := hover hidle
  exact ⟨t, e, hend, hdef, hres, hbeyond⟩

/-- `ENCODE` of a ready call ends with `OK` exactly when all its tokens fit (R103). -/
theorem exec_encode_status_ok_iff {a : CallArgs} {s : State} (h : Ready a s) :
    ∃ t, exec (.encode a) s = .next t ∧
      (t.status = Config.stOk ↔ (streamBytes (seg (sourceBytes a s))).length ≤ a.dstCap) := by
  obtain ⟨t, e, -, -, hres⟩ := exec_encode_endsWith_enc h
  exact ⟨t, e, by rw [← enc_status_ok_iff, ← hres]; rfl⟩

/-- Settles O30: the machine computes `enc`, in both its cases. -/
theorem encodeCutsAtFirstMisfit : Obligations.EncodeCutsAtFirstMisfit := by
  intro a s hready
  obtain ⟨t, e, -, -, hres⟩ := exec_encode_endsWith_enc hready
  refine ⟨t, e, fun hfits => hres.trans (enc_of_fits hfits), fun hmisfit => ?_⟩
  rw [hres]
  exact enc_of_misfit hmisfit

/-! ## The round trip -/

/-- Every token of the encoder can be written (R97). -/
theorem wf_of_mem_seg {x : List Byte} {t : Token} (h : t ∈ seg x) : t.wf = true := by
  induction x using seg_induction with
  | nil => cases h
  | run b rest hrun ih =>
    rw [seg_of_run hrun, List.mem_cons] at h
    rcases h with rfl | h
    · exact (Laws.lengthOk_run _).2 ⟨hrun, runLength_le b rest⟩
    · exact ih h
  | copy b rest hcopy ih =>
    rw [seg_of_copy hcopy, List.mem_cons] at h
    rcases h with rfl | h
    · rw [Token.wf, length_take_copyLength, Laws.lengthOk_copy]
      exact ⟨one_le_copyLength b rest, copyLength_le b rest⟩
    · exact ih h

/-- Settles O37: a successful `ENCODE` has written a well-formed stream whose meaning is the input. -/
theorem roundTrip : Obligations.RoundTrip := by
  intro a s t hready e hok b u hready' _ hcap hsrc
  obtain ⟨_, e', -, -, hres⟩ := exec_encode_endsWith_enc hready
  cases e.symm.trans e'
  have hfits : (streamBytes (seg (sourceBytes a s))).length ≤ a.dstCap := by
    rw [← enc_status_ok_iff, ← hres]
    exact hok
  rw [hres, enc_of_fits hfits] at hsrc
  have hlen : (streamMeaning (seg (sourceBytes a s))).length ≤ b.dstCap := by
    rwa [streamMeaning_seg, sourceBytes, Memory.slice_length]
  obtain ⟨v, ev, hv⟩ := wellFormedStreamsDecode b u (seg (sourceBytes a s)) hready' (fun _ => wf_of_mem_seg) hsrc hlen
  exact ⟨v, ev, by rw [hv, streamMeaning_seg]⟩

end Sys2Proof.Machine
end

section
/-! SUPPORT. What an emission, a scan step and the flush do to the state, in the statements' terms (R89 to R102). -/

namespace Sys2Proof.Machine

/-! ## Emissions -/

/-- `raise` of any error but `INVALID_ARGUMENT`, the temporaries having become `tmp` (R144). -/
theorem raised_raise {e : StatusBits} (he : e ≠ Config.stInvalidArgument) (tmp : Temps) (s : State) :
    Raised e tmp s (raise e { s with tmp := tmp }) :=
  ⟨rfl, if_neg he, rfl, rfl, rfl, rfl⟩

theorem noRoom_eq_true_iff (needed : Nat) (s : State) : noRoom needed s = true ↔ s.cmd.dstCap - s.outLen < needed :=
  decide_eq_true_iff

theorem noRoom_eq_false_iff (needed : Nat) (s : State) : noRoom needed s = false ↔ needed ≤ s.cmd.dstCap - s.outLen :=
  decide_eq_false_iff_not.trans Nat.not_lt

/-- The state after an emission, written out: the token stands at `out_len`, and the temporaries are the emission's. -/
theorem emitted_eq (k : Kind) (a n : Nat) (s : State) :
    emitted k a n s =
      { s with
        outLen := s.outLen + tokenSize k n, dst := writeBytes (tokenAt k a n s.src).bytes s.outLen s.dst,
        tmp := { s.tmp with kind := k, s := a, n := n, hdr := headerByte k n } } := by
  rw [tokenAt_bytes]
  rfl

/-- Settles O22, from the two cases of an emission. -/
theorem emitWritesWholeTokenOrNothing : Obligations.EmitWritesWholeTokenOrNothing := by
  intro k a n s hwf hn hle need hdr payload
  have hneed : need = tokenSize k n := by cases k <;> rfl
  have htoken : hdr :: payload = (tokenAt k a n s.src).bytes := by
    rw [tokenAt_bytes]
    cases k <;> rfl
  have hhdr : hdr = headerByte k n := by cases k <;> rfl
  rw [htoken, hneed, hhdr, ← noRoom_eq_true_iff, ← noRoom_eq_false_iff]
  rcases emit_cases (k := k) hle hn with ⟨hroom, e⟩ | ⟨hroom, e⟩
  · exact ⟨fun _ => ⟨_, e, raised_raise (by decide) _ s⟩, fun h => absurd hroom (ne_true_of_eq_false h)⟩
  · rw [emitted_eq] at e
    exact ⟨fun h => absurd h (ne_true_of_eq_false hroom), fun _ => ⟨_, e, rfl, writeBytes_writesAt hwf _ _, rfl, rfl⟩⟩

/-! ## Scan steps -/

theorem Scanning.step_eq {s : State} (h : Scanning s) : step s = encodeTick s := by
  obtain ⟨hhost, hb, ho, -⟩ := h
  rw [step_host_nil hhost, engineStep_encode hb ho]

/-- A scan step's emission is what `ScanEmits` says of the token of the open segment. -/
theorem emitThen_scanEmits {s : State} (hwf : s.dst.wf) (k : Kind) (n seg : Nat) (m : Mode) (eq : Bool) :
    ∃ t, emitThen k n seg m (setEq eq s) = .next t ∧ ScanEmits (tokenAt k s.segStart n s.src) seg m s t := by
  unfold emitThen ScanEmits
  simp only [tokenAt_bytes_length, ← noRoom_eq_true_iff, ← noRoom_eq_false_iff]
  split
  · next hroom =>
    exact ⟨_, rfl, fun h => absurd hroom (ne_true_of_eq_false h), fun _ => raised_raise (by decide) _ s⟩
  · next hroom =>
    rw [emitted_eq]
    exact ⟨_, rfl, fun _ => ⟨rfl, writeBytes_writesAt hwf _ _, rfl, rfl, rfl, rfl⟩, fun h => absurd h hroom⟩

/-- Settles O23: the two scan steps in `InCopy` that neither emit nor begin a run. -/
theorem scanKeepsCopySegment : Obligations.ScanKeepsCopySegment := by
  intro s hs hi hm
  rw [hs.step_eq]
  have ⟨_, hb, _, _, hscan⟩ := hs
  constructor
  · intro hne hcap
    rcases encodeTick_inCopy hb hi hscan hm with ⟨-, -, e⟩ | ⟨heq, -⟩ | ⟨heq, -⟩ | ⟨heq, -⟩ | ⟨-, hfull, -⟩
    · exact e
    · exact absurd heq hne
    · exact absurd heq hne
    · exact absurd heq hne
    · omega
  · intro heq hempty
    rcases encodeTick_inCopy hb hi hscan hm with ⟨hne, -⟩ | ⟨-, -, e⟩ | ⟨-, hone, -⟩ | ⟨-, hmany, -⟩ | ⟨hne, -⟩
    · exact absurd heq hne
    · exact e
    · omega
    · omega
    · exact absurd heq hne

/-- Settles O24: the two scan steps in `InCopy` that begin a run. -/
theorem scanCopyToRun : Obligations.ScanCopyToRun := by
  intro s hs hi hm heq
  rw [hs.step_eq]
  have ⟨_, hb, _, hwf, hscan⟩ := hs
  have ⟨h1, _⟩ := hscan
  rcases encodeTick_inCopy hb hi hscan hm with ⟨hne, -⟩ | ⟨-, hempty, -⟩ | ⟨-, hone, e⟩ | ⟨-, hmany, e⟩ | ⟨hne, -⟩
  · exact absurd heq hne
  · exact ⟨fun h => by omega, fun h => by omega⟩
  · refine ⟨fun h => ?_, fun h => by omega⟩
    rw [e, ← h]
    rfl
  · refine ⟨fun h => by omega, fun _ => ?_⟩
    rw [e]
    exact emitThen_scanEmits hwf .copy _ _ _ _
  · exact absurd heq hne

/-- Settles O25: the scan step in `InRun` that ends the run, and the one that extends it. -/
theorem scanRunToCopy : Obligations.ScanRunToCopy := by
  intro s hs hi hm
  rw [hs.step_eq]
  have ⟨_, hb, _, hwf, hscan⟩ := hs
  rcases encodeTick_inRun hb hi hscan hm with ⟨heq, -, e⟩ | ⟨heq, hfull, -⟩ | ⟨hne, e⟩
  · exact ⟨fun hne => absurd heq hne, fun _ _ => e⟩
  · exact ⟨fun hne => absurd heq hne, fun _ hcap => by omega⟩
  · refine ⟨fun _ => ?_, fun heq => absurd heq hne⟩
    rw [e]
    exact emitThen_scanEmits hwf .run _ _ _ _

/-! ## The flush -/

/-- The flush's emission is what `FlushEmits` says of the token of the open segment. -/
theorem flushThen_flushEmits {s : State} (hwf : s.dst.wf) (k : Kind) (n : Nat) :
    ∃ t, flushThen k n s = .next t ∧ FlushEmits (tokenAt k s.segStart n s.src) s t := by
  unfold flushThen FlushEmits
  simp only [tokenAt_bytes_length, ← noRoom_eq_true_iff, ← noRoom_eq_false_iff]
  split
  · next hroom =>
    exact ⟨_, rfl, fun h => absurd hroom (ne_true_of_eq_false h), fun _ => raised_raise (by decide) _ s⟩
  · next hroom =>
    rw [emitted_eq]
    exact ⟨_, rfl, fun _ => ⟨rfl, writeBytes_writesAt hwf _ _, rfl, rfl, rfl, rfl, rfl⟩, fun h => absurd h hroom⟩

/-- Settles O27, from the three cases of the flush. -/
theorem flushEndsTheCall : Obligations.FlushEndsTheCall := by
  intro s hs hi
  rw [hs.step_eq]
  have ⟨_, hb, _, hwf, hscan⟩ := hs
  rcases encodeTick_flush hb hi hscan with ⟨hm, e⟩ | ⟨hm, hopen, e⟩ | ⟨hm, hempty, e⟩ <;> rw [e, hm]
  · exact ⟨fun _ => flushThen_flushEmits hwf .run _, nofun, nofun⟩
  · exact ⟨nofun, fun _ _ => flushThen_flushEmits hwf .copy _, fun _ h => absurd h hopen.ne⟩
  · exact ⟨nofun, fun _ h => absurd hempty h.ne, fun _ _ => hm ▸ rfl⟩

end Sys2Proof.Machine
end

section
/-! SUPPORT. The length of each segment of the encoder (R104), from the position of its end. -/

namespace Sys2Proof.Machine

/-! ## The run -/

theorem runLength_le_length (b : Byte) (rest : List Byte) : runLength (b :: rest) ≤ (b :: rest).length := by
  have := congrArg List.length (take_runLength b rest)
  rw [List.length_take, List.length_replicate] at this
  omega

theorem getElem?_of_lt_runLength {b : Byte} {rest : List Byte} {k : Nat} (h : k < runLength (b :: rest)) :
    (b :: rest)[k]? = some b := by
  rw [← List.getElem?_take_of_lt h, take_runLength, List.getElem?_replicate_of_lt h]

/-- Behind a run below the cap stands another byte, or none. -/
theorem getElem?_runLength_ne {b : Byte} {rest : List Byte} (h : runLength (b :: rest) < 129) :
    (b :: rest)[runLength (b :: rest)]? ≠ some b := by
  rw [← List.head?_drop]
  exact head?_drop_runLength h.ne

/-! ## The copy -/

/-- No two equal bytes begin before the place that `beforePair` finds. -/
theorem getElem?_ne_of_lt_beforePair {l : List Byte} {q : Nat} (h : q < beforePair l) (hlen : q + 1 < l.length) :
    l[q]? ≠ l[q + 1]? := by
  induction l using beforePair.induct generalizing q with
  | case1 => exact absurd hlen (Nat.not_lt_zero _)
  | case2 a => exact absurd (Nat.lt_of_succ_lt_succ hlen) (Nat.not_lt_zero _)
  | case3 a rest => rw [beforePair_pair] at h; exact absurd h (Nat.not_lt_zero _)
  | case4 a b rest hne ih =>
    rw [beforePair_cons_cons hne] at h
    cases q with
    | zero => simpa using hne
    | succ q => exact ih (Nat.lt_of_succ_lt_succ h) (Nat.lt_of_succ_lt_succ hlen)

theorem copyLength_le_length (b : Byte) (rest : List Byte) : copyLength (b :: rest) ≤ (b :: rest).length := by
  have := length_take_copyLength b rest
  rw [List.length_take] at this
  omega

theorem getElem?_ne_of_lt_copyLength {b : Byte} {rest : List Byte} {q : Nat} (hpos : 0 < q)
    (h : q < copyLength (b :: rest)) (hlen : q + 1 < (b :: rest).length) : (b :: rest)[q]? ≠ (b :: rest)[q + 1]? := by
  obtain ⟨q, rfl⟩ := Nat.exists_eq_add_of_lt hpos
  rw [copyLength_cons] at h
  rw [Nat.zero_add, List.getElem?_cons_succ, List.getElem?_cons_succ]
  exact getElem?_ne_of_lt_beforePair (by omega) (by rw [List.length_cons] at hlen; omega)

/-- Behind a copy below the cap stand two equal bytes, or nothing. -/
theorem pair_at_copyLength {b : Byte} {rest : List Byte} (hcap : copyLength (b :: rest) < 128)
    (hlen : copyLength (b :: rest) < (b :: rest).length) :
    copyLength (b :: rest) + 1 < (b :: rest).length ∧
      (b :: rest)[copyLength (b :: rest)]? = (b :: rest)[copyLength (b :: rest) + 1]? := by
  obtain hnil | ⟨c, more, hpair⟩ := drop_copyLength hcap.ne
  · exact absurd (List.drop_eq_nil_iff.1 hnil) (Nat.not_le.2 hlen)
  · have hfirst : (b :: rest)[copyLength (b :: rest)]? = some c := by
      rw [← List.head?_drop, hpair]
      rfl
    have hsecond : (b :: rest)[copyLength (b :: rest) + 1]? = some c := by
      rw [← List.getElem?_drop, hpair]
      rfl
    obtain ⟨hlt, -⟩ := List.getElem?_eq_some_iff.1 hsecond
    exact ⟨hlt, hfirst.trans hsecond.symm⟩

/-- Settles O31: the run is longest for what stands behind it, the copy for what stands in it and behind it. -/
theorem segmentLengthsAreLargest : Obligations.SegmentLengthsAreLargest := by
  intro b rest x r c
  refine ⟨⟨one_le_runLength b rest, le_min (runLength_le b rest) (runLength_le_length b rest),
    fun k => getElem?_of_lt_runLength, fun h => getElem?_runLength_ne (lt_min_iff.1 h).1⟩,
    ⟨one_le_copyLength b rest, le_min (copyLength_le b rest) (copyLength_le_length b rest),
      fun q => getElem?_ne_of_lt_copyLength, fun h => ?_⟩, ?_⟩
  · obtain ⟨hcap, hlen⟩ := lt_min_iff.1 h
    exact pair_at_copyLength hcap hlen
  · split
    · next hrun => exact seg_of_run hrun
    · next hcopy => exact seg_of_copy (Nat.not_le.1 hcopy)

end Sys2Proof.Machine
end

section
/-! SUPPORT. How many bytes the encoder's tokens take (R106, R108, R109). -/

namespace Sys2Proof.Machine

/-! ## Short inputs -/

theorem seg_singleton (b : Byte) : seg [b] = [.copy [b]] := rfl

theorem seg_replicate {n : Nat} (b : Byte) (hlo : 2 ≤ n) (hhi : n ≤ 129) : seg (List.replicate n b) = [.run n b] := by
  have := seg_replicate_append (rest := []) (b := b) hlo hhi (.inr nofun)
  rwa [List.append_nil, seg_nil] at this

/-- A stretch longer than the run cap begins with a run at the cap (R93). -/
theorem seg_replicate_add_cap (n : Nat) (b : Byte) :
    seg (List.replicate (129 + n) b) = .run 129 b :: seg (List.replicate n b) := by
  rw [List.replicate_add]
  exact seg_replicate_append (by decide) le_rfl (.inl rfl)

/-- A single byte and a pair: a copy of one byte and a run of two. -/
theorem seg_single_pair {a b : Byte} {rest : List Byte} (hab : a ≠ b) (hrest : rest.head? ≠ some b) :
    seg (a :: b :: b :: rest) = .copy [a] :: .run 2 b :: seg rest := by
  have hcopy : seg ([a] ++ b :: b :: rest) = .copy [a] :: seg (b :: b :: rest) :=
    seg_copy_append le_rfl (show 1 ≤ 128 by decide) (by simp [noPair, hab]) (.inr (beforePair_pair b rest))
  have hrun : seg (List.replicate 2 b ++ rest) = .run 2 b :: seg rest :=
    seg_replicate_append le_rfl (by decide) (.inr hrest)
  exact hcopy.trans (congrArg _ hrun)

/-- Settles O36: the tokens of a single byte, a pair, and a single byte. -/
theorem encoderIsNotMinimal : Obligations.EncoderIsNotMinimal := by
  intro a b c hab hbc
  have hseg : seg [a, b, b, c] = [.copy [a], .run 2 b, .copy [c]] := by
    rw [seg_single_pair hab (by simpa using hbc.symm), seg_singleton]
  rw [hseg]
  exact ⟨rfl, rfl, rfl, rfl⟩

/-! ## The least size -/

theorem two_mul_length_le_streamBytes {ts : List Token} (h : ∀ t ∈ ts, t.wf = true) :
    2 * ts.length ≤ (streamBytes ts).length := by
  induction ts with
  | nil => exact le_rfl
  | cons t ts ih =>
    obtain ⟨ht, hts⟩ := List.forall_mem_cons.1 h
    have hsize := two_le_tokenSize (k := tokenKind t) (one_le_tokenLength ht)
    have := ih hts
    rw [streamBytes_cons, List.length_append, List.length_cons, token_bytes_length]
    omega

theorem streamMeaning_length_le_tokens {ts : List Token} (h : ∀ t ∈ ts, t.wf = true) :
    (streamMeaning ts).length ≤ 129 * ts.length := by
  induction ts with
  | nil => exact le_rfl
  | cons t ts ih =>
    obtain ⟨ht, hts⟩ := List.forall_mem_cons.1 h
    have hlen := tokenLength_le ht
    have := ih hts
    rw [streamMeaning_cons, List.length_append, List.length_cons, tokenExpand_length]
    omega

/-- Each token takes two bytes or more and stands for at most 129. -/
theorem le_streamBytes_seg (x : List Byte) : 2 * ((x.length + 128) / 129) ≤ (streamBytes (seg x)).length := by
  have hbytes := two_mul_length_le_streamBytes (ts := seg x) fun _ => wf_of_mem_seg
  have hmean := streamMeaning_length_le_tokens (ts := seg x) fun _ => wf_of_mem_seg
  rw [streamMeaning_seg] at hmean
  omega

/-- Equal bytes reach the least size. -/
theorem streamBytes_seg_replicate (L : Nat) (b : Byte) :
    (streamBytes (seg (List.replicate L b))).length = 2 * ((L + 128) / 129) := by
  induction L using Nat.strong_induction_on with
  | _ L ih =>
    rcases Nat.lt_or_ge 129 L with hlong | hshort
    · obtain ⟨n, rfl⟩ := Nat.exists_eq_add_of_le hlong.le
      rw [seg_replicate_add_cap, streamBytes_cons, List.length_append, token_bytes_length, ih n (by omega)]
      show 2 + _ = _
      omega
    · match L, hshort with
      | 0, _ => rfl
      | 1, _ => rfl
      | n + 2, hshort =>
        rw [seg_replicate b (Nat.le_add_left 2 n) hshort]
        show 2 = _
        omega

/-! ## The greatest size -/

/-- Three times the size against four times the length. A copy that is not at the cap pays one byte more than the run
behind it makes up for, so only the last one counts. -/
theorem three_mul_streamBytes_seg_le (x : List Byte) :
    3 * (streamBytes (seg x)).length ≤ 4 * x.length + 2 ∧
      (runLength x ≠ 1 → 3 * (streamBytes (seg x)).length ≤ 4 * x.length) := by
  induction x using seg_induction with
  | nil => exact ⟨Nat.zero_le _, fun _ => le_rfl⟩
  | run b rest hrun ih =>
    obtain ⟨ih, -⟩ := ih
    have hle := runLength_le_length b rest
    rw [seg_of_run hrun, streamBytes_cons, List.length_append, token_bytes_length, tokenKind, tokenSize_run]
    rw [List.length_drop] at ih
    omega
  | copy b rest hcopy ih =>
    obtain ⟨ih, ihRun⟩ := ih
    have hpos := one_le_copyLength b rest
    have hone : runLength (b :: rest) = 1 := Nat.le_antisymm (Nat.le_of_lt_succ hcopy) (one_le_runLength b rest)
    have hle := copyLength_le_length b rest
    rw [seg_of_copy hcopy, streamBytes_cons, List.length_append, token_bytes_length, tokenKind, tokenLength,
      tokenSize_copy, length_take_copyLength]
    rw [List.length_drop] at ih ihRun
    refine ⟨?_, fun h => absurd hone h⟩
    by_cases hcap : copyLength (b :: rest) = 128
    · omega
    · have hnext : runLength ((b :: rest).drop (copyLength (b :: rest))) ≠ 1 := by
        rcases drop_copyLength hcap with e | ⟨c, more, e⟩ <;> rw [e]
        · exact Nat.zero_ne_one
        · exact Nat.ne_of_gt (two_le_runLength_pair c more)
      have := ihRun hnext
      omega

theorem streamBytes_seg_le (x : List Byte) : (streamBytes (seg x)).length ≤ (4 * x.length + 2) / 3 := by
  obtain ⟨h, -⟩ := three_mul_streamBytes_seg_le x
  omega

/-- The pattern of R108 that reaches the greatest size: a single byte and a pair, again and again. -/
def worstInput : Nat → List Byte
  | 0 => []
  | 1 => [0#8]
  | 2 => [0#8, 1#8]
  | L + 3 => 0#8 :: 1#8 :: 1#8 :: worstInput L

@[simp] theorem worstInput_length (L : Nat) : (worstInput L).length = L := by
  induction L using worstInput.induct with
  | case1 => rfl
  | case2 => rfl
  | case3 => rfl
  | case4 L ih => simp [worstInput, ih]

theorem worstInput_head? (L : Nat) : (worstInput L).head? ≠ some 1#8 := by
  cases L using worstInput.fun_cases <;> simp [worstInput]

theorem streamBytes_seg_worstInput (L : Nat) : (streamBytes (seg (worstInput L))).length = (4 * L + 2) / 3 := by
  induction L using worstInput.induct with
  | case1 => rfl
  | case2 => rfl
  | case3 => rfl
  | case4 L ih =>
    rw [worstInput, seg_single_pair (by decide) (worstInput_head? L), streamBytes_cons, streamBytes_cons,
      List.length_append, List.length_append, ih]
    show 2 + (2 + _) = _
    omega

/-- Settles O35: both bounds, the input that reaches each, and the upper one as the capacity. -/
theorem outputSizeBounds : Obligations.OutputSizeBounds := by
  refine ⟨fun x _ => ⟨le_streamBytes_seg x, streamBytes_seg_le x⟩, fun L _ => ⟨?_, ?_⟩, fun a s hready hcap => ?_⟩
  · exact ⟨List.replicate L 0#8, List.length_replicate .., streamBytes_seg_replicate L 0#8⟩
  · exact ⟨worstInput L, worstInput_length L, streamBytes_seg_worstInput L⟩
  · obtain ⟨t, e, hok⟩ := exec_encode_status_ok_iff hready
    have hsize := streamBytes_seg_le (sourceBytes a s)
    rw [sourceBytes, Memory.slice_length] at hsize
    exact ⟨t, e, hok.2 (hsize.trans hcap)⟩

/-! ## The smallest destinations -/

/-- No token fits into one byte. -/
theorem enc_cap_one {x : List Byte} (hx : x ≠ []) : enc x 1 = resultOf Config.stDstWriteError [] := by
  have hwf : ∀ t ∈ seg x, t.wf = true := fun _ => wf_of_mem_seg
  have hpos : 0 < (seg x).length := List.length_pos_iff.2 (mt (seg_eq_nil_iff x).1 hx)
  have hsize := two_mul_length_le_streamBytes hwf
  obtain ⟨k, hk, hbefore, -, e⟩ := enc_of_misfit (x := x) (cap := 1) (by omega)
  have hsize' := two_mul_length_le_streamBytes fun t h => hwf t (List.mem_of_mem_take (i := k) h)
  rw [List.length_take_of_le hk.le] at hsize'
  have hnone : k = 0 := by omega
  rw [e, hnone]
  rfl

/-- Two bytes hold the tokens of at most one byte, or of one run. -/
theorem streamBytes_seg_le_two_iff {x : List Byte} (hx : x ≠ []) :
    (streamBytes (seg x)).length ≤ 2 ↔ x.length = 1 ∨ ∃ n b, 2 ≤ n ∧ n ≤ 129 ∧ x = List.replicate n b := by
  constructor
  · intro h
    have hcount := two_mul_length_le_streamBytes (ts := seg x) fun _ => wf_of_mem_seg
    obtain ⟨t, ht⟩ : ∃ t, seg x = [t] := by
      refine List.length_eq_one_iff.1 (Nat.le_antisymm (by omega) (List.length_pos_iff.2 ?_))
      rwa [Ne, seg_eq_nil_iff]
    have hwf : t.wf = true := wf_of_mem_seg (x := x) (by simp [ht])
    have hmean : x = tokenExpand t := by simpa [ht] using (streamMeaning_seg x).symm
    rw [ht, streamBytes_cons, streamBytes_nil, List.append_nil] at h
    cases t with
    | run n b =>
      obtain ⟨hlo, hhi⟩ := (Laws.lengthOk_run n).1 hwf
      exact .inr ⟨n, b, hlo, hhi, hmean⟩
    | copy data =>
      have hlo := one_le_tokenLength hwf
      simp only [Token.bytes, List.length_cons, tokenLength] at h hlo
      rw [tokenExpand] at hmean
      exact .inl (by rw [hmean]; omega)
  · rintro (hone | ⟨n, b, hlo, hhi, rfl⟩)
    · obtain ⟨b, rfl⟩ := List.length_eq_one_iff.1 hone
      exact le_rfl
    · rw [seg_replicate b hlo hhi]
      exact le_rfl

/-- The bytes of a buffer are copies of one byte exactly when all read as the first. -/
theorem exists_slice_eq_replicate_iff (m : Memory) (L : Nat) :
    (∃ n b, 2 ≤ n ∧ n ≤ 129 ∧ m.slice 0 L = List.replicate n b) ↔
      2 ≤ L ∧ L ≤ 129 ∧ ∀ k, k < L → m.read k = m.read 0 := by
  constructor
  · rintro ⟨n, b, hlo, hhi, e⟩
    have hL : L = n := by simpa using congrArg List.length e
    subst hL
    have hread : ∀ k, k < L → m.read k = b := by
      intro k hk
      have := Memory.getElem?_slice m 0 L k hk
      rw [e, List.getElem?_replicate_of_lt hk, Option.some_inj, Nat.zero_add] at this
      exact this.symm
    exact ⟨hlo, hhi, fun k hk => (hread k hk).trans (hread 0 (by omega)).symm⟩
  · rintro ⟨hlo, hhi, hall⟩
    have hrun : SegmentOf .run 0 L m := fun _ k _ hk => hall k (by rwa [Nat.zero_add] at hk)
    exact ⟨L, m.read 0, hlo, hhi, hrun.expand.symm⟩

/-- A ready command leaves DST in its canonical form. -/
theorem exec_decodeCommand_dst_wf {c : Command} {s t : State} (h : Ready c.toCallArgs s)
    (e : exec (decodeCommand c) s = .next t) : t.dst.wf := by
  have ⟨_, hargs, _, hwf⟩ := h
  rw [exec_decodeCommand, issueCommand_ready h, finishCall_eq_engineSteps, initCall_cmd, accept_cmd] at e
  obtain ⟨-, -, hout⟩ := engineSteps_end (fun _ => turnsSuffice_initCall hargs s) e
  obtain ⟨hdst, -⟩ := hout (outputKept_initCall hwf)
  exact hdst

/-- Settles O33: no token fits into one byte; into two fits one token of two bytes. -/
theorem smallestDestination : Obligations.SmallestDestination := by
  intro a s hready
  have ⟨_, hargs, _, hwf⟩ := hready
  obtain ⟨hlen, -⟩ := argsInvalid_eq_false hargs
  have hne : sourceBytes a s ≠ [] := by
    rw [← List.length_pos_iff, sourceBytes, Memory.slice_length]
    exact hlen
  constructor
  · intro hcap
    obtain ⟨t, e, -, -, hres, hbeyond⟩ := encodeComputesEnc a s hready
    rw [hcap, enc_cap_one hne] at hres
    have hzero : t.outputLength = 0 := congrArg CallResult.outputLength hres
    have hdst : t.dst.wf := exec_decodeCommand_dst_wf (c := { toCallArgs := a, op := Config.opEncode }) hready e
    have hsame : t.dst = s.dst := Memory.ext_of_wf hdst hwf fun x => hbeyond x (by rw [hzero]; exact Nat.zero_le x)
    exact ⟨t, e, congrArg CallResult.status hres, hzero, hsame⟩
  · intro hcap
    obtain ⟨t, e, hok⟩ := exec_encode_status_ok_iff hready
    refine ⟨t, e, ?_⟩
    rw [hok, hcap, streamBytes_seg_le_two_iff hne, sourceBytes, Memory.slice_length, exists_slice_eq_replicate_iff]

end Sys2Proof.Machine
end

section
/-! SUPPORT. The two tokens as the decoder executes them, their errors, their effect and their frame (R123 to R125), and how
the decoder's turn ends a call with success (R121). -/

namespace Sys2Proof.Machine

/-! ## A token's execution -/

theorem truncated_eq_true_iff (k : Kind) (n : Nat) (s : State) :
    truncated k n s = true ↔ s.cmd.srcLen - s.rd < tokenSize k n := decide_eq_true_iff

theorem truncated_eq_false_iff (k : Kind) (n : Nat) (s : State) :
    truncated k n s = false ↔ tokenSize k n ≤ s.cmd.srcLen - s.rd := decide_eq_false_iff_not.trans Nat.not_lt

/-- The temporaries after a whole token: its length, and a run's symbol (R123, R124). -/
def tokenTemps (k : Kind) (n : Nat) (s : State) : Temps :=
  match k with
  | .run => { s.tmp with n := n, sym := s.src.read (s.rd + 1) }
  | .copy => { s.tmp with n := n }

/-- `exec` of a token, in its three cases, with the temporaries of each. -/
theorem exec_tokenInstr_cases (k : Kind) (n : Nat) (s : State) :
    (truncated k n s = true ∧
      exec (tokenInstr k n) s = .next (raise Config.stSrcDecodeError { s with tmp := { s.tmp with n := n } })) ∨
    (truncated k n s = false ∧ noRoom n s = true ∧
      exec (tokenInstr k n) s = .next (raise Config.stDstWriteError { s with tmp := { s.tmp with n := n } })) ∨
    (truncated k n s = false ∧ noRoom n s = false ∧
      exec (tokenInstr k n) s = .next
        (tokenDone n (tokenSize k n) (tokenExpand (tokenAt k (s.rd + 1) n s.src)) { s with tmp := tokenTemps k n s })) := by
  cases k with
  | run => exact execRun_cases n s
  | copy => exact execCopy_cases n s

/-- The source check comes first: a truncated token raises `SRC_DECODE_ERROR`, whatever the room (R125). -/
theorem exec_of_truncated {k : Kind} {n : Nat} {s : State} (h : truncated k n s = true) :
    exec (tokenInstr k n) s = .next (raise Config.stSrcDecodeError { s with tmp := { s.tmp with n := n } }) := by
  rcases exec_tokenInstr_cases k n s with ⟨-, e⟩ | ⟨hthere, -⟩ | ⟨hthere, -⟩
  · exact e
  · exact absurd h (ne_true_of_eq_false hthere)
  · exact absurd h (ne_true_of_eq_false hthere)

/-- A token of either kind: both errors in their order, its effect, and its frame (R123, R124). -/
theorem exec_tokenInstr_effect (k : Kind) (n : Nat) {s : State} (hwf : s.dst.wf) :
    (s.cmd.srcLen - s.rd < tokenSize k n →
      ∃ t, exec (tokenInstr k n) s = .next t ∧ Raised Config.stSrcDecodeError { s.tmp with n := n } s t) ∧
    (tokenSize k n ≤ s.cmd.srcLen - s.rd → s.cmd.dstCap - s.outLen < n →
      ∃ t, exec (tokenInstr k n) s = .next t ∧ Raised Config.stDstWriteError { s.tmp with n := n } s t) ∧
    (tokenSize k n ≤ s.cmd.srcLen - s.rd → n ≤ s.cmd.dstCap - s.outLen →
      ∃ t, exec (tokenInstr k n) s = .next t ∧ t.outLen = s.outLen + n ∧ t.rd = s.rd + tokenSize k n ∧
        WritesAt s.dst t.dst s.outLen (tokenExpand (tokenAt k (s.rd + 1) n s.src)) ∧ t.tmp = tokenTemps k n s ∧
        { t with outLen := s.outLen, rd := s.rd, dst := s.dst, tmp := s.tmp } = s) := by
  rw [← truncated_eq_true_iff, ← truncated_eq_false_iff, ← noRoom_eq_true_iff, ← noRoom_eq_false_iff]
  rcases exec_tokenInstr_cases k n s with ⟨h1, e⟩ | ⟨h1, h2, e⟩ | ⟨h1, h2, e⟩
  · simp only [h1, Bool.true_eq_false, false_implies, and_true, true_implies]
    exact ⟨_, e, raised_raise (by decide) _ s⟩
  · simp only [h1, h2, Bool.true_eq_false, Bool.false_eq_true, false_implies, and_true, true_and, true_implies]
    exact ⟨_, e, raised_raise (by decide) _ s⟩
  · simp only [h1, h2, Bool.false_eq_true, false_implies, true_and, true_implies]
    exact ⟨_, e, rfl, rfl, writeBytes_writesAt hwf _ _, rfl, rfl⟩

/-- Settles O19: a RUN header's length is 257 less its unsigned value, and the token is the run case of either token. -/
theorem runTokenExecutes : Obligations.RunTokenExecutes := by
  refine ⟨fun h hbit => ?_, fun n s hwf => exec_tokenInstr_effect .run n hwf⟩
  have hkind := (headerKind_eq_run_iff_bit h).2 hbit
  obtain ⟨-, hlen, -⟩ := headerLength_run_forms hkind
  rw [decodeHeader_of_kind hkind, Nat.eq_sub_of_add_eq hlen, tokenInstr]

/-- Settles O20: a COPY header's length is one more than its unsigned value, and the token is the copy case of either
token. -/
theorem copyTokenExecutes : Obligations.CopyTokenExecutes := by
  refine ⟨fun h hbit => ?_, fun n s hwf => exec_tokenInstr_effect .copy n hwf⟩
  have hkind := (headerKind_eq_copy_iff_bit h).2 hbit
  obtain ⟨-, hlen, -⟩ := headerLength_copy_forms hkind
  rw [decodeHeader_of_kind hkind, hlen, tokenInstr]

/-- Settles O21: a truncated token of either kind raises `SRC_DECODE_ERROR`, which writes nothing. -/
theorem sourceCheckComesFirst : Obligations.SourceCheckComesFirst := fun _ _ _ =>
  ⟨fun htrunc => ⟨_, exec_of_truncated (k := .run) htrunc, rfl, rfl, rfl⟩,
    fun htrunc => ⟨_, exec_of_truncated (k := .copy) htrunc, rfl, rfl, rfl⟩⟩

/-! ## The end of the stream -/

/-- A token that ends the call has raised an error. -/
theorem tokenOutcome_status_ne_ok {k : Kind} {n : Nat} {tmp : Temps} {s : State} (hb : s.busy = true)
    (hend : (tokenOutcome k n tmp s).busy = false) : (tokenOutcome k n tmp s).status ≠ Config.stOk := by
  unfold tokenOutcome at hend ⊢
  split
  · rw [raise_status]; decide
  · next hthere =>
    rw [if_neg hthere] at hend
    split
    · rw [raise_status]; decide
    · next hroom =>
      rw [if_neg hroom] at hend
      exact absurd hb (ne_true_of_eq_false hend)

/-- A turn of the decoder that ends the call with `OK` found the cursor at the end of SRC. -/
theorem rd_eq_srcLen_of_decodeTick_ok {s t : State} (hb : s.busy = true) (e : decodeTick s = .next t)
    (hend : t.busy = false) (hok : t.status = Config.stOk) : s.rd = s.cmd.srcLen := by
  rcases decodeTick_cases s with ⟨hrd, -⟩ | ⟨-, e'⟩
  · exact hrd
  · obtain ⟨hlt, -⟩ := withSrc_eq_next.1 (e'.symm.trans e)
    obtain ⟨tmp, e''⟩ := decodeTick_before_end hlt
    cases e.symm.trans e''
    exact absurd hok (tokenOutcome_status_ne_ok hb hend)

end Sys2Proof.Machine
end

section
/-! SUPPORT. Which bytes `dec` decodes with success, how many they are and how many it writes (R129), and where it stops
otherwise (R127); with that, the statements about the whole `DECODE` command (R120, R126). -/

namespace Sys2Proof.Machine

/-! ## Success and misfit of `dec` -/

/-- The header at the front of a whole token carries the token's length. -/
theorem headerLength_of_cons_eq {h : Byte} {tail rest : List Byte} {t : Token} (ht : t.wf = true)
    (e : h :: tail = t.bytes ++ rest) : headerLength (headerKind h) h = tokenLength t := by
  have hhead : some h = some (headerByte (tokenKind t) (tokenLength t)) := by
    simpa [token_bytes_head?] using congrArg List.head? e
  have hok := (token_wf_iff t).1 ht
  rw [Option.some_inj.1 hhead, headerKind_headerByte hok, headerLength_headerByte hok]

/-- Where `go` ends with success its source is whole tokens, and it has written their meaning (R126). -/
theorem exists_tokens_of_decGo_ok {cap fuel : Nat} {bs out : List Byte}
    (hok : (decGo cap fuel bs out).status = Config.stOk) :
    ∃ ts : List Token, (∀ t ∈ ts, t.wf = true) ∧ bs = streamBytes ts ∧
      decGo cap fuel bs out = resultOf Config.stOk (out ++ streamMeaning ts) := by
  induction fuel generalizing bs out with
  | zero =>
    cases bs with
    | nil => exact ⟨[], nofun, rfl, by rw [decGo_nil, streamMeaning_nil, List.append_nil]⟩
    | cons h tail => exact absurd hok (by rw [decGo, resultOf_status]; decide)
  | succ fuel ih =>
    cases bs with
    | nil => exact ⟨[], nofun, rfl, by rw [decGo_nil, streamMeaning_nil, List.append_nil]⟩
    | cons h tail =>
      by_cases htrunc : TruncatedToken h tail
      · exact absurd hok (by rw [decGo_truncated htrunc, resultOf_status]; decide)
      by_cases hroom : cap - out.length < headerLength (headerKind h) h
      · exact absurd hok (by rw [decGo_noRoom htrunc hroom, resultOf_status]; decide)
      obtain ⟨t, rest, ht, e⟩ := exists_token_of_not_truncated htrunc
      rw [headerLength_of_cons_eq ht e, Nat.not_lt] at hroom
      rw [e, decGo_token ht hroom] at hok ⊢
      obtain ⟨ts, hts, rfl, hres⟩ := ih hok
      exact ⟨t :: ts, List.forall_mem_cons.2 ⟨ht, hts⟩, rfl, by rw [hres, streamMeaning_cons, List.append_assoc]⟩

/-- What `dec` decodes with success is a stream of whole tokens, and its output their meaning. -/
theorem exists_tokens_of_dec_ok {bs : List Byte} {cap : Nat} (hok : (dec bs cap).status = Config.stOk) :
    ∃ ts : List Token, (∀ t ∈ ts, t.wf = true) ∧ bs = streamBytes ts ∧
      dec bs cap = resultOf Config.stOk (streamMeaning ts) :=
  exists_tokens_of_decGo_ok hok

/-- A whole token that does not fit, behind tokens that do, ends with `DST_WRITE_ERROR` (R127). -/
theorem dec_misfit {ts : List Token} {cap : Nat} {h : Byte} {tail : List Byte} (hts : ∀ t ∈ ts, t.wf = true)
    (hroom : (streamMeaning ts).length ≤ cap) (hwhole : ¬ TruncatedToken h tail)
    (hmisfit : cap < (streamMeaning ts).length + headerLength (headerKind h) h) :
    dec (streamBytes ts ++ h :: tail) cap = resultOf Config.stDstWriteError (streamMeaning ts) := by
  obtain ⟨fuel, hfuel⟩ := exists_fuel_for_tokens ts tail
  have hlen : (streamBytes ts ++ h :: tail).length = ts.length + (fuel + 1) := by
    rw [← Nat.add_assoc, ← hfuel, List.length_append, List.length_append, List.length_cons, Nat.add_assoc]
  rw [dec, hlen, decGo_streamBytes_append hts (by simpa using hroom), List.nil_append,
    decGo_noRoom hwhole (by omega)]

/-- One byte is a header without its payload. -/
theorem truncatedToken_nil (b : Byte) : TruncatedToken b [] :=
  two_le_tokenSize (one_le_of_lengthOk (lengthOk_headerLength b))

/-! ## Sizes -/

/-- The bounds of R129 without division: `wire` bytes of whole tokens stand for `raw` bytes. The last one is that of a token
of odd size, a COPY of two bytes or more; it is sharp for two, where `2 * 2 + 383 = 129 * 3`. -/
def SizeBounds (wire raw : Nat) : Prop :=
  wire ≤ 2 * raw ∧ 2 * raw ≤ 129 * wire ∧ (wire % 2 = 1 → 2 * raw + 383 ≤ 129 * wire)

theorem SizeBounds.add {wire raw wire' raw' : Nat} (h : SizeBounds wire raw) (h' : SizeBounds wire' raw') :
    SizeBounds (wire + wire') (raw + raw') := by
  unfold SizeBounds at *
  omega

theorem sizeBounds_token {t : Token} (h : t.wf = true) : SizeBounds t.bytes.length (tokenExpand t).length := by
  rw [token_wf_iff] at h
  rw [token_bytes_length, tokenExpand_length, SizeBounds]
  cases hk : tokenKind t with
  | run =>
    rw [hk, Laws.lengthOk_run] at h
    rw [tokenSize_run]
    omega
  | copy =>
    rw [hk, Laws.lengthOk_copy] at h
    rw [tokenSize_copy]
    omega

theorem sizeBounds_stream {ts : List Token} (h : ∀ t ∈ ts, t.wf = true) :
    SizeBounds (streamBytes ts).length (streamMeaning ts).length := by
  induction ts with
  | nil => exact ⟨le_rfl, le_rfl, nofun⟩
  | cons t ts ih =>
    obtain ⟨ht, hts⟩ := List.forall_mem_cons.1 h
    rw [streamBytes_cons, streamMeaning_cons, List.length_append, List.length_append]
    exact (sizeBounds_token ht).add (ih hts)

/-- Settles O40: what decodes is whole tokens, each within the bounds; one byte is none. -/
theorem decodeSizeBounds : Obligations.DecodeSizeBounds := by
  refine ⟨fun x cap hx hok => ?_, fun b cap => decGo_truncated (truncatedToken_nil b) cap 1 []⟩
  obtain ⟨ts, hts, rfl, hres⟩ := exists_tokens_of_dec_ok hok
  have hlen : (dec (streamBytes ts) cap).outputLength = (streamMeaning ts).length := by rw [hres]; rfl
  have hpos := List.length_pos_iff.2 hx
  obtain ⟨hlo, hhi, hodd⟩ := sizeBounds_stream hts
  rw [hlen]
  omega

/-! ## The command -/

/-- Settles O29: the engine computes `dec`, and no command touches DST beyond its `output_length`. -/
theorem decodeComputesDec : Obligations.DecodeComputesDec := by
  intro a s hready
  have ⟨hidle, _, _, hwf⟩ := hready
  obtain ⟨t, e, hend, hdef, hres⟩ := exec_decode_endsWith_dec hready
  obtain ⟨-, -, -, hover⟩ := exec_decodeCommand_frame (c := { toCallArgs := a, op := Config.opDecode }) hwf e
  obtain ⟨-, -, hbeyond⟩ := hover hidle
  exact ⟨t, e, hend, hdef, hres, hbeyond⟩

/-- Settles O39: the machine computes `dec`, which stops at the truncated token or at the one that does not fit. -/
theorem decodeStopsAtFirstBadToken : Obligations.DecodeStopsAtFirstBadToken := by
  intro a s ts h tail hready hts hsrc hroom
  obtain ⟨t, e, -, -, hres⟩ := exec_decode_endsWith_dec hready
  rw [hsrc] at hres
  exact ⟨fun htrunc => ⟨t, e, hres.trans (dec_truncated hts hroom htrunc)⟩,
    fun hwhole hmisfit => ⟨t, e, hres.trans (dec_misfit hts hroom (Nat.not_lt.2 hwhole) hmisfit)⟩⟩

/-- Valid arguments name a source of one byte or more (R72). -/
theorem sourceBytes_ne_nil {a : CallArgs} (hargs : argsInvalid a = false) (s : State) : sourceBytes a s ≠ [] := by
  obtain ⟨hlen, -⟩ := argsInvalid_eq_false hargs
  rwa [← List.length_pos_iff, sourceBytes, Memory.slice_length]

/-- A ready `DECODE` that ends with `OK` has written a byte or more: its source is not empty (R121). -/
theorem one_le_outputLength_of_decode_ok {a : CallArgs} {s t : State} (h : Ready a s)
    (e : exec (.decode a) s = .next t) (hok : t.status = Config.stOk) : 1 ≤ t.outputLength := by
  have ⟨_, hargs, _, _⟩ := h
  obtain ⟨_, e', -, -, hres⟩ := exec_decode_endsWith_dec h
  cases e.symm.trans e'
  have hdec : (dec (sourceBytes a s) a.dstCap).status = Config.stOk := by rw [← hres]; exact hok
  obtain ⟨hbounds, -⟩ := decodeSizeBounds
  obtain ⟨htwo, hlo, -⟩ := hbounds _ _ (sourceBytes_ne_nil hargs s) hdec
  show 1 ≤ t.result.outputLength
  rw [hres]
  omega

/-- Settles O11: a turn ends the call with `OK` at the end of SRC and nowhere else; and the source is not empty. -/
theorem streamEndIsTheOnlySuccess : Obligations.StreamEndIsTheOnlySuccess := by
  refine ⟨fun s hhost hb ho hrd => ?_, fun s t hhost hb ho e hend hok => ?_,
    fun a s t => one_le_outputLength_of_decode_ok⟩
  · rw [step_host_nil hhost, engineStep_decode hb ho, decodeTick_at_end hrd]
    rfl
  · rw [step_host_nil hhost, engineStep_decode hb ho] at e
    exact rd_eq_srcLen_of_decodeTick_ok hb e hend hok

end Sys2Proof.Machine
end

section
/-! SUPPORT. How a call ends: what `raise` writes (R144), and which statuses either command can answer, whatever the state
(R149, R152). -/

namespace Sys2Proof.Machine

/-- Settles O16: `raise` is the end of a call with the code of `E` and the length R144 gives it. -/
theorem raiseWritesResultAndStops : Obligations.RaiseWritesResultAndStops := fun e s =>
  ⟨raise_status e s, fun he => (raise_outputLength e s).trans (if_pos he),
    fun he => (raise_outputLength e s).trans (if_neg he), raise_busy e s, raise_resultDefined e s, rfl⟩

/-! ## The turns of the engines -/

/-- The statuses a call that is carried out can end with: success, no room in DST, and in DEC a stream that breaks off
(R149, R152). -/
def EndStatus (o : OpBit) (st : StatusBits) : Prop :=
  st = Config.stOk ∨ st = Config.stDstWriteError ∨ o = Config.opDecode ∧ st = Config.stSrcDecodeError

/-- If the call has ended, then with a status of its engine. -/
def EndsProperly (o : OpBit) (t : State) : Prop := t.busy = false → EndStatus o t.status

section
variable {o : OpBit} {s : State}

theorem EndsProperly.of_busy (hb : s.busy = true) : EndsProperly o s := fun hend => absurd hb (ne_true_of_eq_false hend)

theorem EndsProperly.done : EndsProperly o (done s) := fun _ => .inl rfl

theorem EndsProperly.raise_noRoom : EndsProperly o (raise Config.stDstWriteError s) := fun _ => .inr (.inl rfl)

variable (hb : s.busy = true)
include hb

theorem yields_emit_endsProperly (k : Kind) (a n : Nat) : Yields (EndsProperly o) (emit k a n s) := by
  refine (yields_emit k a n s).mono ?_
  rintro _ (rfl | rfl)
  · exact .raise_noRoom
  · exact .of_busy hb

/-- An emission and a new segment behind it. -/
theorem yields_emitSegment_endsProperly (k : Kind) (a n : Nat) (start : State → Nat) (m : Mode) :
    Yields (EndsProperly o) (thenIfBusy (emit k a n s) fun t => .next (setSegment (start t) m t)) :=
  (yields_emit_endsProperly hb k a n).thenIfBusy (fun _ _ hbu => .of_busy hbu) fun _ hu _ => hu

theorem yields_transition_endsProperly : Yields (EndsProperly o) (transition s) := by
  unfold transition
  split
  · split
    · unfold copyToRun
      split
      · exact yields_emitSegment_endsProperly hb _ _ _ (fun t => t.i - 1) _
      · rw [thenIfBusy_busy hb]
        exact .of_busy hb
    · exact .of_busy hb
  · split
    · exact .of_busy hb
    · exact yields_emitSegment_endsProperly hb _ _ _ (fun t => t.i) _

theorem yields_capCheck_endsProperly : Yields (EndsProperly o) (capCheck s) := by
  unfold capCheck
  split
  · exact yields_emitSegment_endsProperly hb _ _ _ (fun t => t.i) _
  · split
    · exact yields_emitSegment_endsProperly hb _ _ _ (fun t => t.i + 1) _
    · exact .of_busy hb

theorem yields_scanStep_endsProperly : Yields (EndsProperly o) (scanStep s) :=
  yields_withSrc fun cur => yields_withSrc fun prev =>
    (yields_transition_endsProperly (s := setEq (cur == prev) s) hb).thenIfBusy
      (fun _ _ hbu => yields_capCheck_endsProperly hbu) fun _ hu _ => hu

theorem yields_flush_endsProperly : Yields (EndsProperly o) (flush s) := by
  refine Yields.thenIfBusy (P := EndsProperly o) ?_ (fun _ _ _ => .done) fun _ hu _ => hu
  split
  · exact yields_emit_endsProperly hb _ _ _
  · split
    · exact yields_emit_endsProperly hb _ _ _
    · exact .of_busy hb

theorem yields_encodeTick_endsProperly : Yields (EndsProperly o) (encodeTick s) := by
  unfold encodeTick
  split
  · exact (yields_scanStep_endsProperly hb).thenIfBusy (fun _ _ hbu => .of_busy hbu) fun _ hu _ => hu
  · exact yields_flush_endsProperly hb

theorem yields_decodeTick_endsProperly : Yields (EndsProperly Config.opDecode) (decodeTick s) := by
  rcases decodeTick_cases s with ⟨-, e⟩ | ⟨-, e⟩ <;> rw [e]
  · exact .done
  · refine yields_withSrc fun h => ?_
    obtain ⟨tmp, e | e | ⟨-, -, e⟩⟩ := execToken_cases (headerKind h) (headerLength (headerKind h) h) (setH h s)
    · exact e ▸ fun _ => .inr (.inr ⟨rfl, rfl⟩)
    · exact e ▸ .raise_noRoom
    · exact e ▸ .of_busy hb

end

/-! ## Commands -/

/-- A call carried out ends, with a status of its engine. -/
theorem finishCall_endStatus {c : Command} {s t : State} (hargs : argsInvalid c.toCallArgs = false)
    (h : finishCall (initCall (accept c s)) = .next t) : EndStatus c.op t.status := by
  have hbusy : (initCall (accept c s)).busy = true := by simp
  have hend : t.busy = false := by
    rw [finishCall_eq_engineSteps, initCall_cmd, accept_cmd] at h
    obtain ⟨hend, -⟩ := engineSteps_end (fun _ => turnsSuffice_initCall hargs s) h
    exact hend
  unfold finishCall at h
  split at h
  · exact runCall_keeps (P := EndsProperly c.op) (fun _ _ hb _ hv => (yields_encodeTick_endsProperly hb).next hv)
      (.of_busy hbusy) h hend
  · next hop =>
    rw [initCall_cmd, accept_cmd] at hop
    rw [(op_cases c.op).resolve_left hop]
    exact runCall_keeps (fun _ _ hb _ hv => (yields_decodeTick_endsProperly hb).next hv) (.of_busy hbusy) h hend

/-- Either command on an idle block: validation has failed, or the call was carried out. -/
theorem exec_decodeCommand_status {c : Command} {s t : State} (hidle : s.busy = false)
    (h : exec (decodeCommand c) s = .next t) :
    t.status = Config.stInvalidArgument ∨ EndStatus c.op t.status := by
  rw [exec_decodeCommand] at h
  rcases issueCommand_eq_next h with ⟨hb, -⟩ | ⟨-, rfl⟩ | ⟨-, hargs, h⟩
  · exact absurd hb (ne_true_of_eq_false hidle)
  · exact .inl rfl
  · exact .inr (finishCall_endStatus hargs h)

/-- Settles O17: the statuses of either command, of which `SRC_DECODE_ERROR` is not ENC's. -/
theorem callStatusValues : Obligations.CallStatusValues := by
  intro a s t hidle
  constructor
  · intro h
    rcases exec_decodeCommand_status (c := { toCallArgs := a, op := Config.opEncode }) hidle h with
      hinv | hok | hroom | ⟨hop, -⟩
    · exact .inr (.inl hinv)
    · exact .inl hok
    · exact .inr (.inr hroom)
    · exact absurd hop opEncode_ne_opDecode
  · intro h
    rcases exec_decodeCommand_status (c := { toCallArgs := a, op := Config.opDecode }) hidle h with
      hinv | hok | hroom | ⟨-, hsrc⟩
    · exact .inr (.inl hinv)
    · exact .inl hok
    · exact .inr (.inr (.inl hroom))
    · exact .inr (.inr (.inr hsrc))

end Sys2Proof.Machine
end

section
/-! SUPPORT. What presenting a command does, case by case (R32, R71), and that both handshakes end a call alike (D1): a
command run turn by turn answers, whatever DST holds, and its turns are the body that a waiting host's command runs. -/

namespace Sys2Proof.Machine

/-! ## Presenting a command, case by case -/

/-- During a call no command is accepted (R71). -/
theorem issueCommand_busy {s : State} (hb : s.busy = true) (c : Command) (body : State → Answer) :
    issueCommand c body s = .next s := if_pos hb

/-- A valid command is refused when the buffers overlap (R32). -/
theorem issueCommand_overlap {c : Command} {s : State} (hidle : s.busy = false)
    (hargs : argsInvalid c.toCallArgs = false) (hover : s.overlap = true) (body : State → Answer) : issueCommand c body s = .refused .buffersOverlap := by
  simp [issueCommand, startCall, thenIfBusy, andThen, hidle, hargs, hover]

/-- A valid command with the buffers apart runs its body from the state call start leaves (R70 to R73). -/
theorem issueCommand_apart {c : Command} {s : State} (hidle : s.busy = false) (hargs : argsInvalid c.toCallArgs = false)
    (hover : s.overlap = false) (body : State → Answer) : issueCommand c body s = body (initCall (accept c s)) := by
  simp [issueCommand, startCall, thenIfBusy_next, hidle, hargs, hover]

/-- Settles O13: presenting a command during a call answers the state itself, whatever the handshake's body. -/
theorem commandWhileBusyHasNoEffect : Obligations.CommandWhileBusyHasNoEffect := by
  intro s hb
  refine ⟨fun a => ⟨issueCommand_busy hb _ _, issueCommand_busy hb _ _⟩, fun hs c rest hhost => ?_⟩
  rw [step_host_cons hhost]
  cases hs with
  | blocking =>
    rw [hostStep, exec_decodeCommand]
    exact issueCommand_busy (s := { s with host := rest }) hb _ _
  | start => exact issueCommand_busy (s := { s with host := rest }) hb _ _

/-- Settles O14: call start refuses the overlap before either body runs. -/
theorem overlapIsRefused : Obligations.OverlapIsRefused := fun _ _ hidle hargs hover =>
  ⟨issueCommand_overlap hidle hargs hover _, issueCommand_overlap hidle hargs hover _⟩

/-! ## A call answers, whatever DST holds -/

theorem emitThen_scanInv {k : Kind} {n seg : Nat} {m : Mode} {s t : State}
    (hscan : ScanInv (setI (s.i + 1) (setSegment seg m s))) (h : emitThen k n seg m s = .next t) (hb : t.busy = true) :
    ScanInv t := by
  unfold emitThen at h
  split at h
  · cases h
    cases hb
  · cases h
    exact hscan

/-- A scan step, with or without an emission, leaves a segment open that is as `ScanInv` says. -/
theorem encodeTick_opens {s : State} (hb : s.busy = true) (hi : s.i < s.cmd.srcLen) (hs : ScanInv s) :
    ∃ seg m e, ScanInv (setI (s.i + 1) (setSegment seg m s)) ∧
      (encodeTick s = .next (setI (s.i + 1) (setSegment seg m (setEq e s))) ∨
        ∃ k n, encodeTick s = emitThen k n seg m (setEq e s)) := by
  have hsucc : 1 ≤ s.i + 1 := Nat.le_add_left _ _
  cases hm : s.mode with
  | inCopy =>
    obtain ⟨h1, -, hle, -, -⟩ := (scanInv_inCopy_iff hm).1 hs
    have hrun : s.src.read s.i = s.src.read (s.i - 1) → ScanInv (setI (s.i + 1) (setSegment (s.i - 1) .inRun s)) := by
      intro heq
      refine scanInv_new_run rfl hi ?_ ?_
      · simp only [setI_i, setI_segStart, setSegment_segStart]
        omega
      · rw [setI_segStart, setSegment_segStart, Nat.sub_add_cancel h1]
        exact heq
    rcases encodeTick_inCopy hb hi hs hm with
      ⟨hne, hlt, e⟩ | ⟨-, hempty, e⟩ | ⟨heq, -, e⟩ | ⟨heq, -, e⟩ | ⟨-, -, e⟩
    · exact ⟨s.segStart, s.mode, false, hs.extend_copy hm hi hne hlt, .inl e⟩
    · exact ⟨s.segStart, s.mode, true,
        scanInv_short_copy hm hsucc hi (Nat.le_succ_of_le hle) (Nat.succ_le_succ hempty.ge), .inl e⟩
    · exact ⟨_, _, _, hrun heq, .inl e⟩
    · exact ⟨_, _, _, hrun heq, .inr ⟨_, _, e⟩⟩
    · exact ⟨_, _, _, scanInv_short_copy rfl hsucc hi (Nat.le_succ _) le_rfl, .inr ⟨_, _, e⟩⟩
  | inRun =>
    rcases encodeTick_inRun hb hi hs hm with ⟨heq, hlt, e⟩ | ⟨-, -, e⟩ | ⟨-, e⟩
    · exact ⟨s.segStart, s.mode, true, hs.extend_run hm hi heq hlt, .inl e⟩
    · exact ⟨_, _, _, scanInv_short_copy rfl hsucc hi le_rfl (Nat.le_succ _), .inr ⟨_, _, e⟩⟩
    · exact ⟨_, _, _, scanInv_short_copy rfl hsucc hi (Nat.le_succ _) le_rfl, .inr ⟨_, _, e⟩⟩

theorem encodeTick_scanInv {s t : State} (hb : s.busy = true) (hs : ScanInv s) (h : encodeTick s = .next t)
    (htb : t.busy = true) : ScanInv t := by
  obtain ⟨-, -, hnext⟩ := (yields_encodeTick hb).next h
  obtain ⟨hi, -⟩ := hnext htb
  obtain ⟨seg, m, e, hscan, heq | ⟨k, n, heq⟩⟩ := encodeTick_opens hb hi hs <;> rw [heq] at h
  · cases h
    exact hscan
  · exact emitThen_scanInv (s := setEq e s) hscan h htb

/-- Where the engine of the call in progress stands is sound (R25, R26), whatever the buffers hold. -/
def EngineInv (s : State) : Prop :=
  (s.cmd.op = Config.opEncode → ScanInv s) ∧ (s.cmd.op = Config.opDecode → s.rd ≤ s.cmd.srcLen)

theorem CallInv.engineInv {s : State} (h : CallInv s) : EngineInv s := by
  obtain ⟨-, -, -, henc, hdec⟩ := h
  exact ⟨fun ho => (henc ho).1, fun ho => (hdec ho).1⟩

/-- A turn of the block answers where its engine stands sound, and leaves it sound while the call goes on. -/
theorem engineStep_engineInv {s : State} (hs : s.busy = true → EngineInv s) :
    ∃ t, engineStep s = .next t ∧ (t.busy = true → EngineInv t) := by
  cases hb : s.busy with
  | false => exact ⟨s, engineStep_idle hb, hs⟩
  | true =>
    obtain ⟨henc, hdec⟩ := hs hb
    rcases op_cases s.cmd.op with ho | ho
    · obtain ⟨t, h⟩ := encodeTick_answers hb (henc ho)
      have ⟨hcmd, _⟩ := keeps_encodeTick s t h
      refine ⟨t, by rw [engineStep_encode hb ho, h], fun htb => ⟨fun _ => encodeTick_scanInv hb (henc ho) h htb, ?_⟩⟩
      rw [hcmd, ho]
      exact fun h => absurd h opEncode_ne_opDecode
    · obtain ⟨t, h⟩ := decodeTick_answers (hdec ho)
      have ⟨hcmd, _⟩ := keeps_decodeTick s t h
      obtain ⟨-, -, hnext⟩ := (yields_decodeTick hb).next h
      refine ⟨t, by rw [engineStep_decode hb ho, h], fun htb => ⟨?_, fun _ => hcmd ▸ (hnext htb).2⟩⟩
      rw [hcmd, ho]
      exact fun h => absurd h.symm opEncode_ne_opDecode

theorem engineSteps_answers_of_engineInv (k : Nat) {s : State} (hs : s.busy = true → EngineInv s) :
    ∃ t, engineSteps k s = .next t := by
  induction k generalizing s with
  | zero => exact ⟨s, rfl⟩
  | succ k ih =>
    obtain ⟨u, hu, hinv⟩ := engineStep_engineInv hs
    rw [engineSteps, hu, andThen_next]
    exact ih hinv

theorem engineSteps_idle {s : State} (h : s.busy = false) (k : Nat) : engineSteps k s = .next s := by
  induction k with
  | zero => rfl
  | succ k ih => rw [engineSteps, engineStep_idle h, andThen_next, ih]

/-! ## The two handshakes -/

/-- Settles O46: an invalid command ends in the step that takes it, and the turns after it do nothing; else `src_len`
turns answer from the state call start leaves, end the call, and are the body of the waiting host's command. -/
theorem handshakesAgree : Obligations.HandshakesAgree := by
  intro s c hidle hok
  rw [step_host_cons (s := { s with host := [.issue .blocking c] }) rfl,
    step_host_cons (s := { s with host := [.issue .start c] }) rfl, hostStep, hostStep, exec_decodeCommand, beginCall]
  generalize hs' : { s with host := [] } = s'
  have hidle' : s'.busy = false := hs' ▸ hidle
  cases hargs : argsInvalid c.toCallArgs with
  | true =>
    exact ⟨_, _, issueCommand_invalid hidle' hargs _, rfl, issueCommand_invalid hidle' hargs _, engineSteps_idle rfl _⟩
  | false =>
    have hover : s'.overlap = false := hs' ▸ hok.resolve_left (ne_true_of_eq_false hargs)
    obtain ⟨t, ht⟩ := engineSteps_answers_of_engineInv c.srcLen fun _ => (callInv_initCall hargs s').engineInv
    obtain ⟨hend, -⟩ := engineSteps_end (fun _ => turnsSuffice_initCall hargs s') ht
    refine ⟨t, initCall (accept c s'), ?_, hend, issueCommand_apart hidle' hargs hover _, ht⟩
    rw [issueCommand_apart hidle' hargs hover, finishCall_eq_engineSteps, initCall_cmd, accept_cmd, ht]

end Sys2Proof.Machine
end

section
/-! SUPPORT. The caps of the two kinds of segment, on the machine and in the segmentation of equal bytes (R93, R94). -/

namespace Sys2Proof.Machine

/-- Settles O26: the scan step that fills a run, and the one that fills a copy. -/
theorem scanCutsAtTheCaps : Obligations.ScanCutsAtTheCaps := by
  intro s hs hi
  rw [hs.step_eq]
  have ⟨_, hb, _, hwf, hscan⟩ := hs
  constructor
  · intro hm heq hfull
    rcases encodeTick_inRun hb hi hscan hm with ⟨-, hlt, -⟩ | ⟨-, -, e⟩ | ⟨hne, -⟩
    · omega
    · rw [e]
      exact emitThen_scanEmits hwf .run _ _ _ _
    · exact absurd heq hne
  · intro hm hne hfull
    rcases encodeTick_inCopy hb hi hscan hm with ⟨-, hlt, -⟩ | ⟨heq, -⟩ | ⟨heq, -⟩ | ⟨heq, -⟩ | ⟨-, -, e⟩
    · omega
    · exact absurd heq hne
    · exact absurd heq hne
    · exact absurd heq hne
    · rw [e]
      exact emitThen_scanEmits hwf .copy _ _ _ _

/-- Equal bytes below the run cap: nothing, a copy of the one byte, or one run. -/
theorem seg_replicate_of_lt {r : Nat} (b : Byte) (h : r < 129) :
    seg (List.replicate r b) = if r = 0 then [] else if r = 1 then [.copy [b]] else [.run r b] := by
  match r, h with
  | 0, _ => rfl
  | 1, _ => exact seg_singleton b
  | r + 2, h => exact seg_replicate b (Nat.le_add_left 2 r) h.le

/-- Settles O34, by induction on the number of full runs. -/
theorem equalBytesSplitAtTheRunCap : Obligations.EqualBytesSplitAtTheRunCap := by
  intro q r b hr
  induction q with
  | zero => rw [Nat.mul_zero, Nat.zero_add, List.replicate_zero, List.nil_append, seg_replicate_of_lt b hr]
  | succ q ih =>
    rw [Nat.mul_succ, Nat.add_comm (129 * q), Nat.add_assoc, seg_replicate_add_cap, ih, List.replicate_succ,
      List.cons_append]

end Sys2Proof.Machine
end

section
/-! SUPPORT. The host's reads, how long the result record stays, and reset (R76, R160, R161, R166). -/

namespace Sys2Proof.Machine

/-! ## Reads and the result record -/

/-- Settles O50, one read after another. -/
theorem hostReads : Obligations.HostReads := by
  intro s rest
  refine ⟨fun hidle hdef hhost => ?_, fun hidle hdef hhost => ?_, fun a hidle hhost => ?_, fun a hhost => ?_,
    fun hhost => ?_⟩ <;> rw [step_host_cons hhost]
  · exact hostStep_readResult (s := { s with host := rest }) hidle hdef
  · exact ⟨_, _, hostStep_readResult_draw (s := { s with host := rest }) hidle hdef⟩
  · exact hostStep_readDst (s := { s with host := rest }) hidle a
  · exact hostStep_readSrc a _
  · exact hostStep_readBusy _

/-- The block is idle, and its result record is the one it had. -/
def ResultKept (s t : State) : Prop :=
  t.outputLength = s.outputLength ∧ t.status = s.status ∧ t.resultDefined = s.resultDefined ∧ t.busy = false

theorem ResultKept.refl {s : State} (hidle : s.busy = false) : ResultKept s s := ⟨rfl, rfl, rfl, hidle⟩

/-- A move of the host on an idle block, neither a command nor a reset, keeps the result record. -/
theorem hostStep_resultKept {m : HostMove} {s t : State} (hidle : s.busy = false) (hissue : ∀ hs c, m ≠ .issue hs c)
    (hreset : m ≠ .reset) (h : hostStep m s = .next t) : ResultKept s t := by
  have hkept := ResultKept.refl hidle
  cases m with
  | issue hs c => exact absurd rfl (hissue hs c)
  | writeSrc | writeDst | placeBuffers | readDst =>
    rw [hostStep, whenIdle_eq_next] at h
    obtain ⟨-, ⟨⟩⟩ := h
    exact hkept
  | readResult =>
    rw [hostStep, whenIdle_eq_next] at h
    obtain ⟨-, h⟩ := h
    split at h <;> cases h <;> exact hkept
  | readSrc | readBusy =>
    cases h
    exact hkept
  | reset => exact absurd rfl hreset
  | pass =>
    cases (engineStep_idle hidle).symm.trans h
    exact hkept

/-- Settles O49: an idle block's own turn does nothing, and of the host's moves only a command and a reset touch the
record. -/
theorem resultRecordStays : Obligations.ResultRecordStays := by
  intro s t hidle hissue hreset h
  cases hhost : s.host with
  | nil =>
    rw [step_host_nil hhost, engineStep_idle hidle] at h
    cases h
    exact ResultKept.refl hidle
  | cons m rest =>
    rw [step_host_cons hhost] at h
    rw [hhost] at hissue hreset
    exact hostStep_resultKept (s := { s with host := rest }) hidle (fun hs c e => hissue hs c (congrArg some e))
      (fun e => hreset (congrArg some e)) h

/-! ## Reset -/

/-- Settles O41: the registers' values at reset are in range, and nothing is listed in the three memories. -/
theorem resetIsSound : Obligations.ResetIsSound :=
  ⟨rfl, rfl, inv_of_idle rfl ⟨Memory.wf_nil, Memory.wf_nil, Memory.wf_nil⟩ ⟨rfl, nofun⟩⟩

theorem resetBlock_idle {s : State} (h : s.busy = false) : resetBlock s = .next (resetRegisters s) := by
  simp [resetBlock, h]

/-- Settles O51: `resetRegisters` keeps what is not the block's own. -/
theorem resetWhileIdle : Obligations.ResetWhileIdle := by
  intro s rest hidle hhost
  rw [step_host_cons hhost]
  exact ⟨_, resetBlock_idle (s := { s with host := rest }) hidle, rfl, rfl, rfl, rfl, rfl, rfl⟩

/-- The state a reset leaves of a call in progress that would have ended with `final` in DST (R161). -/
def abandoned (final : Memory) (s : State) : State :=
  { resetRegisters s with
    dst := mixDst final s.dstBefore s.freeIndex s.cmd.dstCap, freeIndex := s.freeIndex + s.cmd.dstCap }

theorem resetBlock_busy {s u : State} (hb : s.busy = true) (h : finishCall s = .next u) :
    resetBlock s = .next (abandoned u.dst s) := by
  rw [resetBlock, if_pos hb, h]
  rfl

/-- A byte of DST after a reset during a call: below `n` it is the final one or the old one, as the free choice says. -/
theorem read_mixDst {old : Memory} (hold : old.wf) (final : Memory) (k n x : Nat) :
    (mixDst final old k n).read x =
      if x < n ∧ Config.freeChoice (k + x) = true then final.read x else old.read x := by
  induction n with
  | zero => simp [mixDst]
  | succ n ih =>
    rw [mixDst, Memory.read_write (mixDst_wf hold final k n), ih]
    rcases eq_or_ne x n with rfl | hne
    · simp
    · simp only [if_neg hne, show x < n + 1 ↔ x < n by omega]

/-- Settles O52: the abandoned call could have been run to its end, and DST is mixed from there and from before the
call. -/
theorem resetDuringCall : Obligations.ResetDuringCall := by
  intro s rest hs hb hhost
  have ⟨⟨_, _, hbefore⟩, _⟩ := hs
  obtain ⟨_, u, hu, hend, -⟩ := engineSteps_endsWith (s := { s with host := rest }) hs hb
  rw [← finishCall_eq_engineSteps] at hu
  refine ⟨abandoned u.dst { s with host := rest }, u, ?_, hu, hend, rfl, rfl, rfl, rfl, fun x => ?_⟩
  · rw [step_host_cons hhost]
    exact resetBlock_busy hb hu
  · have hread : (abandoned u.dst { s with host := rest }).dst.read x =
        if x < s.cmd.dstCap ∧ Config.freeChoice (s.freeIndex + x) = true then u.dst.read x else s.dstBefore.read x :=
      read_mixDst hbefore u.dst s.freeIndex s.cmd.dstCap x
    rw [hread]
    constructor
    · intro _
      split
      · exact .inr rfl
      · exact .inl rfl
    · intro hpast
      exact if_neg fun ⟨hlt, _⟩ => absurd hlt (Nat.not_lt.2 hpast)

end Sys2Proof.Machine
end
